-- ==== Sys2Proof/Word.lean ====
section
/-! DEFINITION. Words, characters, Morse symbols, the exact real numbers a `Num` register holds, and
the small records of `spec/10_state.md`. Types only: what is computed with them stands under
`Machine/`. -/

namespace Sys2Proof

/-- An 8-bit character or timing element (`20_memory.md` R70, `30_encoding.md` R110, R113). -/
abbrev Byte := BitVec 8

/-- A 32-bit word: a configuration register, a binary32 element, the CRC register
(`10_state.md` R21, R36; `20_memory.md` R70). -/
abbrev Word := BitVec 32

/-- A 64-bit command word, bit 0 least significant (`30_encoding.md` R100). -/
abbrev CmdWord := BitVec 64

/-- A Morse element: dot or dash (`30_encoding.md` R115). -/
inductive Sym where
  | dot
  | dash
  deriving DecidableEq, Repr, Inhabited

/-- A Morse pattern, first element first (`30_encoding.md` R115). -/
abbrev Pattern := List Sym

/-- One summand `coef × cos (2π × turn)` of a real number. -/
structure CosTerm where
  turn : ℚ
  coef : ℚ
  deriving DecidableEq, Repr, Inhabited

/-- The value of a `Num` register (`00_scope.md` R15): a real number, held exactly as the finite sum of
its terms `coef × cos (2π × turn)`. Every real the block computes from its inputs is of this form
(`C` is such a cosine, samples and thresholds are rationals, and these numbers are closed under
`+`, `−` and `×`), so the reference instantiation "Num = ℝ" is computed without any rounding
(log entry 1). -/
structure RNum where
  terms : List CosTerm
  deriving DecidableEq, Repr, Inhabited

/-- A `Num` that stands for an angle in radians: the value of the register `OMEGA` (`10_state.md` R24) and of the phase
`OMEGA × n`. In the reference numerics it is an exact multiple of `2π`, which no finite sum of cosines is; in any
other `NUM` it is an element of that field like every other `Num` (log entry 2). -/
inductive Angle where
  /-- the exact angle `2π × num / den` -/
  | turns (num den : Nat)
  /-- a number of the field -/
  | held (x : RNum)
  deriving DecidableEq, Repr, Inhabited

/-- One run of the tone-bit sequence (`30_encoding.md` R114). -/
structure Run where
  on : Bool
  length : Nat
  deriving DecidableEq, Repr, Inhabited

/-- Four characters: the registers `CRC4` and `GOT4` (`10_state.md` R37). -/
structure Quad where
  c0 : Byte
  c1 : Byte
  c2 : Byte
  c3 : Byte
  deriving DecidableEq, Repr, Inhabited

/-- The four characters in index order (`20_memory.md` R75 (b)). -/
def Quad.toList (q : Quad) : List Byte := [q.c0, q.c1, q.c2, q.c3]

/-- The elements of a buffer space whose value is determined, listed by index (`20_memory.md` R70). -/
abbrev Cells (α : Type) := List (Nat × α)

/-- A buffer space (`20_memory.md` R70): the elements that are determined, in the canonical form of
`Machine/Ops.lean`, and the seed of the free values that all other elements read as (R38, R72; log entry 6). -/
structure Space (α : Type) where
  cells : Cells α
  seed : Nat
  deriving DecidableEq, Repr, Inhabited

end Sys2Proof
end

