-- ==== Sys2Proof/Syntax.lean ====
section
/-! DEFINITION. The eleven operations of the opcode map, one constructor for each row of
`spec/opcode_table.json` (`30_encoding.md` R104). -/

namespace Sys2Proof

/-- An operation with the operands its command word carries (`30_encoding.md` R104). Every other operand
comes from the registers and buffer spaces, never from the word (R101). -/
inductive Instr where
  /-- `CFGW sel, imm` (`40_config.md` R141) -/
  | cfgw (sel : BitVec 8) (imm : Word)
  /-- `INIT` (`40_config.md` R143) -/
  | init
  /-- `RENDER` (`41_render.md` R163) -/
  | render
  /-- `GZMAG b` (`42_goertzel.md` R184) -/
  | gzmag (b : Word)
  /-- `DETECT` (`42_goertzel.md` R185) -/
  | detect
  /-- `DEMOD` (`43_demod.md` R213) -/
  | demod
  /-- `CRC32` (`44_frame.md` R241) -/
  | crc32
  /-- `ENCCRC` (`44_frame.md` R243) -/
  | enccrc
  /-- `FRAME` (`44_frame.md` R250) -/
  | frame
  /-- `DEFRAME` (`44_frame.md` R255) -/
  | deframe
  /-- `DECODE` (`45_decode.md` R281) -/
  | decode
  deriving DecidableEq, Repr

end Sys2Proof
end

