-- ==== Sys2Proof/WellFormed.lean ====
section
/-! DEFINITION. Which instructions have a legal command word (`30_encoding.md` R105). -/

namespace Sys2Proof

/-- The one check on operands: the selector of `CFGW` is at most 5 (`30_encoding.md` R102, R105). -/
def Instr.wf : Instr → Bool
  | .cfgw sel _ => decide (sel.toNat ≤ 5)
  | .init => true
  | .render => true
  | .gzmag _ => true
  | .detect => true
  | .demod => true
  | .crc32 => true
  | .enccrc => true
  | .frame => true
  | .deframe => true
  | .decode => true

/-- A well-formed instruction: one whose command word is legal. -/
abbrev WellFormed (i : Instr) : Prop := i.wf = true

end Sys2Proof
end

