-- ==== Sys2Proof/Decode.lean ====
section
/-! DEFINITION. The decoder of command words, total on all 2^64 words and refusing the reserved ones, and
the encoder, both written from `30_encoding.md` R100, R104 and R105. -/

namespace Sys2Proof

/-- Bits 63:56, the operation code (`30_encoding.md` R100). -/
def opField (w : CmdWord) : BitVec 8 := w.extractLsb' 56 8

/-- Bits 55:48, the register selector (`30_encoding.md` R100). -/
def selField (w : CmdWord) : BitVec 8 := w.extractLsb' 48 8

/-- Bits 47:32, which must be 0 (`30_encoding.md` R100). -/
def zeroField (w : CmdWord) : BitVec 16 := w.extractLsb' 32 16

/-- Bits 31:0, the immediate (`30_encoding.md` R100). -/
def immField (w : CmdWord) : Word := w.extractLsb' 0 32

/-- The operation code of each operation (`30_encoding.md` R104). -/
def opcode : Instr → BitVec 8
  | .cfgw _ _ => 0x01
  | .init => 0x02
  | .render => 0x10
  | .gzmag _ => 0x20
  | .detect => 0x21
  | .demod => 0x30
  | .crc32 => 0x40
  | .enccrc => 0x41
  | .frame => 0x42
  | .deframe => 0x43
  | .decode => 0x50

/-- The instruction the operation code selects, its operands taken from the fields; `none` for a code that
is not one of the eleven (`30_encoding.md` R104, R105). -/
def byOpcode (op sel : BitVec 8) (imm : Word) : Option Instr :=
  match op.toNat with
  | 0x01 => some (.cfgw sel imm)
  | 0x02 => some .init
  | 0x10 => some .render
  | 0x20 => some (.gzmag imm)
  | 0x21 => some .detect
  | 0x30 => some .demod
  | 0x40 => some .crc32
  | 0x41 => some .enccrc
  | 0x42 => some .frame
  | 0x43 => some .deframe
  | 0x50 => some .decode
  | _ => none

/-- The selector field of an instruction's word: 0 unless it is `CFGW` (`30_encoding.md` R100). -/
def selOf : Instr → BitVec 8
  | .cfgw sel _ => sel
  | .init | .render | .gzmag _ | .detect | .demod | .crc32 | .enccrc | .frame | .deframe | .decode => 0

/-- The immediate field of an instruction's word: 0 unless it is `CFGW` or `GZMAG` (`30_encoding.md` R100). -/
def immOf : Instr → Word
  | .cfgw _ imm => imm
  | .gzmag b => b
  | .init | .render | .detect | .demod | .crc32 | .enccrc | .frame | .deframe | .decode => 0

/-- Is the word legal for the instruction its operation code selects (`30_encoding.md` R105): `zero` is 0,
`sel` is 0 unless the operation is `CFGW` and then at most 5, `imm` is 0 unless it is `CFGW` or `GZMAG`. -/
def legalFor (i : Instr) (w : CmdWord) : Bool :=
  zeroField w == 0 && selField w == selOf i && immField w == immOf i && i.wf

/-- The decoder: `none` for a reserved word (`30_encoding.md` R105). -/
def decode (w : CmdWord) : Option Instr :=
  match byOpcode (opField w) (selField w) (immField w) with
  | some i => if legalFor i w then some i else none
  | none => none

/-- A command word from its four fields (`30_encoding.md` R100). -/
def packWord (op sel : BitVec 8) (imm : Word) : CmdWord :=
  op ++ sel ++ (0 : BitVec 16) ++ imm

/-- The command word of an instruction (`30_encoding.md` R100, R104). -/
def encode (i : Instr) : CmdWord := packWord (opcode i) (selOf i) (immOf i)

/-- The instruction the decoder reads from the command word `w`, numbered as the opcode table numbers it;
bits from `nbits` up are 0. -/
def decodeTableWord (nbits w : Nat) : Option Instr :=
  decode (BitVec.ofNat 64 (w % 2 ^ nbits))

end Sys2Proof
end

