-- ==== Sys2Proof/Config.lean ====
section
/-! DEFINITION. The implementation parameters of `00_scope.md` R11 as one plain record `Params`, and the
free values: constants without a body, about which nothing can be proved. -/

namespace Sys2Proof

/-- The operations of a numerics field `NUM` (`00_scope.md` R11, R15). The carrier of every instantiation is
`RNum`: the values of any fixed- or floating-point format are rationals, and comparison of values is
comparison of the reals they are. -/
structure NumField where
  /-- an exact rational (a sample `val32 e`, a constant 3, 0.7, 0.8, 1/2, a sample index) brought into the field -/
  ofRat : ℚ → RNum
  add : RNum → RNum → RNum
  sub : RNum → RNum → RNum
  mul : RNum → RNum → RNum
  /-- `2 × cos (2π × k / n)`, `40_config.md` R146 -/
  twoCos : Nat → Nat → RNum
  /-- `2π × f0 / fs`, `40_config.md` R148 -/
  omega : Nat → Nat → RNum
  /-- the sine, `41_render.md` R161 -/
  sin : RNum → RNum
  deriving Inhabited

/-- What the operations of the block compute with: a numerics field whose angles may be exact multiples of `2π`
(`Machine/Numerics.lean` gives the reference and every other `NUM`). -/
structure NumOps where
  /-- an exact rational (a sample `val32 e`, a constant 3, 0.7, 0.8, 1/2) brought into the field -/
  ofRat : ℚ → RNum
  add : RNum → RNum → RNum
  sub : RNum → RNum → RNum
  mul : RNum → RNum → RNum
  /-- `2 × cos (2π × k / n)`, `40_config.md` R146 -/
  twoCos : Nat → Nat → RNum
  /-- `OMEGA = 2π × f0 / fs`, `40_config.md` R148 -/
  omega : Nat → Nat → Angle
  /-- the product `OMEGA × n`, `41_render.md` R161 -/
  times : Angle → Nat → Angle
  /-- the sine of a phase, `41_render.md` R161 -/
  sin : Angle → RNum

/-- `NUM` (R11, R15; `93_implementation_defined.md` U11): the exact reals, or any other field. -/
inductive Numerics where
  | exactReal
  | other (id : Nat)
  deriving DecidableEq, Repr, Inhabited

/-- `MEDIAN_RULE` (`42_goertzel.md` R189). -/
inductive MedianRule where
  | upper
  | lower
  | mean
  deriving DecidableEq, Repr, Inhabited

/-- `CRC32_ALG` (`44_frame.md` R242): the default, or any other total function. -/
inductive CrcAlg where
  | ieee
  | other (id : Nat)
  deriving DecidableEq, Repr, Inhabited

/-- `ENCODE_CRC` (`44_frame.md` R244): the default, or any other total function. -/
inductive CrcText where
  | hex4
  | other (id : Nat)
  deriving DecidableEq, Repr, Inhabited

/-- `GZ_AUTO_ZERO` (`42_goertzel.md` R195; `93_implementation_defined.md` U1). -/
inductive AutoZero where
  | literal
  | refuse
  deriving DecidableEq, Repr, Inhabited

/-- The configuration record of a chip (`00_scope.md` R11, `10_state.md` R49): fixed for a given chip,
never written by an operation, and what a claim quantifies over. -/
structure Params where
  /-- `NUM` -/
  numerics : Numerics
  /-- `MEDIAN_RULE` -/
  medianRule : MedianRule
  /-- `CRC32_ALG` -/
  crcAlg : CrcAlg
  /-- `ENCODE_CRC` -/
  crcText : CrcText
  /-- `MORSE_FWD`: a character that is not listed has no pattern -/
  morse : List (Byte × Pattern)
  /-- `GZ_AUTO_ZERO` -/
  autoZero : AutoZero
  timMax : Nat
  pcmMax : Nat
  bitsMax : Nat
  txtMax : Nat
  payMax : Nat
  /-- `IDX_W` -/
  idxW : Nat
  deriving DecidableEq, Repr, Inhabited

/-- FREE VALUE. The operations of a `NUM` that is not the exact reals (R11 OPEN; log entry 3). -/
opaque Config.numOther : Nat → NumField

/-- FREE VALUE. In the exact reals, the sine of a number that is not held as a multiple of `2π`. `INIT` writes no such
`OMEGA` there, so no run of a constructed block takes it (log entry 2). -/
opaque Config.freeSin : RNum → RNum

/-- FREE VALUE. A `CRC32_ALG` that is not the default (`44_frame.md` R242; log entry 3). -/
opaque Config.crcOther : Nat → List Byte → Word

/-- FREE VALUE. An `ENCODE_CRC` that is not the default (`44_frame.md` R244; log entry 3). Its type says R245 (a) and (b);
R245 (c) is `CrcTextKeyable` in `Safety.lean`, a part of the invariant. -/
opaque Config.crcTextOther : Nat → Word → Quad

/-- FREE VALUE. The value of `C` after an `INIT` with `N` = 0 (`40_config.md` R153 (a); log entry 7). -/
opaque Config.freeNum : Nat → RNum

/-- FREE VALUE. What a loop index register holds outside its operation (`10_state.md` R30, R35; log entry 8). -/
opaque Config.freeIndex : Nat → Nat

/-- FREE VALUE. What element `i` of a buffer space reads as where nothing determines it: after reset, and at or beyond
the length once the length register has been written (`10_state.md` R38, R48, `20_memory.md` R72; log entry 6). The
seed says which space it is and which writes of its length register came before. -/
opaque Config.freeCell (α : Type) [Inhabited α] (seed i : Nat) : α

end Sys2Proof
end

