-- ==== Sys2Proof/Machine/Numerics.lean ====
section
/-! DEFINITION. Exact arithmetic on the numbers a `Num` register holds (`00_scope.md` R15): `+`, `−`, `×`,
the cosine and sine of a rational number of turns, exact comparison, and the two conversions of
binary32 elements, `val32` and `rnd32`. -/

namespace Sys2Proof

/-! ## Sums and products of cosine terms -/

namespace RNum

/-- The real number 0. -/
def zero : RNum := ⟨[]⟩

/-- An exact rational: its only term is at turn 0, where the cosine is 1. -/
def ofRat (r : ℚ) : RNum := if r = 0 then zero else ⟨[⟨0, r⟩]⟩

/-- Put one term into a list kept in rising order of turns, going on with `rest` behind it; terms at the
same turn are added and a coefficient 0 is dropped. -/
def mergeTerm (t : CosTerm) (rest : List CosTerm → List CosTerm) : List CosTerm → List CosTerm
  | [] => t :: rest []
  | u :: us =>
    if u.turn < t.turn then u :: mergeTerm t rest us
    else if u.turn = t.turn then
      if t.coef + u.coef = 0 then rest us else ⟨t.turn, t.coef + u.coef⟩ :: rest us
    else t :: rest (u :: us)

/-- The merge of two term lists. -/
def addTerms : List CosTerm → List CosTerm → List CosTerm
  | [] => fun us => us
  | t :: ts => mergeTerm t (addTerms ts)

def add (a b : RNum) : RNum := ⟨addTerms a.terms b.terms⟩

/-- A number times an exact rational. -/
def scale (r : ℚ) (a : RNum) : RNum :=
  if r = 0 then zero else ⟨a.terms.map fun t => ⟨t.turn, r * t.coef⟩⟩

def sub (a b : RNum) : RNum := add a (scale (-1) b)

/-- The turn in [0, 1/4] and the sign with `cos (2π q) = sign × cos (2π turn)`, by the period and the two
symmetries of the cosine. -/
def foldTurn (q : ℚ) : ℚ × ℚ :=
  let f := q - q.floor
  let g := if 1 / 2 < f then 1 - f else f
  if 1 / 4 < g then (1 / 2 - g, -1) else (g, 1)

/-- `cos (2π × q)`; the rational values `cos (π/2) = 0` and `cos (π/3) = 1/2` are held as rationals
(`40_config.md` R146). -/
def cosTurn (q : ℚ) : RNum :=
  let (g, s) := foldTurn q
  if g = 1 / 4 then zero else if g = 1 / 6 then ofRat (s / 2) else ⟨[⟨g, s⟩]⟩

/-- The product of two terms, by `cos α × cos β = (cos (α + β) + cos (α − β)) / 2`. -/
def mulTerm (t u : CosTerm) : RNum :=
  scale (t.coef * u.coef / 2) (add (cosTurn (t.turn + u.turn)) (cosTurn (t.turn - u.turn)))

def mul (a b : RNum) : RNum :=
  a.terms.foldr (fun t acc => b.terms.foldr (fun u acc' => add (mulTerm t u) acc') acc) zero

/-! ## Approximation with a known error, and the exact sign -/

/-- `f 0 − f 1 + f 2 − …`, `n` terms. -/
def altSum (f : Nat → Nat) : Nat → Int
  | 0 => 0
  | n + 1 => if n % 2 = 0 then altSum f n + f n else altSum f n - f n

/-- `2^p × arctan (1/m)`, each term of the series rounded down. -/
def arctanInv (p m : Nat) : Int :=
  altSum (fun k => 2 ^ p / ((2 * k + 1) * m ^ (2 * k + 1))) (p / 4 + 1)

/-- `2^p × π`, by Machin's formula. -/
def piFix (p : Nat) : Int := 16 * arctanInv p 5 - 4 * arctanInv p 239

/-- `2^p × cos (2π q)` for `q` in [0, 1/4]: the Taylor series at `x / 2^p`, where `x` is `2^p × 2π q` rounded
down. It is within `errUnits p` of the exact value. -/
def cosFix (p : Nat) (pi : Int) (q : ℚ) : Int :=
  let x := (2 * q * pi).floor.toNat
  altSum (fun k => x ^ (2 * k) * 2 ^ p / (2 ^ (2 * k * p) * (2 * k).factorial)) (p / 2 + 4)

/-- `2^p × cos (2π q)` for any `q`: the turn is folded into [0, 1/4] first. -/
def cosTermFix (p : Nat) (pi : Int) (q : ℚ) : Int :=
  if (foldTurn q).2 < 0 then -cosFix p pi (foldTurn q).1 else cosFix p pi (foldTurn q).1

/-- The error of `cosFix`, in units of `2^-p`. -/
def errUnits (p : Nat) : Nat := 4 * p + 64

/-- The common denominator of the coefficients. -/
def coefDen (a : RNum) : Nat := a.terms.foldr (fun t d => Nat.lcm t.coef.den d) 1

/-- The common denominator of the turns: `a` lies in the field of the roots of unity of this order. -/
def turnDen (a : RNum) : Nat := a.terms.foldr (fun t d => Nat.lcm t.turn.den d) 1

/-- A coefficient times the common denominator `d`. -/
def intCoef (d : Nat) (t : CosTerm) : Int := t.coef.num * (d / t.coef.den : Nat)

/-- The sum of the absolute values of the coefficients, times the common denominator `d`. -/
def weight (d : Nat) (a : RNum) : Nat := a.terms.foldr (fun t w => (intCoef d t).natAbs + w) 0

/-- `d × 2^p × a`, with error at most `weight d a × errUnits p`. -/
def approx (p d : Nat) (a : RNum) : Int :=
  let pi := piFix p
  a.terms.foldr (fun t s => intCoef d t * cosTermFix p pi t.turn + s) 0

/-- The sign of `a` as the precision `p` shows it: `none` where it does not decide. -/
def signAt (p : Nat) (a : RNum) : Option Ordering :=
  let d := coefDen a
  let v := approx p d a
  let e : Int := weight d a * errUnits p
  if e < v then some .gt else if v < -e then some .lt else none

/-- A precision that decides the sign of every `a ≠ 0`. With `d` the common denominator of the coefficients,
`2 d a` is an algebraic integer of the field of the `n`-th roots of unity, `n = turnDen a`, all of whose at most
`n` conjugates are at most `2 × weight d a`; the product of the conjugates of a non-zero algebraic integer is a
non-zero integer, so `a` cannot be smaller than that product allows (log entry 1). -/
def fullBits (a : RNum) : Nat :=
  let b := (turnDen a + 2) * (Nat.log2 (2 * weight (coefDen a) a) + 1)
  b + Nat.log2 b + 16

/-- The exact value where `a` is held as a rational. -/
def toRat? (a : RNum) : Option ℚ :=
  match a.terms with
  | [] => some 0
  | [t] => if t.turn = 0 then some t.coef else none
  | _ :: _ :: _ => none

/-- The sign of `a`, exactly: `.lt` for negative, `.eq` for zero, `.gt` for positive. -/
def sign (a : RNum) : Ordering :=
  match toRat? a with
  | some r => if r < 0 then .lt else if r = 0 then .eq else .gt
  | none =>
    match signAt 64 a with
    | some o => o
    | none => (signAt (fullBits a) a).getD .eq

/-- `a < b` as real numbers (`00_scope.md` R15). -/
def lt (a b : RNum) : Bool := sign (sub a b) == .lt

/-- `a ≤ b` as real numbers (`00_scope.md` R15). -/
def le (a b : RNum) : Bool := !lt b a

end RNum

/-! ## binary32 (`00_scope.md` R15, `30_encoding.md` R101) -/

/-- Bits 30:23 of a binary32 element, the exponent field. -/
def expField (w : Word) : Nat := (w.extractLsb' 23 8).toNat

/-- Bits 22:0 of a binary32 element, the fraction field. -/
def fracField (w : Word) : Nat := (w.extractLsb' 0 23).toNat

/-- Neither an infinity nor a NaN: the exponent field is not all ones (`30_encoding.md` R101). -/
def isFinite32 (w : Word) : Bool := expField w != 0xFF

/-- The value of a finite binary32 element, an exact rational; −0 is 0. -/
def rat32 (w : Word) : ℚ :=
  let m : Int := if expField w = 0 then fracField w else 2 ^ 23 + fracField w
  let e := max 1 (expField w)
  let v : ℚ := if 150 ≤ e then (m * 2 ^ (e - 150) : Int) else mkRat m (2 ^ (150 - e))
  if w.msb then -v else v

/-- `n / d` rounded to the nearest natural, a tie going to the even one. -/
def roundHalfEven (n d : Nat) : Nat :=
  let q := n / d
  let r := n % d
  if 2 * r < d then q else if d < 2 * r then q + 1 else if q % 2 = 0 then q else q + 1

/-- Bits 30:0 of the binary32 element nearest to `n / d > 0`, ties to even; from the overflow threshold on
the pattern of infinity. -/
def magnitude32 (n d : Nat) : Nat :=
  let e₀ : Int := (Nat.log2 n : Int) - Nat.log2 d
  let below : Bool := if 0 ≤ e₀ then n < d * 2 ^ e₀.toNat else n * 2 ^ (-e₀).toNat < d
  let e := max (if below then e₀ - 1 else e₀) (-126)
  let q := e - 23
  let m := if 0 ≤ q then roundHalfEven n (d * 2 ^ q.toNat) else roundHalfEven (n * 2 ^ (-q).toNat) d
  min ((e + 126).toNat * 2 ^ 23 + m) 0x7F800000

/-- `rnd32` of an exact rational (`00_scope.md` R15): nearest, ties to even, `rnd32 0` = +0.0. -/
def rnd32Rat (r : ℚ) : Word :=
  if r = 0 then 0
  else BitVec.ofNat 32 ((if r < 0 then 2 ^ 31 else 0) + magnitude32 r.num.natAbs r.den)

/-- The rational `v / (d × 2^p)`. -/
def ratAt (p d : Nat) (v : Int) : ℚ := mkRat v (d * 2 ^ p)

/-- `rnd32` of a number known to lie in [`lo`, `hi`], where both ends round to the same element. -/
def rnd32Between (lo hi : ℚ) : Option Word :=
  if rnd32Rat lo = rnd32Rat hi then some (rnd32Rat lo) else none

/-- The ends of the interval that the precision `p` gives for `a`. -/
def RNum.bounds (p : Nat) (a : RNum) : ℚ × ℚ :=
  let d := coefDen a
  let v := approx p d a
  let e : Int := weight d a * errUnits p
  (ratAt p d (v - e), ratAt p d (v + e))

/-- A precision at which the bounds of `a` are closer than two rounding boundaries of binary32 can be. -/
def RNum.tieBits (a : RNum) : Nat := 192 + 2 * Nat.log2 (weight (coefDen a) a + 1)

/-- The multiple of 2^-150 nearest to the middle of an interval. -/
def RNum.boundary (b : ℚ × ℚ) : ℚ := mkRat ((b.1 + b.2) * 2 ^ 149 + 1 / 2).floor (2 ^ 150)

/-- One of three elements, by the side of a boundary. -/
def bySide (o : Ordering) (below at' above : Word) : Word :=
  match o with
  | .lt => below
  | .eq => at'
  | .gt => above

/-- `rnd32` of a number between close bounds that round differently: one rounding boundary (a multiple of
2^-150) lies between them, and the exact sign of the difference decides. -/
def RNum.rnd32Near (b : ℚ × ℚ) (a : RNum) : Word :=
  bySide (sign (sub a (ofRat (boundary b)))) (rnd32Rat b.1) (rnd32Rat (boundary b)) (rnd32Rat b.2)

/-- `rnd32` of a number not known to be rational: from bounds that round alike, first at 64 bits, then at
`tieBits`; else from the exact sign. -/
def RNum.rnd32Bounds (a : RNum) : Word :=
  (rnd32Between (bounds 64 a).1 (bounds 64 a).2).getD
    ((rnd32Between (bounds (tieBits a) a).1 (bounds (tieBits a) a).2).getD (rnd32Near (bounds (tieBits a) a) a))

/-- The binary32 element nearest to a real number, ties to even (`00_scope.md` R15, decision D9). -/
def RNum.rnd32 (a : RNum) : Word :=
  match toRat? a with
  | some r => rnd32Rat r
  | none => rnd32Bounds a

/-! ## The numerics field -/

/-- The product of an exact angle and `n` (`41_render.md` R161). -/
def Angle.timesExact (ω : Angle) (n : Nat) : Angle :=
  match ω with
  | .turns num den => .turns (num * n) den
  | .held x => .held (RNum.mul x (RNum.ofRat n))

/-- The sine of an exact angle, `sin (2π t) = cos (2π (t − 1/4))` (`41_render.md` R161). -/
def Angle.sinExact : Angle → RNum
  | .turns num den => RNum.cosTurn (mkRat num den - 1 / 4)
  | .held x => Config.freeSin x

/-- The reference instantiation of `NUM` (`00_scope.md` R15): the exact reals. -/
def NumOps.exact : NumOps where
  ofRat := RNum.ofRat
  add := RNum.add
  sub := RNum.sub
  mul := RNum.mul
  twoCos := fun k n => RNum.scale 2 (RNum.cosTurn (mkRat k n))
  omega := Angle.turns
  times := Angle.timesExact
  sin := Angle.sinExact

/-- An angle as a number of the field. -/
def NumField.angle (f : NumField) : Angle → RNum
  | .turns num den => f.omega num den
  | .held x => x

/-- A numerics field other than the reference: its angles are numbers of the field, and `OMEGA × n` is its own product
(`41_render.md` R161). -/
def NumField.ops (f : NumField) : NumOps where
  ofRat := f.ofRat
  add := f.add
  sub := f.sub
  mul := f.mul
  twoCos := f.twoCos
  omega := fun f0 fs => .held (f.omega f0 fs)
  times := fun ω n => .held (f.mul (f.angle ω) (f.ofRat n))
  sin := fun ω => f.sin (f.angle ω)

/-- The numerics of a chip: the reference, or the open parameter (`00_scope.md` R11). -/
def Params.ops (p : Params) : NumOps :=
  match p.numerics with
  | .exactReal => NumOps.exact
  | .other id => (Config.numOther id).ops

/-- `val32 e` brought into the numerics of the chip (`00_scope.md` R15). -/
def NumOps.val32 (ops : NumOps) (w : Word) : RNum := ops.ofRat (rat32 w)

end Sys2Proof
end

