-- ==== Sys2Proof/Machine/Params.lean ====
section
/-! DEFINITION. The default values of the implementation parameters (`00_scope.md` R9, R11): the
international Morse table, the supported characters, and the parameters `State.reset` carries. -/

namespace Sys2Proof

/-- The character codes of an ASCII range (`30_encoding.md` R113). -/
def codeRange (first count : Nat) : List Byte :=
  (List.range count).map fun i => BitVec.ofNat 8 (first + i)

/-- The 42 supported characters in the order `INIT` queries them: A to Z, 0 to 9, then `+ / . : - ?`
(`40_config.md` R143, R151). -/
def supportedChars : List Byte :=
  codeRange 0x41 26 ++ codeRange 0x30 10 ++ [0x2B, 0x2F, 0x2E, 0x3A, 0x2D, 0x3F]

namespace Morse

/-- A pattern written as a list of lengths in units: 1 for a dot, 3 for a dash (`30_encoding.md` R115). -/
def ofUnits (us : List Nat) : Pattern := us.map fun u => if u = 1 then .dot else .dash

/-- The patterns of A to Z (`30_encoding.md` R120). -/
def letters : List (List Nat) :=
  [[1, 3], [3, 1, 1, 1], [3, 1, 3, 1], [3, 1, 1], [1], [1, 1, 3, 1], [3, 3, 1]] ++
  [[1, 1, 1, 1], [1, 1], [1, 3, 3, 3], [3, 1, 3], [1, 3, 1, 1], [3, 3], [3, 1]] ++
  [[3, 3, 3], [1, 3, 3, 1], [3, 3, 1, 3], [1, 3, 1], [1, 1, 1], [3], [1, 1, 3]] ++
  [[1, 1, 1, 3], [1, 3, 3], [3, 1, 1, 3], [3, 1, 3, 3], [3, 3, 1, 1]]

/-- The patterns of 0 to 9 (`30_encoding.md` R120). -/
def digits : List (List Nat) :=
  [[3, 3, 3, 3, 3], [1, 3, 3, 3, 3], [1, 1, 3, 3, 3], [1, 1, 1, 3, 3], [1, 1, 1, 1, 3]] ++
  [[1, 1, 1, 1, 1], [3, 1, 1, 1, 1], [3, 3, 1, 1, 1], [3, 3, 3, 1, 1], [3, 3, 3, 3, 1]]

/-- The patterns of `+ / . : - ?` (`30_encoding.md` R120). -/
def marks : List (List Nat) :=
  [[1, 3, 1, 3, 1], [3, 1, 1, 3, 1], [1, 3, 1, 3, 1, 3]] ++
  [[3, 3, 3, 1, 1, 1], [3, 1, 1, 1, 1, 3], [1, 1, 3, 3, 1, 1]]

/-- The default `MORSE_FWD`: the international Morse code of the 42 characters (`30_encoding.md` R120). -/
def international : List (Byte × Pattern) :=
  supportedChars.zip ((letters ++ digits ++ marks).map ofUnits)

end Morse

/-- The parameters that `State.reset` carries: the default where `00_scope.md` R11 gives one; for `IDX_W`
and the capacities, which have no default, the values of log entry 4, at which no operation on inputs
of any practical size is refused. -/
def Params.default : Params where
  numerics := .exactReal
  medianRule := .upper
  crcAlg := .ieee
  crcText := .hex4
  morse := Morse.international
  autoZero := .literal
  timMax := 2 ^ 64 - 1
  pcmMax := 2 ^ 64 - 1
  bitsMax := 2 ^ 64 - 1
  txtMax := 2 ^ 64 - 1
  payMax := 2 ^ 64 - 1
  idxW := 64

/-- What R11, R45 and R115 ask of the parameters: `IDX_W` is at least 32, every index below a capacity fits
in `IDX_W` bits, and no pattern is empty. What R245 (c) asks of `ENCODE_CRC`, over all 2^32 checksums, is
`CrcTextKeyable` in `Safety.lean`. -/
def Params.wf (p : Params) : Bool :=
  decide (32 ≤ p.idxW) && decide (p.timMax < 2 ^ p.idxW) && decide (p.pcmMax < 2 ^ p.idxW) &&
    decide (p.bitsMax < 2 ^ p.idxW) && decide (p.txtMax < 2 ^ p.idxW) &&
    decide (p.payMax < 2 ^ p.idxW) && p.morse.all fun e => !e.2.isEmpty

/-- `MORSE_FWD(c)` (`30_encoding.md` R120): the pattern of a character, if it has one. -/
def Params.pattern (p : Params) (c : Byte) : Option Pattern := p.morse.lookup c

end Sys2Proof
end

