-- ==== Sys2Proof/Machine/State.lean ====
section
/-! DEFINITION. The state of the block (`10_state.md`), the reasons a step is refused, and the state after
reset (`10_state.md` R48). -/

namespace Sys2Proof.Machine

/-- A fault stops the machine. The block has none: every failure is an error value or a refusal
(`00_scope.md` R8, `60_exceptions.md` R300, `93_implementation_defined.md` Part 1), so this type is empty
and no step can answer one. -/
inductive Fault where
  deriving DecidableEq, Repr

/-- The reasons a command is refused (`60_exceptions.md` R311): the spec gives it no meaning there. Every
one is safe: no next state is given, and nothing can be proved of what the hardware does. -/
inductive Refusal where
  /-- An arm of `exec` that has no meaning yet; raised by `exec` alone. Safe. -/
  | notModelled (mnemonic : String)
  /-- A command word that is not legal (R105); raised when a command is decoded. Safe. -/
  | reserved
  /-- `CFGW` with a selector above 5 (R141). Safe. -/
  | reservedSelector
  /-- `CFGW THETA` with an infinity or NaN pattern (R141). Safe. -/
  | nonFiniteThreshold
  /-- Every operation but `CFGW` and `INIT` while `READY` = 0 (R44, R142). Safe. -/
  | notConstructed
  /-- `INIT` with `FS` = 0 (R143). Safe. -/
  | zeroSampleRate
  /-- `INIT` with `WPM` = 0 (R143). Safe. -/
  | zeroWpm
  /-- `INIT` where two supported characters share a pattern (R143, R151). Safe. -/
  | ambiguousTable
  /-- `GZMAG` with `N` = 0 (R184). Safe. -/
  | zeroBlockSize
  /-- `GZMAG` of a block not wholly inside the buffer (R184). Safe. -/
  | blockOutOfRange
  /-- `GZMAG`, `DETECT`, `DECODE` reading an infinity or NaN sample (R184, R185). Safe. -/
  | nonFiniteSample
  /-- An input or a result beyond a capacity or beyond `IDX_W` (R73, R311). Safe. -/
  | capacity
  /-- `DETECT`, `DECODE` in the contested band where `GZ_AUTO_ZERO` is `refuse` (R195). Safe. -/
  | contested
  /-- A host move other than reset while an operation runs (R7; `93_implementation_defined.md` U12). Safe. -/
  | hostWhileBusy
  /-- A host write of an element or a length that does not exist (R70, R73; log entry 11). Safe. -/
  | hostOutOfRange
  deriving DecidableEq, Repr

/-- `STAGE`: the decode stages in the source's order (`10_state.md` R41). -/
inductive Stage where
  | none
  | goertzel
  | morseDecode
  | deframe
  | base43Decode
  | validate
  | complete
  deriving DecidableEq, Repr, Inhabited

/-- `ERR`: the error codes (`60_exceptions.md` R301). -/
inductive Err where
  | none
  | noBlocks
  | noText
  | frameShort
  | noPreamble
  | noProsign
  | bodyShort
  | crcMismatch
  | base43
  | validate
  deriving DecidableEq, Repr, Inhabited

/-- The spaces the host may load, each with its length register (`20_memory.md` R71). -/
inductive HostSpace where
  | tim
  | pcm
  | bits
  | txt
  | pay
  deriving DecidableEq, Repr

/-- What the host may read while the block is idle (`60_exceptions.md` R317): a register by name, or an
element of a space. -/
inductive ReadTarget where
  | fs | f0 | wpm | n | theta | bpu
  | k | c | omega | spu | dotDash | wordGap | rtab
  | s1 | s2 | mag | thon | thoff | st | gb | gi
  | pat | nidx | ru | rj | crc | crc4 | got4
  | timLen | pcmLen | bitsLen | runsLen | txtLen | payLen
  | status
  | timAt (i : Nat) | pcmAt (i : Nat) | magsAt (i : Nat) | bitsAt (i : Nat) | runsAt (i : Nat)
  | txtAt (i : Nat) | payAt (i : Nat)
  deriving DecidableEq, Repr

/-- One move of the host (`00_scope.md` R7): issue a command word, write an element or a length register,
read, or assert reset. -/
inductive HostMove where
  | command (w : CmdWord)
  | writeTim (i : Nat) (v : Byte)
  | writePcm (i : Nat) (v : Word)
  | writeBits (i : Nat) (v : Bool)
  | writeTxt (i : Nat) (v : Byte)
  | writePay (i : Nat) (v : Byte)
  | writeLen (space : HostSpace) (len : Nat)
  | read (target : ReadTarget)
  | reset
  deriving DecidableEq, Repr

/-- The state of the block, in the order of `10_state.md`; the last three fields are the model's own. -/
structure State where
  /-- `FS`, sample rate in Hz (R21) -/
  fs : Word
  /-- `F0`, tone frequency in Hz (R21) -/
  f0 : Word
  /-- `WPM`, words per minute (R21) -/
  wpm : Word
  /-- `N`, Goertzel block size in samples (R21) -/
  n : Word
  /-- `THETA`, threshold; ≤ 0 selects auto (R21) -/
  theta : RNum
  /-- `BPU`, blocks per unit (R21) -/
  bpu : Word
  /-- `K`, the integer bin, an `IDX_W`-bit number (R24) -/
  k : Nat
  /-- `C`, the Goertzel coefficient (R24) -/
  c : RNum
  /-- `OMEGA`, radians per sample, a number of the chip's `NUM` (R24; log entry 2) -/
  omega : Angle
  /-- `SPU`, samples per unit (R24) -/
  spu : Nat
  /-- `DOT_DASH` (R24) -/
  dotDash : Nat
  /-- `WORD_GAP` (R24) -/
  wordGap : Nat
  /-- `RTAB`, the reverse Morse table (R25) -/
  rtab : List (Pattern × Byte)
  /-- `S1`, Goertzel recurrence (R26) -/
  s1 : RNum
  /-- `S2`, Goertzel recurrence (R26) -/
  s2 : RNum
  /-- `MAG`, result of the last `GZMAG` (R27) -/
  mag : RNum
  /-- `THON` (R28) -/
  thon : RNum
  /-- `THOFF` (R28) -/
  thoff : RNum
  /-- `ST`, the hysteresis state, `true` for ON (R29) -/
  st : Bool
  /-- `GB`, block index (R30) -/
  gb : Nat
  /-- `GI`, sample index within the block (R30) -/
  gi : Nat
  /-- `PAT`, the pattern in progress (R32) -/
  pat : Pattern
  /-- `NIDX`, the renderer's global sample index (R34) -/
  nidx : Nat
  /-- `RU`, timing-array index (R35) -/
  ru : Nat
  /-- `RJ`, sample index within the unit (R35) -/
  rj : Nat
  /-- `CRC` (R36) -/
  crc : Word
  /-- `CRC4` (R37) -/
  crc4 : Quad
  /-- `GOT4` (R37) -/
  got4 : Quad
  /-- `TIM_LEN` (R38) -/
  timLen : Nat
  /-- `PCM_LEN` (R38) -/
  pcmLen : Nat
  /-- `BITS_LEN`, also the valid length of `MAGS` (R38) -/
  bitsLen : Nat
  /-- `RUNS_LEN` (R38) -/
  runsLen : Nat
  /-- `TXT_LEN` (R38) -/
  txtLen : Nat
  /-- `PAY_LEN` (R38) -/
  payLen : Nat
  /-- `TIM`, timing array, signed 8-bit elements (R70, R110) -/
  tim : Space Byte
  /-- `PCM`, binary32 elements (R70, R111) -/
  pcm : Space Word
  /-- `MAGS`, block powers (R27, R70) -/
  mags : Space RNum
  /-- `BITS`, tone bits (R70, R112) -/
  bits : Space Bool
  /-- `RUNS` (R31, R70) -/
  runs : Space Run
  /-- `TXT`, text (R33, R70) -/
  txt : Space Byte
  /-- `PAY`, payload (R70) -/
  pay : Space Byte
  /-- `READY` (R44) -/
  ready : Bool
  /-- `BUSY` (R44) -/
  busy : Bool
  /-- `VALID` (R43) -/
  valid : Bool
  /-- `STAGE` (R41) -/
  stage : Stage
  /-- `ERR` (R42) -/
  err : Err
  /-- MODEL'S OWN: the parameters of the chip (R11, R49), which no step changes (log entry 4) -/
  params : Params
  /-- MODEL'S OWN: how many free values have been drawn (log entries 7, 8) -/
  free : Nat
  /-- MODEL'S OWN: the moves the host is about to make, first one next (R7; log entry 10) -/
  host : List HostMove
  deriving DecidableEq, Repr

/-- The state after reset on a chip with the given parameters (`10_state.md` R48, `70_reset_and_hazards.md`
R340): the configuration defaults, flags, indices, lengths and the recurrence at the values of that table;
what it leaves unspecified at the values of log entry 5; every element of every buffer space open, with the free
values of the `round`-th set of seeds (R341; log entry 6). -/
def State.resetOn (p : Params) (free round : Nat) (host : List HostMove) : State where
  fs := 44100
  f0 := 750
  wpm := 20
  n := 882
  theta := RNum.zero
  bpu := 3
  k := 0
  c := RNum.zero
  omega := .held RNum.zero
  spu := 0
  dotDash := 0
  wordGap := 0
  rtab := []
  s1 := RNum.zero
  s2 := RNum.zero
  mag := RNum.zero
  thon := RNum.zero
  thoff := RNum.zero
  st := false
  gb := 0
  gi := 0
  pat := []
  nidx := 0
  ru := 0
  rj := 0
  crc := 0
  crc4 := ⟨0, 0, 0, 0⟩
  got4 := ⟨0, 0, 0, 0⟩
  timLen := 0
  pcmLen := 0
  bitsLen := 0
  runsLen := 0
  txtLen := 0
  payLen := 0
  tim := ⟨[], 7 * round + 0⟩
  pcm := ⟨[], 7 * round + 1⟩
  mags := ⟨[], 7 * round + 2⟩
  bits := ⟨[], 7 * round + 3⟩
  runs := ⟨[], 7 * round + 4⟩
  txt := ⟨[], 7 * round + 5⟩
  pay := ⟨[], 7 * round + 6⟩
  ready := false
  busy := false
  valid := false
  stage := .none
  err := .none
  params := p
  free := free
  host := host

/-- The machine right after reset: `State.resetOn` with the parameters `Params.default`, no free value
drawn and the host about to do nothing. -/
def State.reset : State := State.resetOn Params.default 0 0 []

end Sys2Proof.Machine
end

