-- ==== Sys2Proof/Machine/Ops.lean ====
section
/-! DEFINITION. The operations every meaning shares: the buffer spaces, refusing, going on, raising an error
value, and drawing a free value. -/

namespace Sys2Proof.Machine

/-! ## Buffer spaces (`20_memory.md`)

The determined elements of a space are a list of (index, element) pairs with rising indices, so that equal contents are
equal data. An element that is not listed is open: nothing determines its value (log entry 6). -/

/-- The canonical form: indices strictly rising from `lo` on. -/
def cellsWfFrom {α : Type} (lo : Nat) : Cells α → Bool
  | [] => true
  | (i, _) :: m => decide (lo ≤ i) && cellsWfFrom (i + 1) m

/-- The canonical form of a space. -/
def spaceWf {α : Type} (m : Space α) : Bool := cellsWfFrom 0 m.cells

/-- The listed value of element `i`, if it has one. -/
def lookupCell {α : Type} (i : Nat) : Cells α → Option α
  | [] => none
  | (j, v) :: m => if j = i then some v else lookupCell i m

/-- Element `i` is open: no value is determined for it. -/
def isOpen {α : Type} (i : Nat) (m : Space α) : Prop := lookupCell i m.cells = none

/-- `MemRead(SPACE, i)` (`00_scope.md` R14); an open element reads as its free value. -/
def readCell {α : Type} [Inhabited α] (i : Nat) (m : Space α) : α :=
  (lookupCell i m.cells).getD (Config.freeCell α m.seed i)

/-- The list with element `i` listed as `v`. -/
def insertCell {α : Type} (i : Nat) (v : α) : Cells α → Cells α
  | [] => [(i, v)]
  | (j, u) :: m =>
    if j < i then (j, u) :: insertCell i v m
    else if j = i then (i, v) :: m
    else (i, v) :: (j, u) :: m

/-- `MemWrite(SPACE, i, v)` (`00_scope.md` R14). -/
def writeCell {α : Type} (i : Nat) (v : α) (m : Space α) : Space α := { m with cells := insertCell i v m.cells }

/-- Elements `i, i+1, …, i+count−1` in index order, the open ones as the free values of `seed`. -/
def spanFrom {α : Type} [Inhabited α] (seed : Nat) : Nat → Nat → Cells α → List α
  | 0, _, _ => []
  | count + 1, i, m =>
    match m.dropWhile fun e => decide (e.1 < i) with
    | [] => Config.freeCell α seed i :: spanFrom seed count (i + 1) []
    | (j, v) :: m' =>
      if j = i then v :: spanFrom seed count (i + 1) m'
      else Config.freeCell α seed i :: spanFrom seed count (i + 1) ((j, v) :: m')

/-- Elements `i, i+1, …, i+count−1` of a space in index order. -/
def readSpan {α : Type} [Inhabited α] (count i : Nat) (m : Space α) : List α := spanFrom m.seed count i m.cells

/-- `SPACE[0..len]` (`10_state.md` R38): the content of a space with the given length. -/
def contents {α : Type} [Inhabited α] (m : Space α) (len : Nat) : List α := readSpan len 0 m

/-- The entries of the elements `xs` at the indices from `i` on. -/
def cellsOf {α : Type} : Nat → List α → Cells α
  | _, [] => []
  | i, x :: xs => (i, x) :: cellsOf (i + 1) xs

/-- The seed after a write of the length register. The seven spaces start at seven neighbouring seeds and step by
seven, so no seed is used twice. -/
def nextSeed (seed : Nat) : Nat := seed + 7

/-- `SPACE_LEN <- len` as it bears on the space: the elements at or beyond the length are open (`10_state.md` R38,
`20_memory.md` R72), with new free values. -/
def forget {α : Type} (len : Nat) (m : Space α) : Space α :=
  ⟨m.cells.filter fun e => decide (e.1 < len), nextSeed m.seed⟩

/-- `SPACE[0..len(xs)] <- xs ; SPACE_LEN <- len(xs)`: the elements `xs` at the indices 0, 1, …, and every element beyond
them open (`20_memory.md` R72, R79). -/
def store {α : Type} (m : Space α) (xs : List α) : Space α := ⟨cellsOf 0 xs, nextSeed m.seed⟩

/-! ## Outcomes (`00_scope.md` R8, R14) -/

/-- What an operation ends in. -/
abbrev Result := Host.Outcome State Fault Refusal

/-- `if c: refuse(r)`, else go on (`00_scope.md` R14). -/
def refuseIf (c : Bool) (r : Refusal) (k : Result) : Result := if c then .refused r else k

/-- `if READY == 0: refuse(not_constructed)`, else go on (`10_state.md` R44). -/
def whenReady (s : State) (k : Result) : Result := refuseIf (!s.ready) .notConstructed k

/-- Do one operation in place, then go on with the state it left; a refusal inside it refuses the whole
(`45_decode.md` R281). -/
def andThen (o : Result) (k : State → Result) : Result :=
  match o with
  | .next s => k s
  | .fault f => .fault f
  | .refused r => .refused r

/-- TAKING AN ERROR, the block's one exceptional outcome (`60_exceptions.md` R300, R304): `ERR <- code` and the
operation ends. `VALID` was cleared when the operation began; no return address is saved, no mode
changes, no handler runs, and there is no return from it (R305): the next command runs as usual. -/
def raise (e : Err) (s : State) : Result := .next { s with err := e }

/-! ## Free values -/

/-- The value a loop index register holds once its operation has ended: any `IDX_W`-bit number
(`10_state.md` R30, R35; log entry 8). `j` tells the registers of one operation apart. -/
def freeIndexOf (s : State) (j : Nat) : Nat := Config.freeIndex (s.free + j) % 2 ^ s.params.idxW

end Sys2Proof.Machine
end

