-- ==== Sys2Proof/Machine/Operands.lean ====
section
/-! DEFINITION. What an operation reads: its input spaces, the roundings of `00_scope.md` R12, the derived
quantities of `40_config.md`, and the default external functions `crc32` and `encode_crc`. -/

namespace Sys2Proof.Machine

/-! ## Input sequences (`20_memory.md` R70, R72) -/

/-- `TIM[0..TIM_LEN]` -/
def timSeq (s : State) : List Byte := contents s.tim s.timLen

/-- `PCM[0..count]` -/
def pcmSeq (s : State) (count : Nat) : List Word := contents s.pcm count

/-- `BITS[0..BITS_LEN]` -/
def bitsSeq (s : State) : List Bool := contents s.bits s.bitsLen

/-- `TXT[0..TXT_LEN]` -/
def txtSeq (s : State) : List Byte := contents s.txt s.txtLen

/-- `PAY[0..PAY_LEN]` -/
def paySeq (s : State) : List Byte := contents s.pay s.payLen

/-! ## Rounding and derived quantities (`00_scope.md` R12, `40_config.md` R145 to R150) -/

/-- `round(num / den)` for a non-negative rational, `den > 0`: the nearest integer, a tie going away from
zero (`00_scope.md` R12). -/
def roundHalfUp (num den : Nat) : Nat := (2 * num + den) / (2 * den)

/-- `K = round(N × F0 / FS)` (R145). -/
def binOf (n f0 fs : Word) : Nat := roundHalfUp (n.toNat * f0.toNat) fs.toNat

/-- `SPU = floor(6 × FS / (5 × WPM))` (R147). -/
def samplesPerUnit (fs wpm : Word) : Nat := 6 * fs.toNat / (5 * wpm.toNat)

/-- `DOT_DASH = 2 × BPU` (R150). -/
def dotDashOf (bpu : Word) : Nat := 2 * bpu.toNat

/-- `WORD_GAP = 5 × BPU` (R150). -/
def wordGapOf (bpu : Word) : Nat := 5 * bpu.toNat

/-- The `BPU` a host should write, `round(6 × FS / (5 × WPM × N))`; undefined for `N` = 0 or `WPM` = 0 (R149). -/
def hostBpu (fs wpm n : Nat) : Option Nat :=
  if n = 0 ∨ wpm = 0 then none else some (roundHalfUp (6 * fs) (5 * wpm * n))

/-! ## CRC-32 and its text (`44_frame.md` R242, R244) -/

/-- One of the eight shifts for a character: right by one, xor 0xEDB88320 if a 1 fell out (R242). -/
def crcShift (c : Word) : Word :=
  if c.getLsbD 0 then (c >>> 1) ^^^ 0xEDB88320 else c >>> 1

/-- One character entering the CRC register, followed by eight shifts (R242). -/
def crcByte (c : Word) (b : Byte) : Word :=
  Nat.repeat crcShift 8 (c ^^^ b.zeroExtend 32)

/-- The default `CRC32_ALG`: IEEE 802.3 / ISO-HDLC (R242). -/
def crc32Ieee (s : List Byte) : Word := (s.foldl crcByte 0xFFFFFFFF) ^^^ 0xFFFFFFFF

/-- `crc32` on this chip (R242). -/
def crc32Of (p : Params) (s : List Byte) : Word :=
  match p.crcAlg with
  | .ieee => crc32Ieee s
  | .other id => Config.crcOther id s

/-- The upper-case hexadecimal digit of a 4-bit value (R244). -/
def hexDigit (d : BitVec 4) : Byte :=
  if d.toNat < 10 then BitVec.ofNat 8 (0x30 + d.toNat) else BitVec.ofNat 8 (0x41 + (d.toNat - 10))

/-- The default `ENCODE_CRC`: the four digits of bits 15:0, most significant first (R244). -/
def hex4 (c : Word) : Quad :=
  ⟨hexDigit (c.extractLsb' 12 4), hexDigit (c.extractLsb' 8 4), hexDigit (c.extractLsb' 4 4),
    hexDigit (c.extractLsb' 0 4)⟩

/-- `ENCODE_CRC` on this chip (R244). -/
def encodeCrc (p : Params) (c : Word) : Quad :=
  match p.crcText with
  | .hex4 => hex4 c
  | .other id => Config.crcTextOther id c

end Sys2Proof.Machine
end

