-- ==== Sys2Proof/Machine/Construct.lean ====
section
/-! DEFINITION. The construction operations `CFGW` and `INIT` (`40_config.md`). -/

namespace Sys2Proof.Machine

/-! ## CFGW (R141) -/

/-- The register write the selector names (R102, R141); no other selector writes one. -/
def writeConfig (sel : BitVec 8) (imm : Word) (s : State) : State :=
  match sel.toNat with
  | 0 => { s with fs := imm }
  | 1 => { s with f0 := imm }
  | 2 => { s with wpm := imm }
  | 3 => { s with n := imm }
  | 4 => { s with theta := s.params.ops.val32 imm }
  | 5 => { s with bpu := imm }
  | _ => s

/-- `READY <- 0` (R141). -/
def clearReady (s : State) : State := { s with ready := false }

/-- `CFGW sel, imm` (R141). -/
def execCfgw (sel : BitVec 8) (imm : Word) (s : State) : Result :=
  refuseIf (decide (5 < sel.toNat)) .reservedSelector <|
  refuseIf (decide (sel.toNat = 4) && !isFinite32 imm) .nonFiniteThreshold <|
  .next (clearReady (writeConfig sel imm s))

/-! ## INIT (R143) -/

/-- The pairs (pattern, character) of the supported characters that have a pattern, in the order of R143. -/
def reverseEntries (p : Params) : List (Pattern × Byte) :=
  supportedChars.filterMap fun c => (p.pattern c).map fun pat => (pat, c)

/-- `MORSE_FWD` is injective on the supported characters it defines (R143, R151). -/
def injectiveTable (p : Params) : Bool := decide ((reverseEntries p).map Prod.fst).Nodup

/-- `RTAB[pat] <- c` (R143). -/
def setEntry (t : List (Pattern × Byte)) (e : Pattern × Byte) : List (Pattern × Byte) :=
  t.filter (fun x => decide (x.1 ≠ e.1)) ++ [e]

/-- `RTAB` as `INIT` builds it (R143, R151). -/
def buildRtab (p : Params) : List (Pattern × Byte) := (reverseEntries p).foldl setEntry []

/-- The value of `K` that `INIT` writes (R143, R153 (a)). -/
def initK (s : State) : Nat := if s.n = 0 then 0 else binOf s.n s.f0 s.fs

/-- The value of `C` that `INIT` writes (R146); unspecified for `N` = 0 (R153 (a); log entry 7). -/
def initC (s : State) : RNum :=
  if s.n = 0 then Config.freeNum s.free else s.params.ops.twoCos (initK s) s.n.toNat

/-- Every integer that `INIT` derives fits in `IDX_W` bits (R12, R150, R311; log entry 9). -/
def derivedFits (s : State) : Bool :=
  decide (initK s < 2 ^ s.params.idxW) && decide (samplesPerUnit s.fs s.wpm < 2 ^ s.params.idxW) &&
    decide (wordGapOf s.bpu < 2 ^ s.params.idxW)

/-- The derived registers and `RTAB` computed from the configuration, `READY <- 1` (R143). -/
def constructed (s : State) : State :=
  { s with
    omega := s.params.ops.omega s.f0.toNat s.fs.toNat
    spu := samplesPerUnit s.fs s.wpm
    dotDash := dotDashOf s.bpu
    wordGap := wordGapOf s.bpu
    k := initK s
    c := initC s
    rtab := buildRtab s.params
    ready := true
    free := if s.n = 0 then s.free + 1 else s.free }

/-- `INIT` (R143). -/
def execInit (s : State) : Result :=
  refuseIf (decide (s.fs = 0)) .zeroSampleRate <|
  refuseIf (decide (s.wpm = 0)) .zeroWpm <|
  refuseIf (!injectiveTable s.params) .ambiguousTable <|
  refuseIf (!derivedFits s) .capacity <|
  .next (constructed s)

end Sys2Proof.Machine
end

