-- ==== Sys2Proof/Machine/Demod.lean ====
section
/-! DEFINITION. The Morse run-length demodulator: `DEMOD` (`43_demod.md`). -/

namespace Sys2Proof.Machine

/-- Put one more bit in front of a list of runs. -/
def consBit (b : Bool) : List Run → List Run
  | [] => [⟨b, 1⟩]
  | r :: rs => if r.on = b then ⟨b, r.length + 1⟩ :: rs else ⟨b, 1⟩ :: r :: rs

/-- `rle(bits)`: the maximal constant runs, in order (R211). -/
def rle (bits : List Bool) : List Run := bits.foldr consBit []

/-- What `DEMOD` carries from run to run: `PAT` and the text so far. -/
structure Reading where
  pat : Pattern
  text : List Byte
  deriving DecidableEq, Repr

/-- The character a pattern decodes to: its entry in `RTAB`, or `?` (R216, R219). -/
def lookupPattern (rtab : List (Pattern × Byte)) (pat : Pattern) : Byte :=
  (rtab.lookup pat).getD 0x3F

/-- `flush()`: the pattern in progress becomes a character; nothing for an empty pattern (R216). -/
def flush (rtab : List (Pattern × Byte)) (r : Reading) : Reading :=
  if r.pat = [] then r else ⟨[], r.text ++ [lookupPattern rtab r.pat]⟩

/-- The word space, only after some text (R217). -/
def wordSpace (r : Reading) : Reading :=
  if r.text = [] then r else { r with text := r.text ++ [0x20] }

/-- One run classified by its length (R214, R215). -/
def classify (dotDash wordGap : Nat) (rtab : List (Pattern × Byte)) (r : Reading) (run : Run) : Reading :=
  if run.on then { r with pat := r.pat ++ [if run.length < dotDash then .dot else .dash] }
  else if run.length < dotDash then r
  else if run.length < wordGap then flush rtab r
  else wordSpace (flush rtab r)

/-- The text a list of runs demodulates to, with the flush at the end of input (R213, R218). -/
def demodText (dotDash wordGap : Nat) (rtab : List (Pattern × Byte)) (runs : List Run) : List Byte :=
  (flush rtab (runs.foldl (classify dotDash wordGap rtab) ⟨[], []⟩)).text

/-- The runs of the tone-bit sequence in `BITS`. -/
def runsOf (s : State) : List Run := rle (bitsSeq s)

/-- The text of the tone-bit sequence in `BITS`. -/
def textOf (s : State) : List Byte := demodText s.dotDash s.wordGap s.rtab (runsOf s)

/-- The state after demodulation: `RUNS`, `PAT` empty, `TXT`, and the two lengths (R213). -/
def demodulated (s : State) : State :=
  { s with
    runs := store s.runs (runsOf s)
    runsLen := (runsOf s).length
    pat := []
    txt := store s.txt (textOf s)
    txtLen := (textOf s).length }

/-- `DEMOD` from after its `READY` test (R213). The text only grows, so an `append` finds `TXT_LEN` =
`TXT_MAX` exactly when the whole text is longer than `TXT_MAX`. -/
def demodBody (s : State) : Result :=
  refuseIf (decide (s.params.bitsMax < s.bitsLen)) .capacity <|
  refuseIf (decide (s.params.txtMax < (textOf s).length)) .capacity <|
  .next (demodulated s)

/-- `DEMOD` (R213). -/
def execDemod (s : State) : Result := whenReady s (demodBody s)

end Sys2Proof.Machine
end

