-- ==== Sys2Proof/Machine/Frame.lean ====
section
/-! DEFINITION. The CRC-32 framer: `CRC32`, `ENCCRC`, `FRAME`, `DEFRAME` (`44_frame.md`). -/

namespace Sys2Proof.Machine

/-- `"KKK "` (R250). -/
def preamble : List Byte := [0x4B, 0x4B, 0x4B, 0x20]

/-- `" AR"` (R250). -/
def prosign : List Byte := [0x20, 0x41, 0x52]

/-! ## CRC32, ENCCRC -/

/-- `CRC32` (R241). -/
def execCrc32 (s : State) : Result :=
  whenReady s <|
  refuseIf (decide (s.params.payMax < s.payLen)) .capacity <|
  .next { s with crc := crc32Of s.params (paySeq s) }

/-- `ENCCRC` (R243). -/
def execEnccrc (s : State) : Result :=
  whenReady s <| .next { s with crc4 := encodeCrc s.params s.crc }

/-! ## FRAME -/

/-- The CRC text of a payload. -/
def payloadCrc4 (p : Params) (payload : List Byte) : Quad := encodeCrc p (crc32Of p payload)

/-- `"KKK " ++ payload ++ crc4 ++ " AR"` (R125, R250). -/
def frameText (p : Params) (payload : List Byte) : List Byte :=
  preamble ++ payload ++ (payloadCrc4 p payload).toList ++ prosign

/-- The state after framing: `CRC`, `CRC4`, `TXT`, `TXT_LEN` (R250). -/
def framed (s : State) : State :=
  { s with
    crc := crc32Of s.params (paySeq s)
    crc4 := payloadCrc4 s.params (paySeq s)
    txt := store s.txt (frameText s.params (paySeq s))
    txtLen := s.payLen + 11 }

/-- `FRAME` (R250). -/
def execFrame (s : State) : Result :=
  whenReady s <|
  refuseIf (decide (s.params.payMax < s.payLen)) .capacity <|
  refuseIf (decide (s.params.txtMax < s.payLen + 11)) .capacity <|
  .next (framed s)

/-! ## DEFRAME -/

/-- Four characters out of a list. -/
def quadOf (xs : List Byte) : Quad := ⟨xs.getD 0 0, xs.getD 1 0, xs.getD 2 0, xs.getD 3 0⟩

/-- `body`: the text between preamble and prosign (R255 check 4). -/
def bodyOf (text : List Byte) : List Byte := (text.take (text.length - 3)).drop 4

/-- `payload`: the body without its last four characters (R255 check 5). -/
def payloadOf (text : List Byte) : List Byte := (bodyOf text).take ((bodyOf text).length - 4)

/-- `received_crc`: the last four characters of the body (R255 check 5). -/
def receivedCrc (text : List Byte) : Quad := quadOf ((bodyOf text).drop ((bodyOf text).length - 4))

/-- `VALID <- 0 ; PAY_LEN <- 0 ; ERR <- 0` (R255); the elements of `PAY` are open (R72, R259). -/
def beginDeframe (s : State) : State :=
  { s with valid := false, payLen := 0, err := .none, pay := forget 0 s.pay }

/-- What check 6 leaves, whether it passes or fails: `GOT4`, `CRC`, `CRC4` and the payload (R255 checks 5 to 7). -/
def splitFrame (text : List Byte) (s : State) : State :=
  { s with
    got4 := receivedCrc text
    crc := crc32Of s.params (payloadOf text)
    crc4 := payloadCrc4 s.params (payloadOf text)
    pay := store s.pay (payloadOf text)
    payLen := (payloadOf text).length }

/-- The checks of R255 in order 1, 2, 3, 4, 6; `s` is the state `beginDeframe` left. -/
def deframeChecks (text : List Byte) (s : State) : Result :=
  if text.length < 11 then raise .frameShort s
  else if text.take 4 ≠ preamble then raise .noPreamble s
  else if text.drop (text.length - 3) ≠ prosign then raise .noProsign s
  else if (bodyOf text).length < 4 then raise .bodyShort s
  else if payloadCrc4 s.params (payloadOf text) ≠ receivedCrc text then
    raise .crcMismatch (splitFrame text s)
  else .next { splitFrame text s with valid := true }

/-- `DEFRAME` from after its `READY` test (R255). -/
def deframeBody (s : State) : Result :=
  refuseIf (decide (s.params.txtMax < s.txtLen)) .capacity <|
  refuseIf (decide (s.params.payMax + 11 < s.txtLen)) .capacity <|
  deframeChecks (txtSeq s) (beginDeframe s)

/-- `DEFRAME` (R255). -/
def execDeframe (s : State) : Result := whenReady s (deframeBody s)

end Sys2Proof.Machine
end

