-- ==== Sys2Proof/Machine/Flags.lean ====
section
/-! DEFINITION. The flags: the hysteresis state `ST` (`42_goertzel.md` R190), the codes of `STAGE` and `ERR`,
the register `STATUS` (`30_encoding.md` R130 to R132) and the error strings (`60_exceptions.md` R302). -/

namespace Sys2Proof.Machine

/-- The hysteresis transition for one block of power `m` (R190): ON to OFF when `m < THOFF`, OFF to ON when
`m ≥ THON`, otherwise unchanged. -/
def hysteresis (thon thoff : RNum) (st : Bool) (m : RNum) : Bool :=
  if st && RNum.lt m thoff then false
  else if !st && RNum.le thon m then true
  else st

/-- The states after each block, in block order (R191): the output bits of the scan. -/
def scanBits (thon thoff : RNum) : Bool → List RNum → List Bool
  | _, [] => []
  | st, m :: ms => hysteresis thon thoff st m :: scanBits thon thoff (hysteresis thon thoff st m) ms

/-- `STAGE` codes (R131). -/
def Stage.code : Stage → Nat
  | .none => 0
  | .goertzel => 1
  | .morseDecode => 2
  | .deframe => 3
  | .base43Decode => 4
  | .validate => 5
  | .complete => 6

/-- `ERR` codes (R132, R301). -/
def Err.code : Err → Nat
  | .none => 0
  | .noBlocks => 1
  | .noText => 2
  | .frameShort => 3
  | .noPreamble => 4
  | .noProsign => 5
  | .bodyShort => 6
  | .crcMismatch => 7
  | .base43 => 8
  | .validate => 9

/-- One flag as a bit. -/
def flagBit (b : Bool) : BitVec 1 := if b then 1 else 0

/-- `STATUS` (R130): bits 0 `READY`, 1 `BUSY`, 2 `VALID`, 3 `ST`, 6:4 `STAGE`, 7 zero, 11:8 `ERR`, 31:12 zero. -/
def status (s : State) : Word :=
  (0 : BitVec 20) ++ BitVec.ofNat 4 s.err.code ++ (0 : BitVec 1) ++ BitVec.ofNat 3 s.stage.code ++
    flagBit s.st ++ flagBit s.valid ++ flagBit s.busy ++ flagBit s.ready

/-- The characters of a CRC text. -/
def quadString (q : Quad) : String := String.ofList (q.toList.map fun b => Char.ofNat b.toNat)

/-- `specific(ERR)` (R302). -/
def specificError (crc4 got4 : Quad) : Err → String
  | .none => ""
  | .noBlocks => "Goertzel: no blocks to analyze"
  | .noText => "Morse decode: no text recovered"
  | .frameShort => "frame too short"
  | .noPreamble => "missing KKK preamble"
  | .noProsign => "missing AR prosign"
  | .bodyShort => "body too short for CRC"
  | .crcMismatch => "CRC mismatch: expected " ++ quadString crc4 ++ ", got " ++ quadString got4
  | .base43 => "Base43 decode: invalid encoding"
  | .validate => "Transaction validation failed"

/-- `error_string(op, ERR, CRC4, GOT4)` (R302); `inDecode` says whether the operation was `DECODE`. The
strings of the host's codes 8 and 9 are those of R301. -/
def errorString (inDecode : Bool) (s : State) : String :=
  (if inDecode && decide (3 ≤ s.err.code) && decide (s.err.code ≤ 7) then "Deframe: " else "") ++
    specificError s.crc4 s.got4 s.err

/-- The block's part of the source's `success` (`60_exceptions.md` R310): `STAGE` = 3, `ERR` = 0, `VALID` = 1. -/
def blockSuccess (s : State) : Bool :=
  decide (s.stage = .deframe) && decide (s.err = .none) && s.valid

end Sys2Proof.Machine
end

