-- ==== Sys2Proof/Machine/Goertzel.lean ====
section
/-! DEFINITION. The Goertzel detector: `GZMAG` and `DETECT` (`42_goertzel.md`). -/

namespace Sys2Proof.Machine

/-! ## Power of one block -/

/-- One iteration of the recurrence on (`S1`, `S2`): `s0 = x + C × s1 − s2`, `s2 ← s1`, `s1 ← s0` (R182). -/
def goertzelStep (ops : NumOps) (c : RNum) (s : RNum × RNum) (x : RNum) : RNum × RNum :=
  (ops.sub (ops.add x (ops.mul c s.1)) s.2, s.1)

/-- (`S1`, `S2`) after a block of binary32 samples, starting from 0, 0 (R181, R182). -/
def goertzelRun (ops : NumOps) (c : RNum) (block : List Word) : RNum × RNum :=
  (block.map ops.val32).foldl (goertzelStep ops c) (RNum.zero, RNum.zero)

/-- `S1 × S1 + S2 × S2 − C × S1 × S2` (R183). -/
def powerOf (ops : NumOps) (c : RNum) (s : RNum × RNum) : RNum :=
  ops.sub (ops.add (ops.mul s.1 s.1) (ops.mul s.2 s.2)) (ops.mul (ops.mul c s.1) s.2)

/-- The power of a block (R183). -/
def blockPower (ops : NumOps) (c : RNum) (block : List Word) : RNum :=
  powerOf ops c (goertzelRun ops c block)

/-- The first `nb` blocks of `n` samples, in order, without overlap or gap (R181). -/
def blocksOf (n : Nat) : Nat → List Word → List (List Word)
  | 0, _ => []
  | nb + 1, xs => xs.take n :: blocksOf n nb (xs.drop n)

/-! ## GZMAG (R184) -/

/-- The samples of block `b`. -/
def blockAt (s : State) (b : Nat) : List Word := readSpan s.n.toNat (b * s.n.toNat) s.pcm

/-- The state after `GZMAG b`: `S1`, `S2`, `MAG` and `GB` written. -/
def measured (b : Nat) (s : State) : State :=
  let r := goertzelRun s.params.ops s.c (blockAt s b)
  { s with
    gb := b
    gi := freeIndexOf s 0
    s1 := r.1
    s2 := r.2
    mag := powerOf s.params.ops s.c r
    free := s.free + 1 }

/-- `GZMAG b` (R184). -/
def execGzmag (b : Word) (s : State) : Result :=
  whenReady s <|
  refuseIf (decide (s.params.pcmMax < s.pcmLen)) .capacity <|
  refuseIf (decide (s.n = 0)) .zeroBlockSize <|
  refuseIf (decide (s.pcmLen < (b.toNat + 1) * s.n.toNat)) .blockOutOfRange <|
  refuseIf (!(blockAt s b.toNat).all isFinite32) .nonFiniteSample <|
  .next (measured b.toNat s)

/-! ## Thresholds -/

/-- Insert into a list in non-decreasing order. -/
def insertNum (x : RNum) : List RNum → List RNum
  | [] => [x]
  | y :: ys => if RNum.le x y then x :: y :: ys else y :: insertNum x ys

/-- The values in non-decreasing order (R189). -/
def sortNums (xs : List RNum) : List RNum := xs.foldr insertNum []

/-- Element `i` of a list of numbers. -/
def numAt (xs : List RNum) (i : Nat) : RNum := xs.getD i RNum.zero

/-- The median under the chip's `MEDIAN_RULE` (R189). The spec gives `Num` no division: `/ 2` of the rule `mean` is the
product with the constant 1/2 of the field, the model's choice (log entry 21). -/
def medianOf (p : Params) (mags : List RNum) : RNum :=
  let m := sortNums mags
  let upper := numAt m (m.length / 2)
  let lower := numAt m ((m.length - 1) / 2)
  match p.medianRule with
  | .upper => upper
  | .lower => lower
  | .mean => p.ops.mul (p.ops.ofRat (1 / 2)) (p.ops.add lower upper)

/-- `THETA ≤ 0` selects the auto-threshold (R187, R196 (g)). -/
def isAuto (theta : RNum) : Bool := RNum.le theta RNum.zero

/-- `THON`: `THETA` itself, or 3 × median (R186, R187). -/
def thresholdOn (p : Params) (theta : RNum) (mags : List RNum) : RNum :=
  if isAuto theta then p.ops.mul (p.ops.ofRat 3) (medianOf p mags) else theta

/-- `THOFF` = 0.7 × `THON` (R188). -/
def thresholdOff (p : Params) (thon : RNum) : RNum := p.ops.mul (p.ops.ofRat (7 / 10)) thon

/-- The contested band: auto-threshold with median exactly 0 (R195). -/
def inContestedBand (p : Params) (theta : RNum) (mags : List RNum) : Bool :=
  isAuto theta && RNum.sign (medianOf p mags) == .eq

/-! ## DETECT (R185) -/

/-- Number of whole blocks in the buffer, for `N > 0` (R185 step 2). -/
def blockCount (s : State) : Nat := s.pcmLen / s.n.toNat

/-- The early return: only `BITS_LEN` is written (R185 steps 1 and 2), so `BITS` is empty (R72) and `MAGS` stays. -/
def noBlocksFound (s : State) : State := { s with bitsLen := 0, bits := forget 0 s.bits }

/-- `PCM[0 .. nb × N]`, what `DETECT` reads. -/
def detectInput (s : State) : List Word := pcmSeq s (blockCount s * s.n.toNat)

/-- The powers of all blocks (R185 step 3). -/
def blockPowers (s : State) : List RNum :=
  (blocksOf s.n.toNat (blockCount s) (detectInput s)).map (blockPower s.params.ops s.c)

/-- (`S1`, `S2`) as the last block leaves them. -/
def lastRecurrence (s : State) : RNum × RNum :=
  goertzelRun s.params.ops s.c ((blocksOf s.n.toNat (blockCount s) (detectInput s)).getLastD [])

/-- The state after steps 3 to 7: powers, thresholds, scan, bits (R185). -/
def detected (s : State) (mags : List RNum) : State :=
  let thon := thresholdOn s.params s.theta mags
  let thoff := thresholdOff s.params thon
  let bits := scanBits thon thoff false mags
  { s with
    s1 := (lastRecurrence s).1
    s2 := (lastRecurrence s).2
    gb := freeIndexOf s 0
    gi := freeIndexOf s 1
    mags := store s.mags mags
    thon := thon
    thoff := thoff
    st := bits.getLastD false
    bits := store s.bits bits
    bitsLen := blockCount s
    free := s.free + 2 }

/-- `DETECT` from after its `READY` test (R185). -/
def detectBody (s : State) : Result :=
  refuseIf (decide (s.params.pcmMax < s.pcmLen)) .capacity <|
  if s.pcmLen = 0 ∨ s.n = 0 then .next (noBlocksFound s)
  else if blockCount s = 0 then .next (noBlocksFound s)
  else
    refuseIf (decide (s.params.bitsMax < blockCount s)) .capacity <|
    refuseIf (!(detectInput s).all isFinite32) .nonFiniteSample <|
    refuseIf (decide (s.params.autoZero = .refuse) && inContestedBand s.params s.theta (blockPowers s))
      .contested <|
    .next (detected s (blockPowers s))

/-- `DETECT` (R185). -/
def execDetect (s : State) : Result := whenReady s (detectBody s)

end Sys2Proof.Machine
end

