-- ==== Sys2Proof/Machine/Decoder.lean ====
section
/-! DEFINITION. The staged decoder: `DECODE` (`45_decode.md`). -/

namespace Sys2Proof.Machine

/-- The fresh result: the artifact lengths, `VALID` and `ERR` cleared (R288), and with the lengths the elements of their
spaces open (R72); `MAGS` is not cleared. -/
def freshResult (s : State) : State :=
  { s with
    bitsLen := 0, runsLen := 0, txtLen := 0, payLen := 0, valid := false, err := .none
    bits := forget 0 s.bits, runs := forget 0 s.runs, txt := forget 0 s.txt, pay := forget 0 s.pay }

/-- `STAGE <- stage` (R281). -/
def setStage (stage : Stage) (s : State) : State := { s with stage := stage }

/-- Stage Deframe (R281, R284). -/
def stageDeframe (s : State) : Result := deframeBody (setStage .deframe s)

/-- Stage MorseDecode, and the stage after it if text was recovered (R281, R283). -/
def stageMorse (s : State) : Result :=
  andThen (demodBody (setStage .morseDecode s)) fun t =>
    if t.txtLen = 0 then raise .noText t else stageDeframe t

/-- Stage Goertzel, and the stages after it if there were blocks (R281, R282). -/
def stageGoertzel (s : State) : Result :=
  andThen (detectBody (setStage .goertzel s)) fun t =>
    if t.bitsLen = 0 then raise .noBlocks t else stageMorse t

/-- `DECODE` (R281). -/
def execDecode (s : State) : Result := whenReady s (stageGoertzel (freshResult s))

end Sys2Proof.Machine
end

