-- ==== Sys2Proof/Machine/Render.lean ====
section
/-! DEFINITION. The tone generator and the renderer: `RENDER` (`41_render.md`). -/

namespace Sys2Proof.Machine

/-- `tone(n) = rnd32(0.8 × sin(OMEGA × n))` (R161). -/
def tone (ops : NumOps) (omega : Angle) (n : Nat) : Word :=
  RNum.rnd32 (ops.mul (ops.ofRat (4 / 5)) (ops.sin (ops.times omega n)))

/-- A timing element means tone exactly when it is positive (R165). -/
def isTone (t : Byte) : Bool := decide (0 < t.toInt)

/-- One output sample: the tone sample of index `n`, or +0.0 (R163). -/
def sample (ops : NumOps) (omega : Angle) (t : Byte) (n : Nat) : Word :=
  if isTone t then tone ops omega n else 0

/-- The `count` samples of one timing unit, the first of index `n` (R163, inner loop). -/
def renderUnit (ops : NumOps) (omega : Angle) (t : Byte) : Nat → Nat → List Word
  | 0, _ => []
  | count + 1, n => sample ops omega t n :: renderUnit ops omega t count (n + 1)

/-- The samples of a timing array, the first of index `n`; the index runs on across units (R162, R163). -/
def renderSeq (ops : NumOps) (omega : Angle) (spu : Nat) : List Byte → Nat → List Word
  | [], _ => []
  | t :: ts, n => renderUnit ops omega t spu n ++ renderSeq ops omega spu ts (n + spu)

/-- The state after rendering: `PCM`, `PCM_LEN`, and `NIDX` = `PCM_LEN` (R163, R34). -/
def rendered (s : State) : State :=
  { s with
    nidx := s.timLen * s.spu
    ru := freeIndexOf s 0
    rj := freeIndexOf s 1
    pcm := store s.pcm (renderSeq s.params.ops s.omega s.spu (timSeq s) 0)
    pcmLen := s.timLen * s.spu
    free := s.free + 2 }

/-- `RENDER` (R163). -/
def execRender (s : State) : Result :=
  whenReady s <|
  refuseIf (decide (s.params.timMax < s.timLen)) .capacity <|
  refuseIf (decide (s.params.pcmMax < s.timLen * s.spu)) .capacity <|
  .next (rendered s)

end Sys2Proof.Machine
end

