-- ==== Sys2Proof/Machine/Dispatch.lean ====
section
/-! DEFINITION. The meaning of every operation, one arm for each row of the opcode map (`30_encoding.md` R104). -/

namespace Sys2Proof.Machine

def exec (i : Instr) (s : State) : Host.Outcome State Fault Refusal :=
  match i with
  | .cfgw sel imm => Sys2Proof.Machine.execCfgw sel imm s
  | .init => Sys2Proof.Machine.execInit s
  | .render => Sys2Proof.Machine.execRender s
  | .gzmag b => Sys2Proof.Machine.execGzmag b s
  | .detect => Sys2Proof.Machine.execDetect s
  | .demod => Sys2Proof.Machine.execDemod s
  | .crc32 => Sys2Proof.Machine.execCrc32 s
  | .enccrc => Sys2Proof.Machine.execEnccrc s
  | .frame => Sys2Proof.Machine.execFrame s
  | .deframe => Sys2Proof.Machine.execDeframe s
  | .decode => Sys2Proof.Machine.execDecode s

end Sys2Proof.Machine
end

