-- ==== Sys2Proof/Machine/HostPort.lean ====
section
/-! DEFINITION. The host's side of the block: accepting a command word, loading a buffer space, reading, and
reset (`00_scope.md` R7, `20_memory.md` R71, `60_exceptions.md` R317, `70_reset_and_hazards.md` R340). -/

namespace Sys2Proof.Machine

/-- A command word is decoded and its operation runs to completion; a reserved word is refused (R6, R105). -/
def runCommand (w : CmdWord) (s : State) : Result :=
  match decode w with
  | some i => exec i s
  | none => .refused .reserved

/-- The length register of a space written by the host (R71); the elements at or beyond the length are open from then on
(R72), for `BITS_LEN` those of `MAGS` too (R70). -/
def writeLength (space : HostSpace) (len : Nat) (s : State) : State :=
  match space with
  | .tim => { s with timLen := len, tim := forget len s.tim }
  | .pcm => { s with pcmLen := len, pcm := forget len s.pcm }
  | .bits => { s with bitsLen := len, bits := forget len s.bits, mags := forget len s.mags }
  | .txt => { s with txtLen := len, txt := forget len s.txt }
  | .pay => { s with payLen := len, pay := forget len s.pay }

/-- A number of seed sets beyond every seed in use: reset makes every element open anew (`70_reset_and_hazards.md` R341). -/
def nextRound (s : State) : Nat :=
  s.tim.seed + s.pcm.seed + s.mags.seed + s.bits.seed + s.runs.seed + s.txt.seed + s.pay.seed + 1

/-- One host move on an idle block. An element at or beyond the capacity and a length that does not fit in
`IDX_W` bits do not exist (R70, R73; log entry 11); a read changes nothing (R77); reset is R340. -/
def hostMove (m : HostMove) (s : State) : Result :=
  match m with
  | .command w => runCommand w s
  | .writeTim i v =>
    refuseIf (decide (s.params.timMax ≤ i)) .hostOutOfRange (.next { s with tim := writeCell i v s.tim })
  | .writePcm i v =>
    refuseIf (decide (s.params.pcmMax ≤ i)) .hostOutOfRange (.next { s with pcm := writeCell i v s.pcm })
  | .writeBits i v =>
    refuseIf (decide (s.params.bitsMax ≤ i)) .hostOutOfRange (.next { s with bits := writeCell i v s.bits })
  | .writeTxt i v =>
    refuseIf (decide (s.params.txtMax ≤ i)) .hostOutOfRange (.next { s with txt := writeCell i v s.txt })
  | .writePay i v =>
    refuseIf (decide (s.params.payMax ≤ i)) .hostOutOfRange (.next { s with pay := writeCell i v s.pay })
  | .writeLen space len =>
    refuseIf (decide (2 ^ s.params.idxW ≤ len)) .hostOutOfRange (.next (writeLength space len s))
  | .read _ => .next s
  | .reset => .next (State.resetOn s.params s.free (nextRound s) s.host)

/-- May the move happen now: anything while the block is idle, only reset while an operation runs (R7, R312;
`93_implementation_defined.md` U12). -/
def moveAllowed (m : HostMove) (s : State) : Bool := !s.busy || decide (m = .reset)

/-- The next move of the host; with none to come the block stays as it is (R342: it executes nothing until
the host issues a command). -/
def hostStep (s : State) : Result :=
  match s.host with
  | [] => .next s
  | m :: rest =>
    refuseIf (!moveAllowed m s) .hostWhileBusy (hostMove m { s with host := rest })

/-- The command word of the given number becomes the host's next move, on an idle block. -/
def issue (w : CmdWord) (s : State) : State := { s with busy := false, host := .command w :: s.host }

/-! ## The diagnostic read path (`60_exceptions.md` R317) -/

/-- What a read answers. -/
inductive ReadValue where
  | word (w : Word)
  | nat (n : Nat)
  | num (x : RNum)
  | angle (a : Angle)
  | table (t : List (Pattern × Byte))
  | pattern (p : Pattern)
  | quad (q : Quad)
  | byte (b : Byte)
  | bit (b : Bool)
  | run (r : Run)
  deriving DecidableEq, Repr

/-- The value of a register or of an element (`10_state.md` R23; `20_memory.md` R71, R77). -/
def readValue (s : State) : ReadTarget → ReadValue
  | .fs => .word s.fs
  | .f0 => .word s.f0
  | .wpm => .word s.wpm
  | .n => .word s.n
  | .theta => .num s.theta
  | .bpu => .word s.bpu
  | .k => .nat s.k
  | .c => .num s.c
  | .omega => .angle s.omega
  | .spu => .nat s.spu
  | .dotDash => .nat s.dotDash
  | .wordGap => .nat s.wordGap
  | .rtab => .table s.rtab
  | .s1 => .num s.s1
  | .s2 => .num s.s2
  | .mag => .num s.mag
  | .thon => .num s.thon
  | .thoff => .num s.thoff
  | .st => .bit s.st
  | .gb => .nat s.gb
  | .gi => .nat s.gi
  | .pat => .pattern s.pat
  | .nidx => .nat s.nidx
  | .ru => .nat s.ru
  | .rj => .nat s.rj
  | .crc => .word s.crc
  | .crc4 => .quad s.crc4
  | .got4 => .quad s.got4
  | .timLen => .nat s.timLen
  | .pcmLen => .nat s.pcmLen
  | .bitsLen => .nat s.bitsLen
  | .runsLen => .nat s.runsLen
  | .txtLen => .nat s.txtLen
  | .payLen => .nat s.payLen
  | .status => .word (status s)
  | .timAt i => .byte (readCell i s.tim)
  | .pcmAt i => .word (readCell i s.pcm)
  | .magsAt i => .num (readCell i s.mags)
  | .bitsAt i => .bit (readCell i s.bits)
  | .runsAt i => .run (readCell i s.runs)
  | .txtAt i => .byte (readCell i s.txt)
  | .payAt i => .byte (readCell i s.pay)

end Sys2Proof.Machine
end

