-- ==== Sys2Proof/Machine/Step.lean ====
section
/-! DEFINITION. One step of the machine: the host's next move, taken whole (`00_scope.md` R6). -/

namespace Sys2Proof.Machine

/-- One step: the next move of the host, an operation running from its command to its completion. -/
def step (s : State) : Host.Outcome State Fault Refusal := hostStep s

/-- `s` with the command word `w` (numbered as the opcode table numbers it; bits from `nbits` up are 0) as the
host's next move. -/
def State.withFetchWord (s : State) (nbits w : Nat) : State :=
  issue (BitVec.ofNat 64 (w % 2 ^ nbits)) s

end Sys2Proof.Machine
end

