-- ==== Sys2Proof/Safety.lean ====
section
/-! DEFINITION. The terms claims use: the real number a `Num` register holds, the canonical form of memory, the
relation of the derived registers to the configuration, the invariant of the machine, and safe runs. -/

namespace Sys2Proof

/-- The real number that is held (`00_scope.md` R15). -/
noncomputable def RNum.value (a : RNum) : ℝ :=
  (a.terms.map fun t => (t.coef : ℝ) * Real.cos (2 * Real.pi * (t.turn : ℝ))).sum

/-- The angle in radians (`40_config.md` R148). -/
noncomputable def Angle.value : Angle → ℝ
  | .turns num den => 2 * Real.pi * (num : ℝ) / (den : ℝ)
  | .held x => x.value

namespace Machine

/-- Every buffer space is in its canonical form. -/
def memWf (s : State) : Bool :=
  spaceWf s.tim && spaceWf s.pcm && spaceWf s.mags && spaceWf s.bits && spaceWf s.runs && spaceWf s.txt &&
    spaceWf s.pay

/-- The derived registers and `RTAB` are those of the current configuration (`10_state.md` R44,
`70_reset_and_hazards.md` R344); `C` is open for `N` = 0 (`40_config.md` R153 (a)). -/
structure Constructed (s : State) : Prop where
  rate : s.fs ≠ 0
  speed : s.wpm ≠ 0
  table : injectiveTable s.params = true
  omega : s.omega = s.params.ops.omega s.f0.toNat s.fs.toNat
  spu : s.spu = samplesPerUnit s.fs s.wpm
  dotDash : s.dotDash = dotDashOf s.bpu
  wordGap : s.wordGap = wordGapOf s.bpu
  k : s.k = initK s
  c : s.n ≠ 0 → s.c = s.params.ops.twoCos (initK s) s.n.toNat
  rtab : s.rtab = buildRtab s.params

/-- What the spec asks of every `ENCODE_CRC` (`44_frame.md` R245 (c), `30_encoding.md` R126): each character of a CRC text is
one of the 42 supported ones, so not a space, and has a pattern. (R245 (a) and (b) hold by the type of `encodeCrc`.) -/
def CrcTextKeyable (p : Params) : Prop :=
  ∀ c : Word, ∀ x ∈ (encodeCrc p c).toList, x ∈ supportedChars ∧ (p.pattern x).isSome = true

/-- `t` is `s` but for the free values of the open elements. -/
def SameButOpen (s t : State) : Prop :=
  t = { s with
        tim := ⟨s.tim.cells, t.tim.seed⟩, pcm := ⟨s.pcm.cells, t.pcm.seed⟩, mags := ⟨s.mags.cells, t.mags.seed⟩
        bits := ⟨s.bits.cells, t.bits.seed⟩, runs := ⟨s.runs.cells, t.runs.seed⟩, txt := ⟨s.txt.cells, t.txt.seed⟩
        pay := ⟨s.pay.cells, t.pay.seed⟩ }

/-- The numbers that `IDX_W`-bit registers hold (`10_state.md` header, R24, R38). -/
def indexRegisters (s : State) : List Nat :=
  [s.k, s.gb, s.gi, s.nidx, s.ru, s.rj, s.timLen, s.pcmLen, s.bitsLen, s.runsLen, s.txtLen, s.payLen]

/-- The stages the block writes (`30_encoding.md` R131). -/
def blockStages : List Stage := [.none, .goertzel, .morseDecode, .deframe]

/-- The error codes the block writes: neither the host's 8 and 9 nor the unreachable 6 (`30_encoding.md` R132,
`44_frame.md` R257). -/
def blockErrors : List Err :=
  [.none, .noBlocks, .noText, .frameShort, .noPreamble, .noProsign, .crcMismatch]

/-- The invariant of the machine between operations. -/
structure Inv (s : State) : Prop where
  memory : memWf s = true
  chip : s.params.wf = true
  crcText : CrcTextKeyable s.params
  idle : s.busy = false
  pattern : s.pat = []
  indices : ∀ v ∈ indexRegisters s, v < 2 ^ s.params.idxW
  stage : s.stage ∈ blockStages
  err : s.err ∈ blockErrors
  valid : s.valid = true → s.err = .none
  ready : s.ready = true → Constructed s

/-! ## What the host keys on the air (`30_encoding.md` R115, `43_demod.md` R224) -/

/-- The tone units of one element: 1 for a dot, 3 for a dash. -/
def elementUnits : Sym → List Bool
  | .dot => List.replicate 1 true
  | .dash => List.replicate 3 true

/-- The units of one character: its elements with one unit of silence between them. -/
def patternUnits : Pattern → List Bool
  | [] => []
  | [x] => elementUnits x
  | x :: y :: ys => elementUnits x ++ List.replicate 1 false ++ patternUnits (y :: ys)

/-- The units of one word: its characters with three units of silence between them. -/
def wordUnits (fwd : Byte → Option Pattern) : List Byte → List Bool
  | [] => []
  | [c] => patternUnits ((fwd c).getD [])
  | c :: d :: cs => patternUnits ((fwd c).getD []) ++ List.replicate 3 false ++ wordUnits fwd (d :: cs)

/-- The units of a message: its words with seven units of silence between them. -/
def messageUnits (fwd : Byte → Option Pattern) : List (List Byte) → List Bool
  | [] => []
  | [w] => wordUnits fwd w
  | w :: v :: ws => wordUnits fwd w ++ List.replicate 7 false ++ messageUnits fwd (v :: ws)

/-- The text of a message: its words with one space between them. -/
def messageText : List (List Byte) → List Byte
  | [] => []
  | [w] => w
  | w :: v :: ws => w ++ [0x20] ++ messageText (v :: ws)

/-- Every unit repeated `q` times: one unit takes `q` blocks. -/
def stretch (q : Nat) (us : List Bool) : List Bool := us.flatMap fun u => List.replicate q u

/-- The words can be keyed: there is a word, no word is empty, and every character is one of the 42 supported
ones and has a pattern. -/
def Keyable (p : Params) (words : List (List Byte)) : Prop :=
  words ≠ [] ∧ ∀ w ∈ words, w ≠ [] ∧ ∀ c ∈ w, c ∈ supportedChars ∧ (p.pattern c).isSome = true

/-! ## Rounding -/

/-- The finite binary32 element `w` is the one nearest to the real `r`, a tie going to the element whose last bit is
0 (`00_scope.md` R15). -/
def NearestEven (w : Word) (r : ℝ) : Prop :=
  isFinite32 w = true ∧
    ∀ e : Word, isFinite32 e = true → rat32 e ≠ rat32 w →
      |(rat32 w : ℝ) - r| < |(rat32 e : ℝ) - r| ∨
        (|(rat32 w : ℝ) - r| = |(rat32 e : ℝ) - r| ∧ w.getLsbD 0 = false)

/-- A run of `k` steps that is never refused (`00_scope.md` R8: nothing is claimed of a run with a refusal). -/
def SafeRun : Nat → State → Prop
  | 0, _ => True
  | k + 1, s => ∃ t, step s = .next t ∧ SafeRun k t

end Machine

end Sys2Proof
end

