-- ==== Sys2Proof/Certificates/Slice0/Obligations.lean ====
section
/-! DEFINITION. The statements about the model, each formalising rules of `spec/`. -/

open Sys2Proof Sys2Proof.Machine

/-! ## Command words and steps -/

/-- R104: the word of every operation, written out from the opcode map, decodes to it; three words of program P6
and vector V12 and one with a bit set in `zero` are reserved. -/
def Obligations.OpcodeMapWordsDecode : Prop :=
  decode 0x0103000000000372 = some (.cfgw 3 882) ∧
  decode 0x010400003F800000 = some (.cfgw 4 0x3F800000) ∧
  decode 0x0200000000000000 = some .init ∧
  decode 0x1000000000000000 = some .render ∧
  decode 0x2000000000000002 = some (.gzmag 2) ∧
  decode 0x2100000000000000 = some .detect ∧
  decode 0x3000000000000000 = some .demod ∧
  decode 0x4000000000000000 = some .crc32 ∧
  decode 0x4100000000000000 = some .enccrc ∧
  decode 0x4200000000000000 = some .frame ∧
  decode 0x4300000000000000 = some .deframe ∧
  decode 0x5000000000000000 = some .decode ∧
  decode 0x6000000000000000 = none ∧
  decode 0x1000000000000001 = none ∧
  decode 0x0106000000000000 = none ∧
  decode 0x0200000100000000 = none

/-- R100, R104: decoding the encoding of a legal instruction gives it back, with every operand. -/
def Obligations.EncodeThenDecodeReturnsInstruction : Prop :=
  ∀ i : Instr, WellFormed i → decode (encode i) = some i

/-- R100, R105: an instruction is read from one word only, and only legal instructions are read. -/
def Obligations.DecodeThenEncodeReturnsWord : Prop :=
  ∀ (w : CmdWord) (i : Instr), decode w = some i → WellFormed i ∧ encode i = w

/-- R105: a word decodes exactly when its fields are as the rule lists, and a word that does not decode is refused. -/
def Obligations.LegalWordsExactlyByFields : Prop :=
  ∀ w : CmdWord,
    (decode w ≠ none ↔
      w.extractLsb' 56 8 ∈ ([0x01, 0x02, 0x10, 0x20, 0x21, 0x30, 0x40, 0x41, 0x42, 0x43, 0x50] : List (BitVec 8)) ∧
      w.extractLsb' 32 16 = (0 : BitVec 16) ∧
      (w.extractLsb' 56 8 ≠ (0x01 : BitVec 8) → w.extractLsb' 48 8 = (0 : BitVec 8)) ∧
      (w.extractLsb' 56 8 = (0x01 : BitVec 8) → (w.extractLsb' 48 8).toNat ≤ 5) ∧
      (w.extractLsb' 56 8 ∉ ([0x01, 0x20] : List (BitVec 8)) → w.extractLsb' 0 32 = (0 : BitVec 32))) ∧
    (decode w = none →
      ∀ (s : State) (rest : List HostMove), s.busy = false → s.host = .command w :: rest →
        step s = .refused .reserved)

/-- R6: a step on a command word that decodes is the meaning of the instruction, run on the state with the command
taken from the host's moves. That the host's moves stand in a list, and that a word placed by `withFetchWord` is the very
next one, is the model's choice (log entry 10). -/
def Obligations.StepRunsDecodedCommand : Prop :=
  ∀ (s : State) (w : CmdWord) (i : Instr), s.busy = false → decode w = some i →
    (∀ rest : List HostMove, s.host = .command w :: rest → step s = exec i { s with host := rest }) ∧
    step (s.withFetchWord 64 w.toNat) = exec i s

/-! ## The host -/

/-- R71, R79: the host's write of an element of a space is what a read of that element sees, every other element
and every other register stay; its write of a length register writes that register, leaves the elements below the
length that have a value, and every element at or beyond it open (R72), for `BITS_LEN` those of `MAGS` too (R70). The
bounds are the model's choice (log entry 11). -/
def Obligations.HostLoadsAreSeenByReads : Prop :=
  ∀ (s : State) (rest : List HostMove), memWf s = true → s.busy = false →
    (∀ (i : Nat) (v : Byte), s.host = .writeTim i v :: rest → i < s.params.timMax →
      ∃ t, step s = .next t ∧ t = { s with tim := t.tim, host := rest } ∧ readCell i t.tim = v ∧
        ∀ j, j ≠ i → readCell j t.tim = readCell j s.tim) ∧
    (∀ (i : Nat) (v : Word), s.host = .writePcm i v :: rest → i < s.params.pcmMax →
      ∃ t, step s = .next t ∧ t = { s with pcm := t.pcm, host := rest } ∧ readCell i t.pcm = v ∧
        ∀ j, j ≠ i → readCell j t.pcm = readCell j s.pcm) ∧
    (∀ (i : Nat) (v : Bool), s.host = .writeBits i v :: rest → i < s.params.bitsMax →
      ∃ t, step s = .next t ∧ t = { s with bits := t.bits, host := rest } ∧ readCell i t.bits = v ∧
        ∀ j, j ≠ i → readCell j t.bits = readCell j s.bits) ∧
    (∀ (i : Nat) (v : Byte), s.host = .writeTxt i v :: rest → i < s.params.txtMax →
      ∃ t, step s = .next t ∧ t = { s with txt := t.txt, host := rest } ∧ readCell i t.txt = v ∧
        ∀ j, j ≠ i → readCell j t.txt = readCell j s.txt) ∧
    (∀ (i : Nat) (v : Byte), s.host = .writePay i v :: rest → i < s.params.payMax →
      ∃ t, step s = .next t ∧ t = { s with pay := t.pay, host := rest } ∧ readCell i t.pay = v ∧
        ∀ j, j ≠ i → readCell j t.pay = readCell j s.pay) ∧
    (∀ len : Nat, len < 2 ^ s.params.idxW →
      (s.host = .writeLen .tim len :: rest →
        ∃ t, step s = .next t ∧ t = { s with timLen := len, tim := t.tim, host := rest } ∧
          (∀ j, len ≤ j → isOpen j t.tim) ∧
          ∀ j, j < len → ¬isOpen j s.tim → readCell j t.tim = readCell j s.tim) ∧
      (s.host = .writeLen .pcm len :: rest →
        ∃ t, step s = .next t ∧ t = { s with pcmLen := len, pcm := t.pcm, host := rest } ∧
          (∀ j, len ≤ j → isOpen j t.pcm) ∧
          ∀ j, j < len → ¬isOpen j s.pcm → readCell j t.pcm = readCell j s.pcm) ∧
      (s.host = .writeLen .bits len :: rest →
        ∃ t, step s = .next t ∧ t = { s with bitsLen := len, bits := t.bits, mags := t.mags, host := rest } ∧
          (∀ j, len ≤ j → isOpen j t.bits ∧ isOpen j t.mags) ∧
          ∀ j, j < len → (¬isOpen j s.bits → readCell j t.bits = readCell j s.bits) ∧
            (¬isOpen j s.mags → readCell j t.mags = readCell j s.mags)) ∧
      (s.host = .writeLen .txt len :: rest →
        ∃ t, step s = .next t ∧ t = { s with txtLen := len, txt := t.txt, host := rest } ∧
          (∀ j, len ≤ j → isOpen j t.txt) ∧
          ∀ j, j < len → ¬isOpen j s.txt → readCell j t.txt = readCell j s.txt) ∧
      (s.host = .writeLen .pay len :: rest →
        ∃ t, step s = .next t ∧ t = { s with payLen := len, pay := t.pay, host := rest } ∧
          (∀ j, len ≤ j → isOpen j t.pay) ∧
          ∀ j, j < len → ¬isOpen j s.pay → readCell j t.pay = readCell j s.pay))

/-- R77: a read by the host changes nothing but the list of moves still to come. -/
def Obligations.HostReadsChangeNothing : Prop :=
  ∀ (s : State) (target : ReadTarget) (rest : List HostMove), s.busy = false → s.host = .read target :: rest →
    step s = .next { s with host := rest }

/-- R340, R48: reset, whether or not an operation is in progress, gives every register that the table gives a value
that value and leaves every element of every buffer space open (R341); the parameters are not state (R49). -/
def Obligations.ResetGivesTableValues : Prop :=
  ∀ (s : State) (rest : List HostMove), s.host = .reset :: rest →
    ∃ t, step s = .next t ∧ t.params = s.params ∧ t.host = rest ∧
      t.fs = 44100 ∧ t.f0 = 750 ∧ t.wpm = 20 ∧ t.n = 882 ∧ t.theta.value = 0 ∧ t.bpu = 3 ∧
      t.ready = false ∧ t.busy = false ∧ t.stage = .none ∧ t.err = .none ∧ t.valid = false ∧ t.st = false ∧
      t.s1.value = 0 ∧ t.s2.value = 0 ∧
      t.nidx = 0 ∧ t.gb = 0 ∧ t.gi = 0 ∧ t.ru = 0 ∧ t.rj = 0 ∧ t.pat = [] ∧
      t.timLen = 0 ∧ t.pcmLen = 0 ∧ t.bitsLen = 0 ∧ t.runsLen = 0 ∧ t.txtLen = 0 ∧ t.payLen = 0 ∧
      ∀ i, isOpen i t.tim ∧ isOpen i t.pcm ∧ isOpen i t.mags ∧ isOpen i t.bits ∧ isOpen i t.runs ∧ isOpen i t.txt ∧
        isOpen i t.pay

/-! ## The invariant -/

/-- The state after reset meets the invariant. -/
def Obligations.InvariantHoldsAtReset : Prop := Inv State.reset

/-- Every step keeps the invariant: canonical memory, indices of `IDX_W` bits, `READY` only with the derived registers
of the current configuration (R344), the stages and errors the block writes (R131, R132), `VALID` only without an
error (R43), and a CRC text that can be keyed (R245 (c)). -/
def Obligations.EveryStepKeepsInvariant : Prop :=
  ∀ s t : State, Inv s → step s = .next t → Inv t

/-- R49: no step writes a parameter. -/
def Obligations.NoStepChangesParameters : Prop :=
  ∀ s t : State, step s = .next t → t.params = s.params

/-- R311: an operation is refused only for the reasons listed for it, and then the condition of the reason holds. That
the capacity reason reaches `GZMAG` and `CRC32` and every input of R73 is log entry 12, that the integers of `INIT` have it
is log entry 9, and that the table is tested on the 42 supported characters is log entry 19. -/
def Obligations.RefusedOnlyForListedReasons : Prop :=
  ∀ (i : Instr) (s : State) (r : Refusal), memWf s = true → exec i s = .refused r →
    match r with
    | .reservedSelector => ∃ sel imm, i = .cfgw sel imm ∧ 5 < sel.toNat
    | .nonFiniteThreshold => ∃ imm, i = .cfgw 4 imm ∧ isFinite32 imm = false
    | .notConstructed => s.ready = false ∧ i ≠ .init ∧ ∀ sel imm, i ≠ .cfgw sel imm
    | .zeroSampleRate => i = .init ∧ s.fs = 0
    | .zeroWpm => i = .init ∧ s.wpm = 0
    | .ambiguousTable =>
      i = .init ∧ ∃ c ∈ supportedChars, ∃ d ∈ supportedChars,
        c ≠ d ∧ s.params.pattern c = s.params.pattern d ∧ s.params.pattern c ≠ none
    | .zeroBlockSize => (∃ b, i = .gzmag b) ∧ s.n = 0
    | .blockOutOfRange => ∃ b, i = .gzmag b ∧ s.pcmLen < (b.toNat + 1) * s.n.toNat
    | .nonFiniteSample =>
      (∃ b, i = .gzmag b ∧ ∃ j, j < s.n.toNat ∧ isFinite32 (readCell (b.toNat * s.n.toNat + j) s.pcm) = false) ∨
        ((i = .detect ∨ i = .decode) ∧
          ∃ j, j < s.pcmLen / s.n.toNat * s.n.toNat ∧ isFinite32 (readCell j s.pcm) = false)
    | .contested =>
      (i = .detect ∨ i = .decode) ∧ s.params.autoZero = .refuse ∧ s.theta.value ≤ 0 ∧
        (medianOf s.params ((List.range (s.pcmLen / s.n.toNat)).map fun b =>
          blockPower s.params.ops s.c
            ((List.range s.n.toNat).map fun i => readCell (b * s.n.toNat + i) s.pcm))).value = 0
    | .capacity =>
      (match i with
      | .cfgw _ _ => False
      | .init =>
        2 ^ s.params.idxW ≤ initK s ∨ 2 ^ s.params.idxW ≤ samplesPerUnit s.fs s.wpm ∨
          2 ^ s.params.idxW ≤ 5 * s.bpu.toNat
      | .render => s.params.timMax < s.timLen ∨ s.params.pcmMax < s.timLen * s.spu
      | .gzmag _ => s.params.pcmMax < s.pcmLen
      | .detect => s.params.pcmMax < s.pcmLen ∨ (s.n ≠ 0 ∧ s.params.bitsMax < s.pcmLen / s.n.toNat)
      | .demod =>
        s.params.bitsMax < s.bitsLen ∨
          s.params.txtMax < (demodText s.dotDash s.wordGap s.rtab
            (rle ((List.range s.bitsLen).map fun b => readCell b s.bits))).length
      | .crc32 => s.params.payMax < s.payLen
      | .enccrc => False
      | .frame => s.params.payMax < s.payLen ∨ s.params.txtMax < s.payLen + 11
      | .deframe => s.params.txtMax < s.txtLen ∨ s.params.payMax + 11 < s.txtLen
      | .decode =>
        s.params.pcmMax < s.pcmLen ∨ (s.n ≠ 0 ∧ s.params.bitsMax < s.pcmLen / s.n.toNat) ∨
          ∃ a, exec .detect s = .next a ∧ a.bitsLen ≠ 0 ∧
            let text := demodText a.dotDash a.wordGap a.rtab
              (rle ((List.range a.bitsLen).map fun b => readCell b a.bits))
            s.params.txtMax < text.length ∨ s.params.payMax + 11 < text.length)
    | _ => False

/-! ## Who writes what -/

/-- R22: only `CFGW` writes a configuration register, only `INIT` writes a derived register or `RTAB`, and a `CFGW`
clears `READY`. -/
def Obligations.ConfigurationAndDerivedImmutable : Prop :=
  ∀ (i : Instr) (s t : State), exec i s = .next t →
    ((∀ sel imm, i ≠ .cfgw sel imm) →
      t.fs = s.fs ∧ t.f0 = s.f0 ∧ t.wpm = s.wpm ∧ t.n = s.n ∧ t.theta = s.theta ∧ t.bpu = s.bpu) ∧
    (i ≠ .init →
      t.k = s.k ∧ t.c = s.c ∧ t.omega = s.omega ∧ t.spu = s.spu ∧ t.dotDash = s.dotDash ∧
        t.wordGap = s.wordGap ∧ t.rtab = s.rtab) ∧
    (∀ sel imm, i = .cfgw sel imm → t.ready = false)

/-- R142: while `READY` = 0 every operation other than `CFGW` and `INIT` is refused, and only `INIT` ends that. -/
def Obligations.NothingRunsUntilInit : Prop :=
  ∀ (i : Instr) (s : State), s.ready = false →
    ((∀ sel imm, i ≠ .cfgw sel imm) → i ≠ .init → exec i s = .refused .notConstructed) ∧
    (∀ t, exec i s = .next t → t.ready = true → i = .init) ∧
    (∀ (sel : BitVec 8) (imm : Word) (u v : State), exec (.cfgw sel imm) u = .next v → v.ready = false)

/-- R46: no operation writes a flag other than as the table of flags lists. -/
def Obligations.FlagsWrittenOnlyAsListed : Prop :=
  ∀ (i : Instr) (s t : State), exec i s = .next t →
    (i ≠ .detect → i ≠ .decode → t.st = s.st) ∧
    (i ≠ .deframe → i ≠ .decode → t.valid = s.valid ∧ t.err = s.err) ∧
    (i ≠ .decode → t.stage = s.stage) ∧
    (i = .init → t.ready = true) ∧
    ((∃ sel imm, i = .cfgw sel imm) → t.ready = false) ∧
    (i ≠ .init → (∀ sel imm, i ≠ .cfgw sel imm) → t.ready = s.ready) ∧
    t.busy = s.busy

/-- R70, R74 for the spaces and lengths, R26 to R28, R30, R32, R34 to R37 for the other registers: an operation writes no
space, no length register and no result or working register that is not listed for it. -/
def Obligations.SpacesWrittenOnlyAsListed : Prop :=
  ∀ (i : Instr) (s t : State), exec i s = .next t →
    t.tim = s.tim ∧ t.timLen = s.timLen ∧
    (i ≠ .render → t.pcm = s.pcm ∧ t.pcmLen = s.pcmLen ∧ t.nidx = s.nidx ∧ t.ru = s.ru ∧ t.rj = s.rj) ∧
    (i ∉ [Instr.detect, .decode] →
      t.mags = s.mags ∧ t.bits = s.bits ∧ t.bitsLen = s.bitsLen ∧ t.thon = s.thon ∧ t.thoff = s.thoff) ∧
    (i ∉ [Instr.detect, .decode] → (∀ b, i ≠ .gzmag b) →
      t.s1 = s.s1 ∧ t.s2 = s.s2 ∧ t.gb = s.gb ∧ t.gi = s.gi) ∧
    ((∀ b, i ≠ .gzmag b) → t.mag = s.mag) ∧
    (i ∉ [Instr.demod, .decode] → t.runs = s.runs ∧ t.runsLen = s.runsLen ∧ t.pat = s.pat) ∧
    (i ∉ [Instr.demod, .frame, .decode] → t.txt = s.txt ∧ t.txtLen = s.txtLen) ∧
    (i ∉ [Instr.deframe, .decode] → t.pay = s.pay ∧ t.payLen = s.payLen ∧ t.got4 = s.got4) ∧
    (i ∉ [Instr.crc32, .frame, .deframe, .decode] → t.crc = s.crc) ∧
    (i ∉ [Instr.enccrc, .frame, .deframe, .decode] → t.crc4 = s.crc4)

/-! ## CFGW, INIT -/

/-- R141: `CFGW` writes the selected register with the immediate, or `THETA` with the value of the binary32 pattern,
clears `READY` and changes nothing else; −0 writes the real 0; the two refusals of the rule. -/
def Obligations.CfgwWritesSelectedRegister : Prop :=
  ∀ (s : State) (imm : Word),
    exec (.cfgw 0 imm) s = .next { s with fs := imm, ready := false } ∧
    exec (.cfgw 1 imm) s = .next { s with f0 := imm, ready := false } ∧
    exec (.cfgw 2 imm) s = .next { s with wpm := imm, ready := false } ∧
    exec (.cfgw 3 imm) s = .next { s with n := imm, ready := false } ∧
    (imm.extractLsb' 23 8 ≠ (0xFF : BitVec 8) →
      exec (.cfgw 4 imm) s = .next { s with theta := s.params.ops.val32 imm, ready := false }) ∧
    (imm.extractLsb' 23 8 = (0xFF : BitVec 8) → exec (.cfgw 4 imm) s = .refused .nonFiniteThreshold) ∧
    exec (.cfgw 4 0x80000000) s = .next { s with theta := s.params.ops.ofRat 0, ready := false } ∧
    exec (.cfgw 5 imm) s = .next { s with bpu := imm, ready := false } ∧
    ∀ sel : BitVec 8, 5 < sel.toNat → exec (.cfgw sel imm) s = .refused .reservedSelector

/-- R15, R101: in the reference numerics `val32` is the real number of the binary32 pattern: sign bit 31, exponent
30:23, fraction 22:0, subnormals at exponent field 0; −0 is the real 0. -/
def Obligations.Val32IsBinary32Value : Prop :=
  ∀ w : Word, w.extractLsb' 23 8 ≠ (0xFF : BitVec 8) →
    (NumOps.exact.val32 w).value =
      (if w.getLsbD 31 then -1 else 1) *
        (if (w.extractLsb' 23 8).toNat = 0 then
          ((w.extractLsb' 0 23).toNat : ℝ) * (2 : ℝ) ^ (-149 : ℤ)
        else
          (1 + ((w.extractLsb' 0 23).toNat : ℝ) / 2 ^ 23) * (2 : ℝ) ^ (((w.extractLsb' 23 8).toNat : ℤ) - 127))

/-- R143, R145, R147, R148, R150, R151: `INIT` completes for every configuration with `FS` and `WPM` not 0, an injective table and
derived integers of `IDX_W` bits, writes the derived registers and `RTAB`, sets `READY` and changes nothing else (the
counter of free values moves for `N` = 0, R153 (a)); the refusals of R143, R150 and, for `K` and `SPU` that do not fit in
`IDX_W` bits (R12, R311), of log entry 9. That the table is tested on the 42 supported characters is log entry 19. -/
def Obligations.InitConstructsOrRefuses : Prop :=
  ∀ s : State,
    (s.fs = 0 → exec .init s = .refused .zeroSampleRate) ∧
    (s.fs ≠ 0 → s.wpm = 0 → exec .init s = .refused .zeroWpm) ∧
    (s.fs ≠ 0 → s.wpm ≠ 0 →
      (∃ c ∈ supportedChars, ∃ d ∈ supportedChars,
        c ≠ d ∧ s.params.pattern c = s.params.pattern d ∧ s.params.pattern c ≠ none) →
      exec .init s = .refused .ambiguousTable) ∧
    (s.fs ≠ 0 → s.wpm ≠ 0 →
      (∀ c ∈ supportedChars, ∀ d ∈ supportedChars,
        s.params.pattern c = s.params.pattern d → s.params.pattern c ≠ none → c = d) →
      (2 ^ s.params.idxW ≤ 5 * s.bpu.toNat ∨
          (2 : ℤ) ^ s.params.idxW ≤ ⌊((s.n.toNat * s.f0.toNat : ℕ) : ℚ) / (s.fs.toNat : ℚ) + 1 / 2⌋ ∨
          (2 : ℤ) ^ s.params.idxW ≤ ⌊((6 * s.fs.toNat : ℕ) : ℚ) / ((5 * s.wpm.toNat : ℕ) : ℚ)⌋ →
        exec .init s = .refused .capacity) ∧
      (⌊((s.n.toNat * s.f0.toNat : ℕ) : ℚ) / (s.fs.toNat : ℚ) + 1 / 2⌋ < (2 : ℤ) ^ s.params.idxW →
        ⌊((6 * s.fs.toNat : ℕ) : ℚ) / ((5 * s.wpm.toNat : ℕ) : ℚ)⌋ < (2 : ℤ) ^ s.params.idxW →
        5 * s.bpu.toNat < 2 ^ s.params.idxW →
        ∃ t, exec .init s = .next t ∧
          t = { s with
                k := t.k, c := t.c, omega := t.omega, spu := t.spu, dotDash := 2 * s.bpu.toNat,
                wordGap := 5 * s.bpu.toNat, rtab := t.rtab, ready := true, free := t.free } ∧
          (s.n ≠ 0 →
            (t.k : ℤ) = ⌊((s.n.toNat * s.f0.toNat : ℕ) : ℚ) / (s.fs.toNat : ℚ) + 1 / 2⌋ ∧
            t.c = s.params.ops.twoCos t.k s.n.toNat ∧ t.free = s.free) ∧
          (s.n = 0 → t.k = 0) ∧
          t.omega = s.params.ops.omega s.f0.toNat s.fs.toNat ∧
          (t.spu : ℤ) = ⌊((6 * s.fs.toNat : ℕ) : ℚ) / ((5 * s.wpm.toNat : ℕ) : ℚ)⌋ ∧
          ∀ (pat : Pattern) (c : Byte),
            t.rtab.lookup pat = some c ↔ c ∈ supportedChars ∧ s.params.pattern c = some pat))

/-- R146, R148: in the reference numerics `INIT` leaves `OMEGA` = 2π × `F0` / `FS` and `C` = 2 cos (2π `K` / `N`), which lies
between −2 and 2 and has the special exact values of R146. -/
def Obligations.InitReferenceValues : Prop :=
  ∀ s t : State, s.params.numerics = .exactReal → exec .init s = .next t →
    t.omega.value = 2 * Real.pi * (s.f0.toNat : ℝ) / (s.fs.toNat : ℝ) ∧
    (s.n ≠ 0 →
      t.c.value = 2 * Real.cos (2 * Real.pi * (t.k : ℝ) / (s.n.toNat : ℝ)) ∧
      -2 ≤ t.c.value ∧ t.c.value ≤ 2 ∧
      (s.n.toNat ∣ t.k → t.c.value = 2) ∧
      (6 * t.k = s.n.toNat → t.c.value = 1) ∧
      (4 * t.k = s.n.toNat → t.c.value = 0) ∧
      (3 * t.k = s.n.toNat → t.c.value = -1) ∧
      (2 * t.k = s.n.toNat → t.c.value = -2))

/-- R144: a second `INIT` on an unchanged configuration changes nothing (but the open value of `C` for `N` = 0, R153 (a)),
and between two `INIT`s nothing writes `RTAB`. -/
def Obligations.InitIsIdempotent : Prop :=
  (∀ s t : State, exec .init s = .next t →
    ∃ u, exec .init t = .next u ∧ (s.n ≠ 0 → u = t) ∧ u = { t with c := u.c, free := u.free }) ∧
  ∀ (i : Instr) (s t : State), i ≠ .init → exec i s = .next t → t.rtab = s.rtab

/-! ## RENDER -/

/-- R163 to R167: `RENDER` writes one sample for each unit and each of `SPU` indices, the tone sample of the global index
where the unit's element is positive and +0.0 elsewhere, `PCM_LEN` and `NIDX`; nothing else but the two loop indices and
the counter of free values; the elements beyond `PCM_LEN` are open (R72); its refusals, that of a `TIM_LEN` above `TIM_MAX`
by R73 (log entry 12). -/
def Obligations.RenderWritesSamples : Prop :=
  ∀ s : State,
    (s.ready = false → exec .render s = .refused .notConstructed) ∧
    (s.ready = true → s.params.timMax < s.timLen ∨ s.params.pcmMax < s.timLen * s.spu →
      exec .render s = .refused .capacity) ∧
    (memWf s = true → s.ready = true → s.timLen ≤ s.params.timMax → s.timLen * s.spu ≤ s.params.pcmMax →
      ∃ t, exec .render s = .next t ∧
        t = { s with
              nidx := s.timLen * s.spu, ru := t.ru, rj := t.rj, pcm := t.pcm, pcmLen := s.timLen * s.spu,
              free := t.free } ∧
        (∀ n, n < s.timLen * s.spu →
          readCell n t.pcm =
            if 0 < (readCell (n / s.spu) s.tim).toInt then tone s.params.ops s.omega n else 0x00000000) ∧
        ∀ n, s.timLen * s.spu ≤ n → isOpen n t.pcm)

/-- R161: in the reference numerics the tone sample is the binary32 element nearest to 0.8 sin (`OMEGA` n), ties to even,
the real 0 as +0.0, and never above 0x3F4CCCCD in magnitude, for the `OMEGA` of every `F0` and `FS` (R148). -/
def Obligations.ToneIsRoundedSine : Prop :=
  ∀ f0 fs n : Nat, 0 < fs →
    let omega := NumOps.exact.omega f0 fs
    NearestEven (tone NumOps.exact omega n) (0.8 * Real.sin (omega.value * n)) ∧
    (0.8 * Real.sin (omega.value * n) = 0 → tone NumOps.exact omega n = 0x00000000) ∧
    |rat32 (tone NumOps.exact omega n)| ≤ rat32 0x3F4CCCCD

/-- R162: in the reference numerics the unrounded samples of consecutive indices differ by at most 0.8 × `OMEGA`. -/
def Obligations.PhaseStepIsBounded : Prop :=
  ∀ f0 fs n : Nat, 0 < fs →
    let omega := NumOps.exact.omega f0 fs
    let sampleAt := fun m =>
      (NumOps.exact.mul (NumOps.exact.ofRat (4 / 5)) (NumOps.exact.sin (NumOps.exact.times omega m))).value
    |sampleAt (n + 1) - sampleAt n| ≤ 0.8 * omega.value

/-- R169: `RENDER` is a function of `TIM[0..TIM_LEN]`, `SPU` and `OMEGA` on a given chip: two states that agree on them get
the same `PCM`, whatever else they hold. -/
def Obligations.RenderDependsOnInputsOnly : Prop :=
  ∀ s s' t : State, memWf s = true → memWf s' = true → s.params = s'.params → s.ready = true → s'.ready = true →
    s.spu = s'.spu → s.omega = s'.omega → s.timLen = s'.timLen →
    (∀ i, i < s.timLen → readCell i s.tim = readCell i s'.tim) → exec .render s = .next t →
    ∃ t', exec .render s' = .next t' ∧ t'.pcmLen = t.pcmLen ∧
      ∀ n, n < t.pcmLen → readCell n t'.pcm = readCell n t.pcm

/-! ## GZMAG -/

/-- R182 to R184: `GZMAG b` runs the recurrence from 0, 0 over the samples of block b in index order, leaves the last two
values in `S1`, `S2` and the power in `MAG`, and changes nothing else but `GB`, `GI` and the counter of free values;
the refusals of R184, and that of a `PCM_LEN` above `PCM_MAX` by R73 (log entry 12). -/
def Obligations.GzmagRunsRecurrence : Prop :=
  ∀ (s : State) (b : Word), memWf s = true →
    (s.ready = false → exec (.gzmag b) s = .refused .notConstructed) ∧
    (s.ready = true → s.params.pcmMax < s.pcmLen → exec (.gzmag b) s = .refused .capacity) ∧
    (s.ready = true → s.pcmLen ≤ s.params.pcmMax → s.n = 0 → exec (.gzmag b) s = .refused .zeroBlockSize) ∧
    (s.ready = true → s.pcmLen ≤ s.params.pcmMax → s.n ≠ 0 →
      (s.pcmLen < (b.toNat + 1) * s.n.toNat → exec (.gzmag b) s = .refused .blockOutOfRange) ∧
      ((b.toNat + 1) * s.n.toNat ≤ s.pcmLen →
        ((∃ i, i < s.n.toNat ∧ isFinite32 (readCell (b.toNat * s.n.toNat + i) s.pcm) = false) →
          exec (.gzmag b) s = .refused .nonFiniteSample) ∧
        ((∀ i, i < s.n.toNat → isFinite32 (readCell (b.toNat * s.n.toNat + i) s.pcm) = true) →
          ∃ (t : State) (r : Nat → RNum × RNum),
            exec (.gzmag b) s = .next t ∧
            t = { s with
                  gb := b.toNat, gi := t.gi, s1 := t.s1, s2 := t.s2, mag := t.mag, free := t.free } ∧
            r 0 = (RNum.zero, RNum.zero) ∧
            (∀ i, i < s.n.toNat →
              r (i + 1) =
                (s.params.ops.sub
                  (s.params.ops.add (s.params.ops.val32 (readCell (b.toNat * s.n.toNat + i) s.pcm))
                    (s.params.ops.mul s.c (r i).1))
                  (r i).2,
                (r i).1)) ∧
            (t.s1, t.s2) = r s.n.toNat ∧
            t.mag =
              s.params.ops.sub
                (s.params.ops.add (s.params.ops.mul t.s1 t.s1) (s.params.ops.mul t.s2 t.s2))
                (s.params.ops.mul (s.params.ops.mul s.c t.s1) t.s2))))

/-- R193: in the reference numerics the power `GZMAG b` leaves in `MAG` is the squared modulus of the `K`-th DFT coefficient
of block b, and so is not negative. -/
def Obligations.PowerIsSquaredDftModulus : Prop :=
  ∀ (s : State) (b : Word), Inv s → s.params.numerics = .exactReal → s.ready = true → s.n ≠ 0 →
    s.pcmLen ≤ s.params.pcmMax → (b.toNat + 1) * s.n.toNat ≤ s.pcmLen →
    (∀ i, i < s.n.toNat → isFinite32 (readCell (b.toNat * s.n.toNat + i) s.pcm) = true) →
    ∃ t, exec (.gzmag b) s = .next t ∧
      t.mag.value =
        Complex.normSq (∑ i ∈ Finset.range s.n.toNat,
          ((rat32 (readCell (b.toNat * s.n.toNat + i) s.pcm) : ℝ) : ℂ) *
            Complex.exp (-(2 * Real.pi * s.k * i / s.n.toNat : ℝ) * Complex.I))

/-! ## DETECT -/

/-- R185 steps 1 and 2: with no sample, no block size or less than one block `DETECT` writes 0 to `BITS_LEN` and nothing else;
`BITS` has no element any more (R72). -/
def Obligations.DetectReturnsEmpty : Prop :=
  ∀ s : State, s.ready = true → s.pcmLen ≤ s.params.pcmMax →
    (s.pcmLen = 0 ∨ s.n = 0 ∨ s.pcmLen < s.n.toNat) →
    ∃ t, exec .detect s = .next t ∧ t = { s with bitsLen := 0, bits := t.bits } ∧ ∀ b, isOpen b t.bits

/-- R182, R183, R185 to R188, R191: with at least one block of finite samples, and outside the contested band where the
chip refuses it, `DETECT` writes the power of every block to `MAGS` (the recurrence from 0, 0 over the samples of the block
in index order), the thresholds, and one bit for each block: the state after the transition of R190, starting from OFF.
Nothing else is written but the recurrence registers, the loop indices and the counter of free values; the elements beyond
the length are open (R72). -/
def Obligations.DetectClassifiesBlocks : Prop :=
  ∀ s : State, memWf s = true → s.ready = true → s.n ≠ 0 → s.n.toNat ≤ s.pcmLen → s.pcmLen ≤ s.params.pcmMax →
    let nb := s.pcmLen / s.n.toNat
    nb ≤ s.params.bitsMax →
    (∀ i, i < nb * s.n.toNat → isFinite32 (readCell i s.pcm) = true) →
    let power := fun b =>
      blockPower s.params.ops s.c ((List.range s.n.toNat).map fun i => readCell (b * s.n.toNat + i) s.pcm)
    let median := medianOf s.params ((List.range nb).map power)
    (s.params.autoZero = .literal ∨ 0 < s.theta.value ∨ median.value ≠ 0) →
    ∃ t, exec .detect s = .next t ∧
      t = { s with
            s1 := t.s1, s2 := t.s2, gb := t.gb, gi := t.gi, mags := t.mags, thon := t.thon, thoff := t.thoff,
            st := t.st, bits := t.bits, bitsLen := nb, free := t.free } ∧
      (∀ b, b < nb → readCell b t.mags = power b ∧
        ∃ r : Nat → RNum × RNum,
          r 0 = (RNum.zero, RNum.zero) ∧
          (∀ i, i < s.n.toNat →
            r (i + 1) =
              (s.params.ops.sub
                (s.params.ops.add (s.params.ops.val32 (readCell (b * s.n.toNat + i) s.pcm))
                  (s.params.ops.mul s.c (r i).1))
                (r i).2,
              (r i).1)) ∧
          readCell b t.mags =
            s.params.ops.sub
              (s.params.ops.add (s.params.ops.mul (r s.n.toNat).1 (r s.n.toNat).1)
                (s.params.ops.mul (r s.n.toNat).2 (r s.n.toNat).2))
              (s.params.ops.mul (s.params.ops.mul s.c (r s.n.toNat).1) (r s.n.toNat).2)) ∧
      (∀ b, nb ≤ b → isOpen b t.mags ∧ isOpen b t.bits) ∧
      (0 < s.theta.value → t.thon = s.theta) ∧
      (s.theta.value ≤ 0 → t.thon = s.params.ops.mul (s.params.ops.ofRat 3) median) ∧
      t.thoff = s.params.ops.mul (s.params.ops.ofRat (7 / 10)) t.thon ∧
      (readCell 0 t.bits = true ↔ t.thon.value ≤ (power 0).value) ∧
      (∀ b, b + 1 < nb →
        (readCell (b + 1) t.bits = true ↔
          (readCell b t.bits = true ∧ t.thoff.value ≤ (power (b + 1)).value) ∨
            (readCell b t.bits = false ∧ t.thon.value ≤ (power (b + 1)).value))) ∧
      t.st = readCell (nb - 1) t.bits

/-- R185, R195: the refusals of `DETECT` on a buffer with at least one block, in the order of the rule; before them that of a
`PCM_LEN` above `PCM_MAX` by R73 (log entry 12). -/
def Obligations.DetectRefusesByRule : Prop :=
  ∀ s : State, memWf s = true →
    (s.ready = false → exec .detect s = .refused .notConstructed) ∧
    (s.ready = true → s.params.pcmMax < s.pcmLen → exec .detect s = .refused .capacity) ∧
    (s.ready = true → s.n ≠ 0 → s.n.toNat ≤ s.pcmLen → s.pcmLen ≤ s.params.pcmMax →
      let nb := s.pcmLen / s.n.toNat
      (s.params.bitsMax < nb → exec .detect s = .refused .capacity) ∧
      (nb ≤ s.params.bitsMax → (∃ i, i < nb * s.n.toNat ∧ isFinite32 (readCell i s.pcm) = false) →
        exec .detect s = .refused .nonFiniteSample) ∧
      (nb ≤ s.params.bitsMax → (∀ i, i < nb * s.n.toNat → isFinite32 (readCell i s.pcm) = true) →
        s.params.autoZero = .refuse → s.theta.value ≤ 0 →
        (medianOf s.params ((List.range nb).map fun b =>
          blockPower s.params.ops s.c
            ((List.range s.n.toNat).map fun i => readCell (b * s.n.toNat + i) s.pcm))).value = 0 →
        exec .detect s = .refused .contested))

/-- R190: the four rows of the transition table of the hysteresis state. -/
def Obligations.HysteresisTransitionTable : Prop :=
  ∀ thon thoff m : RNum,
    (m.value < thoff.value → hysteresis thon thoff true m = false) ∧
    (thoff.value ≤ m.value → hysteresis thon thoff true m = true) ∧
    (thon.value ≤ m.value → hysteresis thon thoff false m = true) ∧
    (m.value < thon.value → hysteresis thon thoff false m = false)

/-- R192: if every power is at least `THON` the scan from OFF is all 1 (given the margin `THOFF` ≤ `THON` of R188 for
`THON` ≥ 0), if every power is below `THON` it is all 0, and a power in [`THOFF`, `THON`) keeps the state. -/
def Obligations.HysteresisMonotonicity : Prop :=
  ∀ (thon thoff : RNum) (mags : List RNum), thoff.value ≤ thon.value →
    ((∀ m ∈ mags, thon.value ≤ m.value) → scanBits thon thoff false mags = List.replicate mags.length true) ∧
    ((∀ m ∈ mags, m.value < thon.value) → scanBits thon thoff false mags = List.replicate mags.length false) ∧
    ∀ (st : Bool) (m : RNum), thoff.value ≤ m.value → m.value < thon.value → hysteresis thon thoff st m = st

/-- R189: the median is the element of the sorted powers that `MEDIAN_RULE` names: the upper or the lower middle one, or
(in the reference numerics; under another `NUM` the mean is log entry 21) their mean; the three agree for an odd count. -/
def Obligations.MedianFollowsRule : Prop :=
  ∀ (p : Params) (mags : List RNum), mags ≠ [] →
    ∃ sorted : List RNum, sorted.Perm mags ∧ (sorted.map RNum.value).Pairwise (· ≤ ·) ∧
      ∃ upper lower : RNum,
        sorted[mags.length / 2]? = some upper ∧ sorted[(mags.length - 1) / 2]? = some lower ∧
        (p.medianRule = .upper → medianOf p mags = upper) ∧
        (p.medianRule = .lower → medianOf p mags = lower) ∧
        (p.medianRule = .mean → p.numerics = .exactReal →
          (medianOf p mags).value = (lower.value + upper.value) / 2) ∧
        (mags.length % 2 = 1 → upper = lower)

/-- R195: in the reference numerics, where the chip takes the literal reading, the contested band (`THETA` ≤ 0, median 0) gives
`THON` = `THOFF` = 0 and every bit 1. -/
def Obligations.ContestedBandIsAllOnes : Prop :=
  ∀ s : State, Inv s → s.params.numerics = .exactReal → s.params.autoZero = .literal → s.ready = true →
    s.n ≠ 0 → s.n.toNat ≤ s.pcmLen → s.pcmLen ≤ s.params.pcmMax →
    let nb := s.pcmLen / s.n.toNat
    nb ≤ s.params.bitsMax →
    (∀ i, i < nb * s.n.toNat → isFinite32 (readCell i s.pcm) = true) →
    s.theta.value ≤ 0 →
    (medianOf s.params ((List.range nb).map fun b =>
      blockPower s.params.ops s.c
        ((List.range s.n.toNat).map fun i => readCell (b * s.n.toNat + i) s.pcm))).value = 0 →
    ∃ t, exec .detect s = .next t ∧ t.thon.value = 0 ∧ t.thoff.value = 0 ∧ t.st = true ∧ t.bitsLen = nb ∧
      ∀ b, b < nb → readCell b t.bits = true

/-! ## DEMOD -/

/-- R211: the run-length encoding is the maximal constant runs of the bits: every length is at least 1, neighbours have
opposite values, the lengths sum to the number of bits, the runs written out are the bits again, and the first run
has the value of the first bit. -/
def Obligations.RunLengthEncodingIsMaximalRuns : Prop :=
  ∀ bits : List Bool,
    (∀ r ∈ rle bits, 1 ≤ r.length) ∧
    (rle bits).IsChain (fun a b => a.on ≠ b.on) ∧
    ((rle bits).map Run.length).sum = bits.length ∧
    (rle bits).flatMap (fun r => List.replicate r.length r.on) = bits ∧
    (rle bits).head?.map Run.on = bits.head?

/-- R213, R73: `DEMOD` writes the runs of the tone bits to `RUNS`, their text to `TXT`, both lengths, leaves `PAT` empty and
changes nothing else; it always completes where `BITS_LEN` + 1 ≤ `TXT_MAX`, and is refused exactly where a capacity is
exceeded. The elements of `RUNS` and `TXT` beyond the lengths are open (R72). -/
def Obligations.DemodWritesRunsAndText : Prop :=
  ∀ s : State, memWf s = true →
    (s.ready = false → exec .demod s = .refused .notConstructed) ∧
    (s.ready = true → s.params.bitsMax < s.bitsLen → exec .demod s = .refused .capacity) ∧
    (s.ready = true → s.bitsLen ≤ s.params.bitsMax →
      let bits := (List.range s.bitsLen).map fun b => readCell b s.bits
      let text := demodText s.dotDash s.wordGap s.rtab (rle bits)
      (s.params.txtMax < text.length → exec .demod s = .refused .capacity) ∧
      text.length ≤ s.bitsLen + 1 ∧
      (text.length ≤ s.params.txtMax →
        ∃ t, exec .demod s = .next t ∧
          t = { s with
                runs := t.runs, runsLen := (rle bits).length, pat := [], txt := t.txt, txtLen := text.length } ∧
          (List.range t.runsLen).map (fun r => readCell r t.runs) = rle bits ∧
          (List.range t.txtLen).map (fun j => readCell j t.txt) = text ∧
          (∀ r, t.runsLen ≤ r → isOpen r t.runs) ∧
          ∀ j, t.txtLen ≤ j → isOpen j t.txt))

/-- R214, R215, R216, R218, R219: one character without a gap of `DOT_DASH` blocks or more inside reads as the entry of its
pattern, or `?`: each ON run a dot below `DOT_DASH` blocks and a dash from there on. `marks` gives the ON runs and the
gap after each but the last. -/
def Obligations.DemodReadsOneCharacter : Prop :=
  ∀ (dotDash wordGap : Nat) (rtab : List (Pattern × Byte)) (marks : List (Nat × Nat)) (last : Nat),
    (∀ m ∈ marks, 0 < m.1 ∧ 0 < m.2 ∧ m.2 < dotDash) → 0 < last →
    demodText dotDash wordGap rtab
        (rle (marks.flatMap (fun m => List.replicate m.1 true ++ List.replicate m.2 false) ++
          List.replicate last true)) =
      [(rtab.lookup ((marks.map Prod.fst ++ [last]).map fun len => if len < dotDash then Sym.dot else Sym.dash)).getD
        0x3F]

/-- R215, R216, R217: a gap of `DOT_DASH` blocks or more between two stretches that end and begin with tone divides the
text, with one space from `WORD_GAP` blocks on; silence before the first tone gives nothing; silence after the last tone
gives one space from `WORD_GAP` blocks on and nothing else. -/
def Obligations.DemodDividesAtGaps : Prop :=
  ∀ (dotDash wordGap : Nat) (rtab : List (Pattern × Byte)) (x y : List Bool) (gap : Nat), dotDash ≤ wordGap →
    let text := fun bits => demodText dotDash wordGap rtab (rle bits)
    (0 < gap → dotDash ≤ gap →
      text ((x ++ [true]) ++ List.replicate gap false ++ (true :: y)) =
        text (x ++ [true]) ++ (if wordGap ≤ gap then [0x20] else []) ++ text (true :: y)) ∧
    text (List.replicate gap false ++ (true :: y)) = text (true :: y) ∧
    (0 < gap →
      text ((x ++ [true]) ++ List.replicate gap false) =
        text (x ++ [true]) ++ (if wordGap ≤ gap then [0x20] else []))

/-- R222: `DEMOD` writes only values of `RTAB`, `?` and space; once the block is constructed these are the supported
characters and space, so no lower-case letter. -/
def Obligations.DemodOutputAlphabet : Prop :=
  (∀ (dotDash wordGap : Nat) (rtab : List (Pattern × Byte)) (bits : List Bool),
    ∀ c ∈ demodText dotDash wordGap rtab (rle bits), c ∈ rtab.map Prod.snd ∨ c = 0x3F ∨ c = 0x20) ∧
  ∀ s t : State, Inv s → exec .demod s = .next t →
    ∀ j, j < t.txtLen → (readCell j t.txt ∈ supportedChars ∨ readCell j t.txt = 0x20) ∧
      ¬(0x61 ≤ (readCell j t.txt).toNat ∧ (readCell j t.txt).toNat ≤ 0x7A)

/-- R217: the text never begins with a space, never holds two spaces in a row, and ends with a space exactly when the last
run is an OFF run of at least `WORD_GAP` blocks and the text is not empty. -/
def Obligations.DemodSpacesAreSingle : Prop :=
  ∀ (dotDash wordGap : Nat) (rtab : List (Pattern × Byte)) (bits : List Bool),
    dotDash ≤ wordGap → (∀ e ∈ rtab, e.2 ≠ 0x20) →
    let text := demodText dotDash wordGap rtab (rle bits)
    text.head? ≠ some 0x20 ∧
    text.IsChain (fun a b => ¬(a = 0x20 ∧ b = 0x20)) ∧
    (text.getLast? = some 0x20 ↔
      text ≠ [] ∧ ∃ r, (rle bits).getLast? = some r ∧ r.on = false ∧ wordGap ≤ r.length)

/-- R283, R221: the text is empty exactly when no tone bit is 1. -/
def Obligations.DemodEmptyExactlyOnSilence : Prop :=
  ∀ (dotDash wordGap : Nat) (rtab : List (Pattern × Byte)) (bits : List Bool),
    demodText dotDash wordGap rtab (rle bits) = [] ↔ ∀ b ∈ bits, b = false

/-- R224: on a constructed block, the ideal keying of words at `BPU` ≥ 1 blocks for each unit, followed by less than 5 × `BPU`
blocks of silence, demodulates to the words with single spaces between them. -/
def Obligations.IdealKeyingDemodulatesToText : Prop :=
  ∀ (s : State) (words : List (List Byte)) (trail : Nat), Inv s → s.ready = true → 1 ≤ s.bpu.toNat →
    Keyable s.params words → trail < 5 * s.bpu.toNat →
    let bits := stretch s.bpu.toNat (messageUnits s.params.pattern words) ++ List.replicate trail false
    s.bitsLen = bits.length → (∀ b (h : b < bits.length), readCell b s.bits = bits[b]) →
    s.bitsLen ≤ s.params.bitsMax → (messageText words).length ≤ s.params.txtMax →
    ∃ t, exec .demod s = .next t ∧ t.txtLen = (messageText words).length ∧
      ∀ j (h : j < (messageText words).length), readCell j t.txt = (messageText words)[j]

/-! ## CRC32, ENCCRC, FRAME, DEFRAME -/

/-- R241, R242: `CRC32` writes the checksum of the payload to `CRC` and nothing else; a payload above `PAY_MAX` is refused by
R73 (log entry 12); the default algorithm is the shift register of R242 (each character xored into the low byte, then
eight shifts with 0xEDB88320), with its check value. -/
def Obligations.Crc32WritesChecksum : Prop :=
  (∀ s : State,
    (s.ready = false → exec .crc32 s = .refused .notConstructed) ∧
    (s.ready = true → s.params.payMax < s.payLen → exec .crc32 s = .refused .capacity) ∧
    (memWf s = true → s.ready = true → s.payLen ≤ s.params.payMax →
      exec .crc32 s =
        .next { s with crc := crc32Of s.params ((List.range s.payLen).map fun i => readCell i s.pay) })) ∧
  (∀ p : Params, p.crcAlg = .ieee → ∀ xs : List Byte,
    ∃ reg : Nat → Nat → Word,
      reg 0 0 = 0xFFFFFFFF ∧
      (∀ i (h : i < xs.length), reg i 0 ^^^ (xs[i]).setWidth 32 = reg i 1) ∧
      (∀ i j, i < xs.length → 1 ≤ j → j ≤ 8 →
        reg i (j + 1) =
          if (reg i j).getLsbD 0 then (reg i j >>> 1) ^^^ 0xEDB88320 else reg i j >>> 1) ∧
      (∀ i, i < xs.length → reg (i + 1) 0 = reg i 9) ∧
      crc32Of p xs = reg xs.length 0 ^^^ 0xFFFFFFFF) ∧
  crc32Ieee [0x31, 0x32, 0x33, 0x34, 0x35, 0x36, 0x37, 0x38, 0x39] = 0xCBF43926

/-- R243, R244: `ENCCRC` writes the text of `CRC` to `CRC4` and nothing else; the default text is the four upper-case
hexadecimal digits of bits 15:0, most significant first. -/
def Obligations.EnccrcWritesHexDigits : Prop :=
  (∀ s : State,
    (s.ready = false → exec .enccrc s = .refused .notConstructed) ∧
    (s.ready = true → exec .enccrc s = .next { s with crc4 := encodeCrc s.params s.crc })) ∧
  ∀ (p : Params) (c : Word), p.crcText = .hex4 →
    let digit := fun d : Nat => if d < 10 then 0x30 + d else 0x41 + (d - 10)
    (encodeCrc p c).toList.map BitVec.toNat =
      [digit (c.toNat / 4096 % 16), digit (c.toNat / 256 % 16), digit (c.toNat / 16 % 16), digit (c.toNat % 16)]

/-- R250: `FRAME` writes the checksum, its text, and the framed text of the payload; nothing else; the elements of `TXT` beyond
the text are open (R72); its refusals, that of a payload above `PAY_MAX` by R73 (log entry 12). -/
def Obligations.FrameWritesEnvelope : Prop :=
  ∀ s : State, memWf s = true →
    (s.ready = false → exec .frame s = .refused .notConstructed) ∧
    (s.ready = true → s.params.payMax < s.payLen ∨ s.params.txtMax < s.payLen + 11 →
      exec .frame s = .refused .capacity) ∧
    (s.ready = true → s.payLen ≤ s.params.payMax → s.payLen + 11 ≤ s.params.txtMax →
      let payload := (List.range s.payLen).map fun i => readCell i s.pay
      ∃ t, exec .frame s = .next t ∧
        t = { s with
              crc := crc32Of s.params payload, crc4 := encodeCrc s.params (crc32Of s.params payload),
              txt := t.txt, txtLen := s.payLen + 11 } ∧
        (List.range t.txtLen).map (fun j => readCell j t.txt) =
          [0x4B, 0x4B, 0x4B, 0x20] ++ payload ++ [t.crc4.c0, t.crc4.c1, t.crc4.c2, t.crc4.c3] ++ [0x20, 0x41, 0x52] ∧
        ∀ j, t.txtLen ≤ j → isOpen j t.txt)

/-- R255, R256: `DEFRAME` makes its checks in the order 1, 2, 3, 6 and the first that fails decides the error; the early
errors write only `VALID`, `PAY_LEN` and `ERR`; from check 5 on `GOT4`, `CRC`, `CRC4` and the payload are written too; the
elements of `PAY` at or beyond `PAY_LEN` are open (R72, R259); its refusals, made before the checks and for a text above
`TXT_MAX` too by log entry 12. -/
def Obligations.DeframeChecksInOrder : Prop :=
  ∀ s : State, memWf s = true →
    let len := s.txtLen
    let text := (List.range len).map fun j => readCell j s.txt
    (s.ready = false → exec .deframe s = .refused .notConstructed) ∧
    (s.ready = true → s.params.txtMax < len ∨ s.params.payMax + 11 < len → exec .deframe s = .refused .capacity) ∧
    (s.ready = true → len ≤ s.params.txtMax → len ≤ s.params.payMax + 11 →
      let endsEarly := fun e : Err =>
        ∃ t, exec .deframe s = .next t ∧ t = { s with valid := false, payLen := 0, err := e, pay := t.pay } ∧
          ∀ i, isOpen i t.pay
      (len < 11 → endsEarly .frameShort) ∧
      (11 ≤ len → text.take 4 ≠ [0x4B, 0x4B, 0x4B, 0x20] →
        endsEarly .noPreamble) ∧
      (11 ≤ len → text.take 4 = [0x4B, 0x4B, 0x4B, 0x20] → text.drop (len - 3) ≠ [0x20, 0x41, 0x52] →
        endsEarly .noProsign) ∧
      (11 ≤ len → text.take 4 = [0x4B, 0x4B, 0x4B, 0x20] → text.drop (len - 3) = [0x20, 0x41, 0x52] →
        let payload := (text.take (len - 7)).drop 4
        let crc4 := encodeCrc s.params (crc32Of s.params payload)
        ∃ t, exec .deframe s = .next t ∧
          t = { s with
                valid := t.valid, payLen := len - 11, err := t.err, got4 := t.got4,
                crc := crc32Of s.params payload, crc4 := crc4, pay := t.pay } ∧
          t.got4.toList = (text.take (len - 3)).drop (len - 7) ∧
          (List.range (len - 11)).map (fun i => readCell i t.pay) = payload ∧
          (∀ i, len - 11 ≤ i → isOpen i t.pay) ∧
          (crc4 = t.got4 → t.valid = true ∧ t.err = .none) ∧
          (crc4 ≠ t.got4 → t.valid = false ∧ t.err = .crcMismatch)))

/-- R257: `E_BODY_SHORT` is unreachable: no `DEFRAME` and no `DECODE` ends with it, and a text that passed check 1 has a body
of at least 4 characters. -/
def Obligations.BodyShortUnreachable : Prop :=
  (∀ (i : Instr) (s t : State), (i = .deframe ∨ i = .decode) → exec i s = .next t → t.err ≠ .bodyShort) ∧
  ∀ text : List Byte, 11 ≤ text.length → (bodyOf text).length = text.length - 7 ∧ 4 ≤ (bodyOf text).length

/-- R251: framing a payload and deframing the text gives the payload back as valid, for every byte string and every choice
of `CRC32_ALG` and `ENCODE_CRC`. -/
def Obligations.FrameThenDeframeReturnsPayload : Prop :=
  ∀ s : State, memWf s = true → s.ready = true → s.payLen ≤ s.params.payMax → s.payLen + 11 ≤ s.params.txtMax →
    ∃ t u, exec .frame s = .next t ∧ exec .deframe t = .next u ∧ u.valid = true ∧ u.err = .none ∧
      u.payLen = s.payLen ∧ u.got4 = t.crc4 ∧ u.crc4 = t.crc4 ∧
      ∀ i, i < s.payLen → readCell i u.pay = readCell i s.pay

/-- R260: in a text that deframes as valid, a change of one character of `<crc4>` always gives a CRC mismatch; a change of one
character of the payload gives one unless the new payload has the old CRC text. -/
def Obligations.OneChangedCharacterIsCaught : Prop :=
  ∀ (s t : State) (j : Nat) (v : Byte), Inv s → exec .deframe s = .next t → t.valid = true →
    v ≠ readCell j s.txt →
    let s' := { s with txt := writeCell j v s.txt }
    (s.txtLen - 7 ≤ j → j < s.txtLen - 3 →
      ∃ t', exec .deframe s' = .next t' ∧ t'.valid = false ∧ t'.err = .crcMismatch ∧ t'.crc4 = t.crc4 ∧
        t'.payLen = t.payLen ∧ ∀ i, i < t.payLen → readCell i t'.pay = readCell i t.pay) ∧
    (4 ≤ j → j < s.txtLen - 7 →
      ∃ t', exec .deframe s' = .next t' ∧ t'.got4 = t.got4 ∧
        (t'.crc4 ≠ t.crc4 → t'.valid = false ∧ t'.err = .crcMismatch) ∧
        (t'.crc4 = t.crc4 → t'.valid = true ∧ t'.err = .none))

/-- R260: under the default CRC a change of one character always changes the 32-bit CRC. -/
def Obligations.CrcSeesEverySingleChange : Prop :=
  ∀ (xs : List Byte) (i : Nat) (h : i < xs.length) (v : Byte), v ≠ xs[i] →
    crc32Ieee (xs.set i v) ≠ crc32Ieee xs

/-! ## DECODE -/

/-- R281, R286, R303, R304: a `DECODE` ends in one of its three stages, with the errors of that stage: at Goertzel error 1 and
no artifact, at MorseDecode error 2 and tone bits but no text, at Deframe no error or one of 3, 4, 5, 7; `VALID` exactly
with no error. It completes wherever the capacities suffice and, if there is a block, every sample of a block is finite and
the chip does not refuse the contested band there. -/
def Obligations.DecodeEndsInOneStage : Prop :=
  (∀ s t : State, exec .decode s = .next t →
    (t.valid = true ↔ t.err = .none) ∧
    ((t.stage = .goertzel ∧ t.err = .noBlocks ∧ t.bitsLen = 0 ∧ t.runsLen = 0 ∧ t.txtLen = 0 ∧ t.payLen = 0) ∨
      (t.stage = .morseDecode ∧ t.err = .noText ∧ t.bitsLen ≠ 0 ∧ t.txtLen = 0 ∧ t.payLen = 0) ∨
      (t.stage = .deframe ∧ t.bitsLen ≠ 0 ∧ t.txtLen ≠ 0 ∧
        (t.err = .none ∨ t.err = .crcMismatch ∨
          (t.err ∈ [Err.frameShort, .noPreamble, .noProsign] ∧ t.payLen = 0 ∧ t.crc = s.crc ∧ t.crc4 = s.crc4 ∧
            t.got4 = s.got4))))) ∧
  ∀ s : State, memWf s = true → s.ready = true → s.pcmLen ≤ s.params.pcmMax →
    (s.n ≠ 0 → s.n.toNat ≤ s.pcmLen →
      let nb := s.pcmLen / s.n.toNat
      nb ≤ s.params.bitsMax ∧ nb + 1 ≤ s.params.txtMax ∧ nb + 1 ≤ s.params.payMax + 11 ∧
        (∀ i, i < nb * s.n.toNat → isFinite32 (readCell i s.pcm) = true) ∧
        (s.params.autoZero = .literal ∨ 0 < s.theta.value ∨
          (medianOf s.params ((List.range nb).map fun b =>
            blockPower s.params.ops s.c
              ((List.range s.n.toNat).map fun i => readCell (b * s.n.toNat + i) s.pcm))).value ≠ 0)) →
    ∃ t, exec .decode s = .next t

/-- R282: with no block to analyse `DECODE` ends at stage Goertzel with error 1, every artifact length 0 and `VALID` 0, and
`MAGS`, `THON`, `THOFF`, `ST` as before; the empty spaces have no element any more (R72). -/
def Obligations.DecodeOfEmptyCapture : Prop :=
  ∀ s : State, s.ready = true → s.pcmLen ≤ s.params.pcmMax →
    (s.pcmLen = 0 ∨ s.n = 0 ∨ s.pcmLen < s.n.toNat) →
    ∃ t, exec .decode s = .next t ∧
      t = { s with
            stage := .goertzel, err := .noBlocks, bitsLen := 0, runsLen := 0, txtLen := 0, payLen := 0,
            valid := false, bits := t.bits, runs := t.runs, txt := t.txt, pay := t.pay } ∧
      ∀ i, isOpen i t.bits ∧ isOpen i t.runs ∧ isOpen i t.txt ∧ isOpen i t.pay

/-- R283: with an explicit threshold above every block power `DECODE` ends at stage MorseDecode with error 2; the tone bits,
the powers, both thresholds and the one OFF run are there, the text and the payload are empty, their elements open (R72). -/
def Obligations.DecodeOfSilentCapture : Prop :=
  ∀ s : State, memWf s = true → s.ready = true → s.n ≠ 0 → s.n.toNat ≤ s.pcmLen → s.pcmLen ≤ s.params.pcmMax →
    let nb := s.pcmLen / s.n.toNat
    nb ≤ s.params.bitsMax →
    (∀ i, i < nb * s.n.toNat → isFinite32 (readCell i s.pcm) = true) →
    0 < s.theta.value →
    let power := fun b =>
      blockPower s.params.ops s.c ((List.range s.n.toNat).map fun i => readCell (b * s.n.toNat + i) s.pcm)
    (∀ b, b < nb → (power b).value < s.theta.value) →
    ∃ t, exec .decode s = .next t ∧ t.stage = .morseDecode ∧ t.err = .noText ∧ t.valid = false ∧
      t.bitsLen = nb ∧ (∀ b, b < nb → readCell b t.bits = false ∧ readCell b t.mags = power b) ∧
      t.thon = s.theta ∧ t.thoff = s.params.ops.mul (s.params.ops.ofRat (7 / 10)) s.theta ∧ t.st = false ∧
      t.runsLen = 1 ∧ readCell 0 t.runs = ⟨false, nb⟩ ∧ t.txtLen = 0 ∧ t.payLen = 0 ∧ ∀ i, isOpen i t.txt ∧ isOpen i t.pay

/-- R290, R281: `DECODE` is the sequence `DETECT`, then `DEMOD` if there are tone bits, then `DEFRAME` if there is text: where
that sequence completes, `DECODE` completes with the same state but for `STAGE`, the errors 1 and 2, the lengths and flags
that R288 clears, and the free values of the open elements; where one of the three is refused, `DECODE` is refused for the
same reason. -/
def Obligations.DecodeIsTheStagedSequence : Prop :=
  ∀ s : State,
    (∀ r, exec .detect s = .refused r → exec .decode s = .refused r) ∧
    ∀ a, exec .detect s = .next a →
      (a.bitsLen = 0 →
        ∃ d, exec .decode s = .next d ∧
          SameButOpen
            { a with
              stage := .goertzel, err := .noBlocks, valid := false, runsLen := 0, txtLen := 0, payLen := 0
              runs := forget 0 a.runs, txt := forget 0 a.txt, pay := forget 0 a.pay } d) ∧
      (a.bitsLen ≠ 0 →
        (∀ r, exec .demod a = .refused r → exec .decode s = .refused r) ∧
        ∀ b, exec .demod a = .next b →
          (b.txtLen = 0 →
            ∃ d, exec .decode s = .next d ∧
              SameButOpen
                { b with stage := .morseDecode, err := .noText, valid := false, payLen := 0, pay := forget 0 b.pay }
                d) ∧
          (b.txtLen ≠ 0 →
            (∀ r, exec .deframe b = .refused r → exec .decode s = .refused r) ∧
            ∀ c, exec .deframe b = .next c →
              ∃ d, exec .decode s = .next d ∧ SameButOpen { c with stage := .deframe } d))

/-- R289, R343: the result of `DECODE` depends only on `PCM[0..PCM_LEN]`, the configuration, the derived registers and the
parameters: two states that agree on them end in the same stage with the same error, artifacts and verdict. -/
def Obligations.DecodeIsStateless : Prop :=
  ∀ s s' t : State, memWf s = true → memWf s' = true → s.ready = true → s'.ready = true →
    s.params = s'.params → s.n = s'.n → s.theta = s'.theta → s.c = s'.c → s.dotDash = s'.dotDash →
    s.wordGap = s'.wordGap → s.rtab = s'.rtab → s.pcmLen = s'.pcmLen →
    (∀ i, i < s.pcmLen → readCell i s.pcm = readCell i s'.pcm) → exec .decode s = .next t →
    ∃ t', exec .decode s' = .next t' ∧ t'.stage = t.stage ∧ t'.err = t.err ∧ t'.valid = t.valid ∧
      t'.bitsLen = t.bitsLen ∧ (∀ b, b < t.bitsLen → readCell b t'.bits = readCell b t.bits) ∧
      t'.runsLen = t.runsLen ∧ (∀ r, r < t.runsLen → readCell r t'.runs = readCell r t.runs) ∧
      t'.txtLen = t.txtLen ∧ (∀ j, j < t.txtLen → readCell j t'.txt = readCell j t.txt) ∧
      t'.payLen = t.payLen ∧ (∀ i, i < t.payLen → readCell i t'.pay = readCell i t.pay)

/-! ## Status and tables -/

/-- R130: the fields of `STATUS`, with the codes that R131 gives `STAGE` and R132 gives `ERR`. -/
def Obligations.StatusLayout : Prop :=
  ∀ s : State,
    (status s).getLsbD 0 = s.ready ∧ (status s).getLsbD 1 = s.busy ∧ (status s).getLsbD 2 = s.valid ∧
    (status s).getLsbD 3 = s.st ∧
    ((status s).extractLsb' 4 3).toNat =
      (match s.stage with
      | .none => 0
      | .goertzel => 1
      | .morseDecode => 2
      | .deframe => 3
      | .base43Decode => 4
      | .validate => 5
      | .complete => 6) ∧
    (status s).getLsbD 7 = false ∧
    ((status s).extractLsb' 8 4).toNat =
      (match s.err with
      | .none => 0
      | .noBlocks => 1
      | .noText => 2
      | .frameShort => 3
      | .noPreamble => 4
      | .noProsign => 5
      | .bodyShort => 6
      | .crcMismatch => 7
      | .base43 => 8
      | .validate => 9) ∧
    (status s).extractLsb' 12 20 = 0

/-- R121: the 42 default patterns are distinct, of lengths 1 to 6; seven dots are none of them; the pattern of `+` is
`.-.-.`; of the 126 sequences of length 1 to 6, 42 are keys. -/
def Obligations.DefaultMorseTableProperties : Prop :=
  let keys := (buildRtab Params.default).map Prod.fst
  supportedChars.length = 42 ∧ keys.length = 42 ∧ keys.Nodup ∧
  (∀ pat ∈ keys, 1 ≤ pat.length ∧ pat.length ≤ 6) ∧
  List.replicate 7 Sym.dot ∉ keys ∧
  Params.default.pattern 0x2B = some [.dot, .dash, .dot, .dash, .dot] ∧
  ∃ all : List Pattern, all.Nodup ∧ all.length = 126 ∧
    (∀ pat : Pattern, pat ∈ all ↔ 1 ≤ pat.length ∧ pat.length ≤ 6) ∧
    (all.filter fun pat => decide (pat ∈ keys)).length = 42

/-! ## The whole block -/

/-- R171, R224, R251: the noiseless loopback. On a constructed block in the reference numerics whose unit is `BPU` whole
blocks and whose tone sits on the bin, with an explicit threshold at most the tone's power (less what the rounding of
the samples can take from it), a payload that is framed, keyed into `TIM` by the host, rendered and decoded comes back,
valid. -/
def Obligations.LoopbackReturnsPayload : Prop :=
  ∀ (s f : State) (words : List (List Byte)), Inv s → s.params.numerics = .exactReal → s.ready = true →
    1 ≤ s.bpu.toNat → s.n ≠ 0 → s.spu = s.bpu.toNat * s.n.toNat → s.k * s.fs.toNat = s.n.toNat * s.f0.toNat →
    0 < s.k → 2 * s.k < s.n.toNat →
    0 < s.theta.value → s.theta.value ≤ (0.4 * s.n.toNat - s.n.toNat / 2 ^ 25) ^ 2 →
    exec .frame s = .next f → Keyable s.params words →
    messageText words = (List.range f.txtLen).map (fun j => readCell j f.txt) →
    let units := messageUnits s.params.pattern words
    units.length ≤ s.params.timMax → units.length * s.spu ≤ s.params.pcmMax →
    units.length * s.bpu.toNat ≤ s.params.bitsMax →
    ∀ loaded : State, loaded = { f with tim := loaded.tim, timLen := units.length } → memWf loaded = true →
      (∀ u (h : u < units.length), (0 < (readCell u loaded.tim).toInt ↔ units[u] = true)) →
      ∃ r d, exec .render loaded = .next r ∧ exec .decode r = .next d ∧ d.stage = .deframe ∧ d.err = .none ∧
        d.valid = true ∧ d.payLen = s.payLen ∧ ∀ i, i < s.payLen → readCell i d.pay = readCell i s.pay

/-! ## The CRC text -/

/-- R245, R126: under the default `ENCODE_CRC` and the default Morse table every CRC text can be keyed; whatever `ENCODE_CRC`
is, if its texts can be keyed there are at most 42^4 of them, so two CRCs share one; and the frame of a machine in its
invariant has a CRC text that can be keyed. -/
def Obligations.CrcTextIsKeyable : Prop :=
  (∀ p : Params, p.crcText = .hex4 → p.morse = Morse.international → CrcTextKeyable p) ∧
  (∀ p : Params, CrcTextKeyable p →
    (∃ texts : List Quad, texts.length ≤ 42 ^ 4 ∧ ∀ c : Word, encodeCrc p c ∈ texts) ∧
    ∃ c d : Word, c ≠ d ∧ encodeCrc p c = encodeCrc p d) ∧
  ∀ s t : State, Inv s → exec .frame s = .next t →
    t.crc4.toList.length = 4 ∧
      ∀ x ∈ t.crc4.toList, x ≠ 0x20 ∧ x ∈ supportedChars ∧ (t.params.pattern x).isSome = true

/-! ## Other numerics -/

/-- R148, R161 (with R11 and R15): on a chip of another `NUM`, `INIT` leaves `OMEGA` as a number of that field, and the tone
sample is `rnd32` of 0.8 × sin(`OMEGA` × n) with both products and the sine of that field. How the field computes 2π × `F0` /
`FS` is a free function of it (log entries 2 and 3). -/
def Obligations.OmegaAndToneInOtherNumerics : Prop :=
  ∀ (s t : State) (id : Nat), s.params.numerics = .other id → exec .init s = .next t →
    let field := Config.numOther id
    ∃ omega : RNum, omega = field.omega s.f0.toNat s.fs.toNat ∧ t.omega = .held omega ∧
      ∀ n : Nat,
        tone t.params.ops t.omega n =
          RNum.rnd32 (field.mul (field.ofRat (4 / 5)) (field.sin (field.mul omega (field.ofRat n))))
end

