-- ==== Sys2Proof/Laws/RealValue.lean ====
section
/-! SUPPORT. The exact arithmetic of `Machine/Numerics.lean` computes the real sums, products and cosines that
`RNum.value` reads off its terms (`00_scope.md` R15). -/

namespace Sys2Proof.RNum

open Real

/-- The real number a term list holds. -/
noncomputable def termsValue (ts : List CosTerm) : ℝ :=
  (ts.map fun t => (t.coef : ℝ) * cos (2 * π * (t.turn : ℝ))).sum

theorem value_eq_termsValue (a : RNum) : a.value = termsValue a.terms := rfl

@[simp] theorem termsValue_nil : termsValue [] = 0 := rfl

@[simp] theorem termsValue_cons (t : CosTerm) (ts : List CosTerm) :
    termsValue (t :: ts) = (t.coef : ℝ) * cos (2 * π * (t.turn : ℝ)) + termsValue ts := by
  simp [termsValue]

@[simp] theorem value_zero : RNum.zero.value = 0 := rfl

@[simp] theorem value_ofRat (r : ℚ) : (RNum.ofRat r).value = (r : ℝ) := by
  unfold ofRat
  split <;> simp_all [value_eq_termsValue, zero]

theorem termsValue_mergeTerm (t : CosTerm) (rest : List CosTerm → List CosTerm) (v : ℝ)
    (hrest : ∀ us, termsValue (rest us) = v + termsValue us) (us : List CosTerm) :
    termsValue (mergeTerm t rest us) = (t.coef : ℝ) * cos (2 * π * (t.turn : ℝ)) + v + termsValue us := by
  induction us with
  | nil => simp [mergeTerm, hrest]
  | cons u us ih =>
    unfold mergeTerm
    split
    · simp [ih]; ring
    · split
      · rename_i heq
        split
        · rename_i h0
          have : (t.coef : ℝ) + (u.coef : ℝ) = 0 := by exact_mod_cast h0
          rw [hrest, termsValue_cons, heq]
          linear_combination (-cos (2 * π * (t.turn : ℝ))) * this
        · simp [hrest, heq]; ring
      · simp [hrest]; ring

theorem termsValue_addTerms (ts us : List CosTerm) :
    termsValue (addTerms ts us) = termsValue ts + termsValue us := by
  induction ts generalizing us with
  | nil => simp [addTerms]
  | cons t ts ih => rw [addTerms, termsValue_mergeTerm t _ _ ih]; simp

@[simp] theorem value_add (a b : RNum) : (add a b).value = a.value + b.value :=
  termsValue_addTerms a.terms b.terms

@[simp] theorem value_scale (r : ℚ) (a : RNum) : (scale r a).value = (r : ℝ) * a.value := by
  unfold scale
  split
  · simp_all
  · simp only [value, List.map_map, ← List.sum_map_mul_left]
    congr 1
    refine List.map_congr_left fun t _ => ?_
    simp [mul_assoc]

@[simp] theorem value_sub (a b : RNum) : (sub a b).value = a.value - b.value := by
  simp [sub, sub_eq_add_neg]

theorem cos_turn_fract (q : ℚ) : cos (2 * π * ((q - q.floor : ℚ) : ℝ)) = cos (2 * π * (q : ℝ)) := by
  have : 2 * π * ((q - q.floor : ℚ) : ℝ) = 2 * π * (q : ℝ) - (q.floor : ℤ) * (2 * π) := by
    push_cast; ring
  rw [this, cos_sub_int_mul_two_pi]

/-- Folding keeps the cosine up to the sign it returns. -/
theorem cos_foldTurn (q : ℚ) :
    ((foldTurn q).2 : ℝ) * cos (2 * π * ((foldTurn q).1 : ℝ)) = cos (2 * π * (q : ℝ)) := by
  rw [← cos_turn_fract q]
  generalize hf : q - q.floor = f
  have half : ∀ g : ℚ, cos (2 * π * ((1 / 2 - g : ℚ) : ℝ)) = -cos (2 * π * (g : ℝ)) := fun g => by
    rw [← cos_pi_sub]; congr 1; push_cast; ring
  have whole : ∀ g : ℚ, cos (2 * π * ((1 - g : ℚ) : ℝ)) = cos (2 * π * (g : ℝ)) := fun g => by
    rw [← cos_two_pi_sub]; congr 1; push_cast; ring
  simp only [foldTurn, hf]
  split <;> split <;> simp only [half, whole] <;> push_cast <;> ring

/-- The folded turn lies in [0, 1/4] and the sign is 1 or −1. -/
theorem foldTurn_range (q : ℚ) :
    0 ≤ (foldTurn q).1 ∧ (foldTurn q).1 ≤ 1 / 4 ∧ ((foldTurn q).2 = 1 ∨ (foldTurn q).2 = -1) := by
  have h0 : (q.floor : ℚ) ≤ q := Int.floor_le q
  have h1 : q < q.floor + 1 := Int.lt_floor_add_one q
  simp only [foldTurn]
  split <;> split <;> simp only [true_or, or_true, and_true] <;> constructor <;> linarith

@[simp] theorem value_cosTurn (q : ℚ) : (cosTurn q).value = cos (2 * π * (q : ℝ)) := by
  rw [← cos_foldTurn q]
  unfold cosTurn
  generalize foldTurn q = p
  obtain ⟨g, s⟩ := p
  simp only
  split
  · rename_i h
    have : 2 * π * ((g : ℚ) : ℝ) = π / 2 := by rw [h]; push_cast; ring
    rw [this]; simp
  · split
    · rename_i h
      have : 2 * π * ((g : ℚ) : ℝ) = π / 3 := by rw [h]; push_cast; ring
      rw [this, cos_pi_div_three]; simp; ring
    · simp [value_eq_termsValue]

theorem value_mulTerm (t u : CosTerm) : (mulTerm t u).value =
    (t.coef : ℝ) * cos (2 * π * (t.turn : ℝ)) * ((u.coef : ℝ) * cos (2 * π * (u.turn : ℝ))) := by
  have hadd : 2 * π * ((t.turn + u.turn : ℚ) : ℝ) = 2 * π * (t.turn : ℝ) + 2 * π * (u.turn : ℝ) := by
    push_cast; ring
  have hsub : 2 * π * ((t.turn - u.turn : ℚ) : ℝ) = 2 * π * (t.turn : ℝ) - 2 * π * (u.turn : ℝ) := by
    push_cast; ring
  simp only [mulTerm, value_scale, value_add, value_cosTurn, hadd, hsub, cos_add, cos_sub]
  push_cast; ring

@[simp] theorem value_mul (a b : RNum) : (mul a b).value = a.value * b.value := by
  have inner : ∀ (t : CosTerm) (us : List CosTerm) (acc : RNum),
      (us.foldr (fun u acc' => add (mulTerm t u) acc') acc).value =
        (t.coef : ℝ) * cos (2 * π * (t.turn : ℝ)) * termsValue us + acc.value := by
    intro t us acc
    induction us with
    | nil => simp
    | cons u us ih => simp only [List.foldr_cons, value_add, ih, value_mulTerm, termsValue_cons]; ring
  have outer : ∀ ts : List CosTerm,
      (ts.foldr (fun t acc => b.terms.foldr (fun u acc' => add (mulTerm t u) acc') acc) zero).value =
        termsValue ts * b.value := by
    intro ts
    induction ts with
    | nil => simp
    | cons t ts ih => rw [List.foldr_cons, inner, ih, termsValue_cons, value_eq_termsValue b]; ring
  exact outer a.terms

/-- `C = 2 cos (2π k / n)` (`40_config.md` R146). -/
theorem value_twoCos (k n : Nat) : (NumOps.exact.twoCos k n).value = 2 * cos (2 * π * k / n) := by
  simp only [NumOps.exact, value_scale, value_cosTurn, Rat.mkRat_eq_div]
  push_cast
  congr 2
  ring

/-- `sin (OMEGA × n)` (`41_render.md` R161). -/
theorem value_sin (f0 fs n : Nat) :
    (NumOps.exact.sin (NumOps.exact.times (NumOps.exact.omega f0 fs) n)).value =
      Real.sin ((NumOps.exact.omega f0 fs).value * n) := by
  simp only [NumOps.exact, Angle.timesExact, Angle.sinExact, value_cosTurn, Rat.mkRat_eq_div, Angle.value]
  rw [← cos_sub_pi_div_two]
  congr 1
  push_cast
  ring

end Sys2Proof.RNum
end

