-- ==== Sys2Proof/Laws/Approx.lean ====
section
/-! SUPPORT. The fixed-point cosine of `Machine/Numerics.lean` is within `errUnits` of the real one, so the sign
that a precision shows is the sign of the real number. -/

namespace Sys2Proof.RNum

open Real Finset

/-! ## Alternating sums -/

theorem altSum_eq (f : Nat → Nat) (n : Nat) :
    ((altSum f n : Int) : ℝ) = ∑ i ∈ range n, (-1 : ℝ) ^ i * (f i : ℝ) := by
  induction n with
  | zero => simp [altSum]
  | succ n ih =>
    rw [sum_range_succ, ← ih, altSum]
    rcases Nat.even_or_odd n with h | h
    · simp [Nat.even_iff.mp h, h.neg_one_pow]
    · simp [Nat.odd_iff.mp h, h.neg_one_pow]; ring

/-- Rounding every term down changes an alternating sum of `n` terms by at most `n`. -/
theorem altSum_close (f : Nat → Nat) (g : Nat → ℝ) (hf : ∀ i, |(f i : ℝ) - g i| ≤ 1) (n : Nat) :
    |((altSum f n : Int) : ℝ) - ∑ i ∈ range n, (-1 : ℝ) ^ i * g i| ≤ n := by
  rw [altSum_eq, ← sum_sub_distrib]
  refine (abs_sum_le_sum_abs _ _).trans ?_
  have : ∀ i ∈ range n, |(-1 : ℝ) ^ i * (f i : ℝ) - (-1) ^ i * g i| ≤ 1 := fun i _ => by
    rw [← mul_sub, abs_mul, abs_pow, abs_neg, abs_one, one_pow, one_mul]
    exact hf i
  simpa using sum_le_sum this

/-- The error of a partial sum of an alternating series is at most the next term. -/
theorem alternating_error {g : Nat → ℝ} {l : ℝ} (hg : Antitone g)
    (hl : Filter.Tendsto (fun n => ∑ i ∈ range n, (-1 : ℝ) ^ i * g i) Filter.atTop (nhds l)) (n : Nat) :
    |(∑ i ∈ range n, (-1 : ℝ) ^ i * g i) - l| ≤ g n := by
  rcases Nat.even_or_odd' n with ⟨k, rfl | rfl⟩
  · have h1 := hg.alternating_series_le_tendsto hl k
    have h2 := hg.tendsto_le_alternating_series hl k
    rw [sum_range_succ] at h2
    simp only [pow_mul, even_two, Even.neg_pow, one_pow, one_mul] at h1 h2 ⊢
    rw [abs_le]; constructor <;> linarith
  · have h1 := hg.alternating_series_le_tendsto hl (k + 1)
    have h2 := hg.tendsto_le_alternating_series hl k
    rw [show 2 * (k + 1) = 2 * k + 1 + 1 by ring, sum_range_succ] at h1
    have : (-1 : ℝ) ^ (2 * k + 1) = -1 := by rw [pow_succ, pow_mul]; simp
    rw [this] at h1
    rw [abs_le]; constructor <;> linarith

/-- A natural quotient is within 1 of the real one. -/
theorem nat_div_close (a b : Nat) : |((a / b : Nat) : ℝ) - (a : ℝ) / b| ≤ 1 := by
  have h := Nat.floor_div_eq_div (K := ℝ) a b
  rw [← h, abs_le]
  constructor
  · have := Nat.lt_floor_add_one ((a : ℝ) / b); linarith
  · have := Nat.floor_le (show 0 ≤ (a : ℝ) / b by positivity); linarith

/-! ## The constant π -/

theorem arctanInv_close (p m : Nat) (hm : 5 ≤ m) :
    |((arctanInv p m : Int) : ℝ) - 2 ^ p * arctan ((m : ℝ)⁻¹)| ≤ (p / 4 : Nat) + 2 := by
  set n := p / 4 + 1 with hn
  have hm0 : (5 : ℝ) ≤ m := by exact_mod_cast hm
  let g : Nat → ℝ := fun k => 2 ^ p * ((m : ℝ)⁻¹ ^ (2 * k + 1) / (2 * k + 1))
  have hinv : (m : ℝ)⁻¹ ≤ 1 := by
    rw [inv_le_one₀ (by linarith)]; linarith
  have hanti : Antitone g := by
    refine antitone_nat_of_succ_le fun k => ?_
    simp only [g]
    refine mul_le_mul_of_nonneg_left ?_ (by positivity)
    have h1 : (m : ℝ)⁻¹ ^ (2 * (k + 1) + 1) ≤ (m : ℝ)⁻¹ ^ (2 * k + 1) :=
      pow_le_pow_of_le_one (by positivity) hinv (by omega)
    refine div_le_div₀ (by positivity) h1 (by positivity) (by push_cast; linarith)
  have hlim : Filter.Tendsto (fun n => ∑ i ∈ range n, (-1 : ℝ) ^ i * g i) Filter.atTop
      (nhds (2 ^ p * arctan ((m : ℝ)⁻¹))) := by
    have hlt : |(m : ℝ)⁻¹| < 1 := by
      rw [abs_of_nonneg (by positivity)]; exact inv_lt_one_of_one_lt₀ (by linarith)
    have h := (Real.hasSum_arctan (x := (m : ℝ)⁻¹) (by simpa using hlt)).tendsto_sum_nat.const_mul ((2 : ℝ) ^ p)
    refine h.congr fun n => ?_
    rw [mul_sum]
    refine sum_congr rfl fun i _ => ?_
    simp only [g]; push_cast; ring
  have hclose := altSum_close (fun k => 2 ^ p / ((2 * k + 1) * m ^ (2 * k + 1))) g (fun k => by
    have := nat_div_close (2 ^ p) ((2 * k + 1) * m ^ (2 * k + 1))
    have e : ((2 ^ p : Nat) : ℝ) / (((2 * k + 1) * m ^ (2 * k + 1) : Nat) : ℝ) = g k := by
      simp only [g, inv_pow]; push_cast; field_simp
    rwa [e] at this) n
  have herr := alternating_error hanti hlim n
  have hgn : g n ≤ 1 := by
    have h1 : (2 : ℝ) ^ p ≤ (m : ℝ) ^ (2 * n + 1) := by
      calc (2 : ℝ) ^ p ≤ 2 ^ (2 * (2 * n + 1)) := pow_le_pow_right₀ (by norm_num) (by omega)
        _ = 4 ^ (2 * n + 1) := by rw [pow_mul]; norm_num
        _ ≤ (m : ℝ) ^ (2 * n + 1) := pow_le_pow_left₀ (by norm_num) (by linarith) _
    have hpos : (0 : ℝ) < (m : ℝ) ^ (2 * n + 1) := by positivity
    have h2 : g n = 2 ^ p / (m : ℝ) ^ (2 * n + 1) / (2 * n + 1) := by
      simp only [g]; rw [inv_pow]; field_simp
    rw [h2]
    have h3 : (2 : ℝ) ^ p / (m : ℝ) ^ (2 * n + 1) ≤ 1 := (div_le_one hpos).mpr h1
    refine (div_le_one (by positivity)).mpr (h3.trans ?_)
    have : (0 : ℝ) ≤ n := by positivity
    linarith
  have hnum : (n : ℝ) = (p / 4 : Nat) + 1 := by rw [hn]; push_cast; ring
  unfold arctanInv
  rw [← hn]
  calc _ ≤ _ + _ := abs_sub_le _ (∑ i ∈ range n, (-1 : ℝ) ^ i * g i) _
    _ ≤ (n : ℝ) + 1 := add_le_add hclose (herr.trans hgn)
    _ = _ := by rw [hnum]; ring

theorem piFix_close (p : Nat) : |((piFix p : Int) : ℝ) - 2 ^ p * π| ≤ 5 * p + 40 := by
  have h5 := arctanInv_close p 5 le_rfl
  have h239 := arctanInv_close p 239 (by norm_num)
  have hm : π = 16 * arctan ((5 : ℕ) : ℝ)⁻¹ - 4 * arctan ((239 : ℕ) : ℝ)⁻¹ := by
    have := four_mul_arctan_inv_5_sub_arctan_inv_239
    push_cast; linarith
  have hp : ((p / 4 : Nat) : ℝ) ≤ p / 4 := Nat.cast_div_le
  rw [abs_le] at *
  unfold piFix
  push_cast at *
  generalize arctan 5⁻¹ = A at *
  generalize arctan 239⁻¹ = B at *
  rw [hm]
  constructor <;> nlinarith

/-! ## The cosine of a folded turn -/

theorem four_pow_le_factorial (m : Nat) (hm : 8 ≤ m) : 2 ^ (2 * m - 7) ≤ m.factorial := by
  induction m, hm using Nat.le_induction with
  | base => decide
  | succ m hm ih =>
    have e : 2 * (m + 1) - 7 = 2 * m - 7 + 2 := by omega
    rw [e, pow_add, Nat.factorial_succ]
    nlinarith

/-- The Taylor sum of `Machine/Numerics.lean` at `x / 2^p ≤ 2`. -/
theorem taylor_close (p x : Nat) (hx : (x : ℝ) / 2 ^ p ≤ 2) :
    |((altSum (fun k => x ^ (2 * k) * 2 ^ p / (2 ^ (2 * k * p) * (2 * k).factorial)) (p / 2 + 4) : Int) : ℝ) -
      2 ^ p * cos (x / 2 ^ p)| ≤ (p / 2 : Nat) + 5 := by
  set y : ℝ := x / 2 ^ p with hy
  have hy0 : 0 ≤ y := by positivity
  have hy2 : y ^ 2 ≤ 4 := by nlinarith
  let g : Nat → ℝ := fun k => 2 ^ p * (y ^ (2 * k) / (2 * k).factorial)
  have hclose := altSum_close (fun k => x ^ (2 * k) * 2 ^ p / (2 ^ (2 * k * p) * (2 * k).factorial)) g
    (fun k => by
      have := nat_div_close (x ^ (2 * k) * 2 ^ p) (2 ^ (2 * k * p) * (2 * k).factorial)
      have e : ((x ^ (2 * k) * 2 ^ p : Nat) : ℝ) / ((2 ^ (2 * k * p) * (2 * k).factorial : Nat) : ℝ) = g k := by
        simp only [g, hy, div_pow, ← pow_mul]
        push_cast
        rw [show p * (2 * k) = 2 * k * p by ring]
        field_simp
      rwa [e] at this) (p / 2 + 4)
  -- the series from its second term on is alternating with falling terms
  let h : Nat → ℝ := fun k => g (k + 1)
  have hanti : Antitone h := by
    refine antitone_nat_of_succ_le fun k => ?_
    simp only [h, g]
    refine mul_le_mul_of_nonneg_left ?_ (by positivity)
    have e1 : y ^ (2 * (k + 1 + 1)) = y ^ (2 * (k + 1)) * y ^ 2 := by rw [← pow_add]; ring_nf
    have e2 : ((2 * (k + 1 + 1)).factorial : ℝ) =
        (2 * (k + 1)).factorial * ((2 * k + 3) * (2 * k + 4)) := by
      rw [show 2 * (k + 1 + 1) = 2 * (k + 1) + 1 + 1 by ring, Nat.factorial_succ, Nat.factorial_succ]
      push_cast; ring
    rw [e1, e2, mul_div_mul_comm]
    refine mul_le_of_le_one_right (by positivity) ?_
    rw [div_le_one (by positivity)]
    have : (0 : ℝ) ≤ k := by positivity
    nlinarith
  have hlim : Filter.Tendsto (fun n => ∑ i ∈ range n, (-1 : ℝ) ^ i * h i) Filter.atTop
      (nhds (2 ^ p * (1 - cos y))) := by
    have h0 := (Real.hasSum_cos y).tendsto_sum_nat
    have h1 := (Filter.tendsto_add_atTop_iff_nat 1).mpr h0
    have h2 := ((tendsto_const_nhds (x := (1 : ℝ))).sub h1).const_mul ((2 : ℝ) ^ p)
    refine h2.congr fun n => ?_
    rw [sum_range_succ']
    simp only [mul_zero, pow_zero, Nat.factorial_zero, Nat.cast_one, mul_one, div_one, sub_add_cancel_right]
    rw [mul_neg, mul_sum, ← sum_neg_distrib]
    refine sum_congr rfl fun i _ => ?_
    simp only [h, g, pow_succ]; ring
  have herr := alternating_error hanti hlim (p / 2 + 3)
  have hsum : ∑ i ∈ range (p / 2 + 4), (-1 : ℝ) ^ i * g i =
      2 ^ p - ∑ i ∈ range (p / 2 + 3), (-1 : ℝ) ^ i * h i := by
    rw [sum_range_succ', sub_eq_neg_add, ← sum_neg_distrib]
    congr 1
    · refine sum_congr rfl fun i _ => ?_
      simp only [h, pow_succ]; ring
    · simp [g]
  have hlast : h (p / 2 + 3) ≤ 1 := by
    simp only [h, g]
    set m := p / 2 + 3 + 1 with hm
    have h1 : (2 : ℝ) ^ p * y ^ (2 * m) ≤ 2 ^ (2 * (2 * m) - 7) := by
      have ha : (2 : ℝ) ^ p ≤ 2 ^ (2 * m - 7) := pow_le_pow_right₀ (by norm_num) (by omega)
      have hb : y ^ (2 * m) ≤ 2 ^ (2 * m) := by
        rw [pow_mul, pow_mul]; exact pow_le_pow_left₀ (by positivity) (by linarith) m
      calc (2 : ℝ) ^ p * y ^ (2 * m) ≤ 2 ^ (2 * m - 7) * 2 ^ (2 * m) := by gcongr
        _ = 2 ^ (2 * (2 * m) - 7) := by rw [← pow_add]; congr 1; omega
    have h2 : ((2 : ℝ) ^ (2 * (2 * m) - 7)) ≤ ((2 * m).factorial : ℝ) := by
      exact_mod_cast four_pow_le_factorial (2 * m) (by omega)
    rw [← mul_div_assoc, div_le_one (by positivity)]
    exact h1.trans h2
  have hfin : |(∑ i ∈ range (p / 2 + 4), (-1 : ℝ) ^ i * g i) - 2 ^ p * cos y| ≤ 1 := by
    rw [hsum]
    have : 2 ^ p - (∑ i ∈ range (p / 2 + 3), (-1 : ℝ) ^ i * h i) - 2 ^ p * cos y =
        -((∑ i ∈ range (p / 2 + 3), (-1 : ℝ) ^ i * h i) - 2 ^ p * (1 - cos y)) := by ring
    rw [this, abs_neg]
    exact herr.trans hlast
  calc _ ≤ _ + _ := abs_sub_le _ (∑ i ∈ range (p / 2 + 4), (-1 : ℝ) ^ i * g i) _
    _ ≤ ((p / 2 + 4 : Nat) : ℝ) + 1 := add_le_add hclose hfin
    _ = _ := by push_cast; ring

/-- `cosFix` at a turn in [0, 1/4] is within `errUnits` of the real cosine. -/
theorem cosFix_close (p : Nat) (hp : 16 ≤ p) (q : ℚ) (h0 : 0 ≤ q) (h1 : q ≤ 1 / 4) :
    |((cosFix p (piFix p) q : Int) : ℝ) - 2 ^ p * cos (2 * π * (q : ℝ))| ≤ errUnits p := by
  have hq0 : (0 : ℝ) ≤ q := by exact_mod_cast h0
  have hq1 : (q : ℝ) ≤ 1 / 4 := by
    have : ((q : ℚ) : ℝ) ≤ ((1 / 4 : ℚ) : ℝ) := by exact_mod_cast h1
    simpa using this
  have hpi := piFix_close p
  set z := (2 * q * piFix p).floor with hz
  set x := z.toNat with hx
  -- the argument of the series, in units of 2^-p
  have hz1 : (z : ℝ) ≤ 2 * q * piFix p := by
    have : ((z : ℤ) : ℚ) ≤ 2 * q * piFix p := Int.floor_le _
    exact_mod_cast this
  have hz2 : 2 * q * (piFix p : ℝ) < z + 1 := by
    have : 2 * q * (piFix p : ℚ) < (z : ℤ) + 1 := Int.lt_floor_add_one _
    exact_mod_cast this
  have hmul : |2 * q * (piFix p : ℝ) - 2 ^ p * (2 * π * q)| ≤ (5 * p + 40) / 2 := by
    have e : 2 * q * (piFix p : ℝ) - 2 ^ p * (2 * π * q) = 2 * q * ((piFix p : ℝ) - 2 ^ p * π) := by ring
    rw [e, abs_mul, abs_of_nonneg (by positivity)]
    have := abs_nonneg ((piFix p : ℝ) - 2 ^ p * π)
    nlinarith
  have hzx : |(x : ℝ) - 2 ^ p * (2 * π * q)| ≤ (5 * p + 40) / 2 + 1 := by
    have hpos : 0 ≤ 2 ^ p * (2 * π * (q : ℝ)) := by positivity
    have hxz : (x : ℝ) = max (z : ℝ) 0 := by
      rw [hx]; exact_mod_cast Int.toNat_eq_max z
    rw [hxz]
    rw [abs_le] at hmul ⊢
    rcases max_cases (z : ℝ) 0 with ⟨e, h⟩ | ⟨e, h⟩ <;> rw [e] <;> constructor <;> linarith
  have h2p : (65536 : ℝ) ≤ 2 ^ p := by
    calc (65536 : ℝ) = 2 ^ 16 := by norm_num
      _ ≤ 2 ^ p := pow_le_pow_right₀ (by norm_num) hp
  have hpp : (p : ℝ) ≤ 2 ^ p / 1024 := by
    have hnat : p * 1024 ≤ 2 ^ p := by
      clear * - hp
      induction p, hp using Nat.le_induction with
      | base => norm_num
      | succ k hk ih => rw [pow_succ]; linarith
    have : (p : ℝ) * 1024 ≤ 2 ^ p := by exact_mod_cast hnat
    linarith
  have hy : |(x : ℝ) / 2 ^ p - 2 * π * q| ≤ ((5 * p + 40) / 2 + 1) / 2 ^ p := by
    have e : (x : ℝ) / 2 ^ p - 2 * π * q = ((x : ℝ) - 2 ^ p * (2 * π * q)) / 2 ^ p := by field_simp
    rw [e, abs_div, abs_of_pos (show (0 : ℝ) < 2 ^ p by positivity)]
    gcongr
  have hy2 : (x : ℝ) / 2 ^ p ≤ 2 := by
    have hb : ((5 * (p : ℝ) + 40) / 2 + 1) / 2 ^ p ≤ 1 / 10 := by
      rw [div_le_iff₀ (by positivity)]; linarith
    have hπ : 2 * π * (q : ℝ) ≤ 1.6 := by
      have := pi_lt_d2
      have := pi_pos
      nlinarith
    rw [abs_le] at hy
    linarith [hy.2]
  have hT := taylor_close p x hy2
  have hC : |2 ^ p * cos (x / 2 ^ p) - 2 ^ p * cos (2 * π * (q : ℝ))| ≤ (5 * p + 40) / 2 + 1 := by
    rw [← mul_sub, abs_mul, abs_of_pos (show (0 : ℝ) < 2 ^ p by positivity)]
    have := (abs_cos_sub_cos_le (x / 2 ^ p) (2 * π * (q : ℝ))).trans hy
    calc _ ≤ (2 : ℝ) ^ p * (((5 * p + 40) / 2 + 1) / 2 ^ p) := by gcongr
      _ = _ := by field_simp
  have hdef : cosFix p (piFix p) q =
      altSum (fun k => x ^ (2 * k) * 2 ^ p / (2 ^ (2 * k * p) * (2 * k).factorial)) (p / 2 + 4) := by
    rw [hx, hz, cosFix]
  rw [hdef]
  clear_value x z
  have hp2 : ((p / 2 : Nat) : ℝ) ≤ p / 2 := Nat.cast_div_le
  calc _ ≤ _ + _ := abs_sub_le _ (2 ^ p * cos (x / 2 ^ p)) _
    _ ≤ ((p / 2 : Nat) + 5) + ((5 * p + 40) / 2 + 1) := add_le_add hT hC
    _ ≤ (errUnits p : ℝ) := by
      unfold errUnits
      push_cast
      have : (0 : ℝ) ≤ p := by positivity
      linarith

/-- The same for any turn. -/
theorem cosTermFix_close (p : Nat) (hp : 16 ≤ p) (q : ℚ) :
    |((cosTermFix p (piFix p) q : Int) : ℝ) - 2 ^ p * cos (2 * π * (q : ℝ))| ≤ errUnits p := by
  obtain ⟨h0, h1, hs⟩ := foldTurn_range q
  have hc := cosFix_close p hp _ h0 h1
  rw [← cos_foldTurn q]
  unfold cosTermFix
  rcases hs with hs | hs <;> rw [hs]
  · have : ¬(1 : ℚ) < 0 := by norm_num
    rw [if_neg this]
    simpa using hc
  · have : (-1 : ℚ) < 0 := by norm_num
    rw [if_pos this]
    push_cast
    rw [← abs_neg]
    convert hc using 2
    ring

/-! ## The whole number -/

theorem den_dvd_coefDen (a : RNum) : ∀ t ∈ a.terms, t.coef.den ∣ coefDen a := by
  unfold coefDen
  induction a.terms with
  | nil => simp
  | cons u us ih =>
    intro t ht
    rcases List.mem_cons.mp ht with rfl | ht
    · exact Nat.dvd_lcm_left _ _
    · exact (ih t ht).trans (Nat.dvd_lcm_right _ _)

theorem coefDen_pos (a : RNum) : 0 < coefDen a := by
  unfold coefDen
  induction a.terms with
  | nil => simp
  | cons u us ih => exact Nat.lcm_pos u.coef.den_pos ih

/-- A coefficient times the common denominator is the integer `intCoef`. -/
theorem intCoef_eq (d : Nat) (t : CosTerm) (h : t.coef.den ∣ d) :
    ((intCoef d t : Int) : ℝ) = d * (t.coef : ℝ) := by
  obtain ⟨k, rfl⟩ := h
  have hd : (t.coef.den : ℝ) ≠ 0 := by exact_mod_cast t.coef.den_nz
  unfold intCoef
  rw [Nat.mul_div_cancel_left _ t.coef.den_pos]
  have hc : (t.coef : ℝ) = t.coef.num / t.coef.den := by exact_mod_cast (Rat.num_div_den t.coef).symm
  rw [hc]
  push_cast
  field_simp

/-- `approx` is `d × 2^p × value` up to `weight × errUnits`. -/
theorem approx_close (p : Nat) (hp : 16 ≤ p) (a : RNum) :
    |((approx p (coefDen a) a : Int) : ℝ) - coefDen a * 2 ^ p * a.value| ≤
      weight (coefDen a) a * errUnits p := by
  have key : ∀ (d : Nat) (ts : List CosTerm), (∀ t ∈ ts, t.coef.den ∣ d) →
      |((ts.foldr (fun t s => intCoef d t * cosTermFix p (piFix p) t.turn + s) 0 : Int) : ℝ) -
        d * 2 ^ p * termsValue ts| ≤
      (ts.foldr (fun t w => (intCoef d t).natAbs + w) 0 : Nat) * errUnits p := by
    intro d ts hts
    induction ts with
    | nil => simp
    | cons t ts ih =>
      have iht := ih fun u hu => hts u (List.mem_cons_of_mem t hu)
      have hc := cosTermFix_close p hp t.turn
      have hi := intCoef_eq d t (hts t List.mem_cons_self)
      simp only [List.foldr_cons, termsValue_cons]
      push_cast
      have e : (intCoef d t : ℝ) * (cosTermFix p (piFix p) t.turn : ℝ) +
            ((ts.foldr (fun t s => intCoef d t * cosTermFix p (piFix p) t.turn + s) 0 : Int) : ℝ) -
            d * 2 ^ p * ((t.coef : ℝ) * cos (2 * π * (t.turn : ℝ)) + termsValue ts) =
          (intCoef d t : ℝ) * ((cosTermFix p (piFix p) t.turn : ℝ) - 2 ^ p * cos (2 * π * (t.turn : ℝ))) +
          (((ts.foldr (fun t s => intCoef d t * cosTermFix p (piFix p) t.turn + s) 0 : Int) : ℝ) -
            d * 2 ^ p * termsValue ts) := by rw [hi]; ring
      rw [e, add_mul]
      refine (abs_add_le _ _).trans (add_le_add ?_ iht)
      rw [abs_mul]
      have : |(intCoef d t : ℝ)| = ((intCoef d t).natAbs : ℝ) := by
        rw [Nat.cast_natAbs]; push_cast; rfl
      rw [this]
      exact mul_le_mul_of_nonneg_left hc (by positivity)
  exact key (coefDen a) a.terms (den_dvd_coefDen a)

/-- The sign a precision shows is the sign of the real number. -/
theorem signAt_sound (p : Nat) (hp : 16 ≤ p) (a : RNum) :
    (signAt p a = some .gt → 0 < a.value) ∧ (signAt p a = some .lt → a.value < 0) ∧
      signAt p a ≠ some .eq := by
  have h := approx_close p hp a
  have hd : (0 : ℝ) < coefDen a * 2 ^ p := by
    have := coefDen_pos a
    positivity
  rw [abs_le] at h
  unfold signAt
  simp only
  split
  · rename_i hlt
    have : ((weight (coefDen a) a * errUnits p : Nat) : ℝ) < approx p (coefDen a) a := by exact_mod_cast hlt
    push_cast at this
    refine ⟨fun _ => ?_, by simp, by simp⟩
    by_contra hn
    have : (coefDen a : ℝ) * 2 ^ p * a.value ≤ 0 := mul_nonpos_of_nonneg_of_nonpos hd.le (not_lt.mp hn)
    linarith [h.2]
  · split
    · rename_i hlt
      have : ((approx p (coefDen a) a : Int) : ℝ) < -((weight (coefDen a) a * errUnits p : Nat) : ℝ) := by
        exact_mod_cast hlt
      push_cast at this
      refine ⟨by simp, fun _ => ?_, by simp⟩
      by_contra hn
      have : 0 ≤ (coefDen a : ℝ) * 2 ^ p * a.value := mul_nonneg hd.le (not_lt.mp hn)
      linarith [h.1]
    · simp

/-- A precision that leaves the sign open bounds the real number. -/
theorem signAt_none (p : Nat) (hp : 16 ≤ p) (a : RNum) (hn : signAt p a = none) :
    coefDen a * 2 ^ p * |a.value| ≤ 2 * (weight (coefDen a) a * errUnits p) := by
  have h := approx_close p hp a
  have hd : (0 : ℝ) < coefDen a * 2 ^ p := by
    have := coefDen_pos a
    positivity
  have hb : |((approx p (coefDen a) a : Int) : ℝ)| ≤ weight (coefDen a) a * errUnits p := by
    unfold signAt at hn
    simp only at hn
    split at hn
    · cases hn
    · split at hn
      · cases hn
      · rename_i h1 h2
        rw [abs_le]
        constructor
        · have : (-(weight (coefDen a) a * errUnits p : Int) : ℝ) ≤ approx p (coefDen a) a := by
            exact_mod_cast not_lt.mp h2
          simpa using this
        · have : ((approx p (coefDen a) a : Int) : ℝ) ≤ (weight (coefDen a) a * errUnits p : Int) := by
            exact_mod_cast not_lt.mp h1
          simpa using this
  have e : (coefDen a : ℝ) * 2 ^ p * |a.value| = |coefDen a * 2 ^ p * a.value| := by
    rw [abs_mul, abs_of_pos hd]
  rw [e]
  rw [abs_le] at h hb
  rw [abs_le]
  constructor <;> linarith [h.1, h.2, hb.1, hb.2]

end Sys2Proof.RNum
end

