-- ==== Sys2Proof/Laws/Construct.lean ====
section
/-! SUPPORT. The reverse table and the derived quantities of `INIT` (`40_config.md`): an injective table is inverted
entry by entry, and the integer formulas are the roundings of `00_scope.md` R12. -/

namespace Sys2Proof.Machine

/-! ## The reverse table (R151) -/

theorem foldl_setEntry_of_nodup (es t : List (Pattern × Byte)) (h : ((t ++ es).map Prod.fst).Nodup) :
    es.foldl setEntry t = t ++ es := by
  induction es generalizing t with
  | nil => simp
  | cons e es ih =>
    have hf : t.filter (fun x => decide (x.1 ≠ e.1)) = t := by
      refine List.filter_eq_self.mpr fun x hx => ?_
      rw [List.map_append, List.nodup_append] at h
      simpa using h.2.2 x.1 (List.mem_map_of_mem hx) e.1 (by simp)
    rw [List.foldl_cons, setEntry, hf, ih _ (by simpa using h)]
    simp

/-- With an injective table the reverse table is its entries, turned round. -/
theorem buildRtab_eq {p : Params} (h : injectiveTable p = true) : buildRtab p = reverseEntries p := by
  have := of_decide_eq_true h
  simpa [buildRtab] using foldl_setEntry_of_nodup (reverseEntries p) [] (by simpa using this)

theorem mem_reverseEntries {p : Params} {pat : Pattern} {c : Byte} :
    (pat, c) ∈ reverseEntries p ↔ c ∈ supportedChars ∧ p.pattern c = some pat := by
  simp only [reverseEntries, List.mem_filterMap, Option.map_eq_some_iff, Prod.mk.injEq]
  constructor
  · rintro ⟨d, hd, q, hq, rfl, rfl⟩
    exact ⟨hd, hq⟩
  · rintro ⟨hc, hp⟩
    exact ⟨c, hc, pat, hp, rfl, rfl⟩

theorem lookup_eq_some_iff_mem {es : List (Pattern × Byte)} (h : (es.map Prod.fst).Nodup) {pat : Pattern} {c : Byte} :
    es.lookup pat = some c ↔ (pat, c) ∈ es := by
  induction es with
  | nil => simp
  | cons e es ih =>
    obtain ⟨q, d⟩ := e
    simp only [List.map_cons, List.nodup_cons] at h
    rw [List.lookup_cons, List.mem_cons]
    by_cases hq : pat = q
    · subst hq
      simp only [BEq.rfl, Option.some.injEq, Prod.mk.injEq, true_and]
      constructor
      · exact fun hd => .inl hd.symm
      · rintro (hd | hm)
        · exact hd.symm
        · exact absurd (List.mem_map.mpr ⟨_, hm, rfl⟩) h.1
    · have : (pat == q) = false := by simpa using hq
      simp only [this, ih h.2, Prod.mk.injEq, hq, false_and, false_or]

/-- What the reverse table holds (R151). -/
theorem buildRtab_lookup {p : Params} (h : injectiveTable p = true) {pat : Pattern} {c : Byte} :
    (buildRtab p).lookup pat = some c ↔ c ∈ supportedChars ∧ p.pattern c = some pat := by
  rw [buildRtab_eq h, lookup_eq_some_iff_mem (of_decide_eq_true h), mem_reverseEntries]

theorem supportedChars_nodup : supportedChars.Nodup := by decide

theorem space_not_supported : (0x20 : Byte) ∉ supportedChars := by decide

/-- The injectivity that `INIT` tests: no two supported characters share a pattern (R151). -/
theorem injectiveTable_iff (p : Params) :
    injectiveTable p = true ↔
      ∀ c ∈ supportedChars, ∀ d ∈ supportedChars, p.pattern c = p.pattern d → p.pattern c ≠ none → c = d := by
  have key : ∀ cs : List Byte, cs.Nodup →
      (((cs.filterMap fun c => (p.pattern c).map fun pat => (pat, c)).map Prod.fst).Nodup ↔
        ∀ c ∈ cs, ∀ d ∈ cs, p.pattern c = p.pattern d → p.pattern c ≠ none → c = d) := by
    intro cs hcs
    induction cs with
    | nil => simp
    | cons a cs ih =>
      rw [List.nodup_cons] at hcs
      have ih := ih hcs.2
      cases ha : p.pattern a with
      | none =>
        rw [List.filterMap_cons, ha, Option.map_none]
        simp only
        rw [ih]
        constructor
        · intro h c hc d hd hcd hn
          rcases List.mem_cons.mp hc with rfl | hc
          · exact absurd ha hn
          · rcases List.mem_cons.mp hd with rfl | hd
            · rw [ha] at hcd; exact absurd hcd hn
            · exact h c hc d hd hcd hn
        · intro h c hc d hd
          exact h c (List.mem_cons_of_mem _ hc) d (List.mem_cons_of_mem _ hd)
      | some q =>
        rw [List.filterMap_cons, ha, Option.map_some]
        simp only [List.map_cons, List.nodup_cons]
        rw [ih]
        have hmem : q ∈ (cs.filterMap fun c => (p.pattern c).map fun pat => (pat, c)).map Prod.fst ↔
            ∃ c ∈ cs, p.pattern c = some q := by
          simp only [List.mem_map, List.mem_filterMap, Option.map_eq_some_iff]
          constructor
          · rintro ⟨⟨x, y⟩, ⟨c, hc, pat, hp, he⟩, rfl⟩
            simp only [Prod.mk.injEq] at he
            exact ⟨c, hc, by rw [hp, he.1]⟩
          · rintro ⟨c, hc, hp⟩
            exact ⟨(q, c), ⟨c, hc, q, hp, rfl⟩, rfl⟩
        rw [hmem]
        constructor
        · rintro ⟨hno, h⟩ c hc d hd hcd hn
          rcases List.mem_cons.mp hc with rfl | hc
          · rcases List.mem_cons.mp hd with rfl | hd
            · rfl
            · exact absurd ⟨d, hd, by rw [← hcd, ha]⟩ hno
          · rcases List.mem_cons.mp hd with rfl | hd
            · exact absurd ⟨c, by assumption, by rw [hcd, ha]⟩ hno
            · exact h c hc d hd hcd hn
        · intro h
          refine ⟨?_, fun c hc d hd => h c (List.mem_cons_of_mem _ hc) d (List.mem_cons_of_mem _ hd)⟩
          rintro ⟨c, hc, hp⟩
          have := h c (List.mem_cons_of_mem _ hc) a List.mem_cons_self (by rw [hp, ha]) (by simp [hp])
          exact hcs.1 (this ▸ hc)
  unfold injectiveTable reverseEntries
  rw [decide_eq_true_eq]
  exact key supportedChars supportedChars_nodup

/-! ## Roundings (R12, R145, R147) -/

/-- `roundHalfUp` is `floor (q + 1/2)`. -/
theorem roundHalfUp_eq (num den : Nat) (hd : 0 < den) :
    (roundHalfUp num den : ℤ) = ⌊(num : ℚ) / (den : ℚ) + 1 / 2⌋ := by
  have hq : (num : ℚ) / (den : ℚ) + 1 / 2 = ((2 * num + den : ℕ) : ℚ) / ((2 * den : ℕ) : ℚ) := by
    have : (den : ℚ) ≠ 0 := by positivity
    push_cast
    field_simp
  rw [hq, Rat.floor_natCast_div_natCast, roundHalfUp]
  push_cast
  rfl

theorem natDiv_eq_floor (num den : Nat) : ((num / den : Nat) : ℤ) = ⌊(num : ℚ) / (den : ℚ)⌋ := by
  rw [Rat.floor_natCast_div_natCast]
  push_cast
  rfl

end Sys2Proof.Machine
end

