-- ==== Sys2Proof/Laws/Demod.lean ====
section
/-! SUPPORT. The laws of the run-length encoding and of reading runs as text (`43_demod.md`): how both divide at a
change of the bit, and what one run does to the text so far. -/

namespace Sys2Proof.Machine

/-! ## Run-length encoding (R211) -/

@[simp] theorem rle_nil : rle [] = [] := rfl

theorem rle_cons (b : Bool) (bits : List Bool) : rle (b :: bits) = consBit b (rle bits) := rfl

/-- The first run has the first bit's value. -/
theorem rle_cons_shape (b : Bool) (bits : List Bool) : ∃ n rs, rle (b :: bits) = ⟨b, n + 1⟩ :: rs := by
  rw [rle_cons]
  cases rle bits with
  | nil => exact ⟨0, [], rfl⟩
  | cons r rs =>
    simp only [consBit]
    split
    · exact ⟨r.length, rs, rfl⟩
    · exact ⟨0, r :: rs, rfl⟩

theorem consBit_append {b : Bool} {r : Run} (rs ss : List Run) :
    consBit b (r :: rs ++ ss) = consBit b (r :: rs) ++ ss := by
  simp only [List.cons_append, consBit]
  split <;> rfl

/-- Runs divide where the bit changes. -/
theorem rle_append {x y : List Bool} {b c : Bool} (hbc : b ≠ c) :
    rle (x ++ [b] ++ (c :: y)) = rle (x ++ [b]) ++ rle (c :: y) := by
  induction x with
  | nil =>
    obtain ⟨n, rs, h⟩ := rle_cons_shape c y
    change consBit b (rle (c :: y)) = [⟨b, 1⟩] ++ rle (c :: y)
    rw [h]
    simp [consBit, hbc.symm]
  | cons a x ih =>
    rw [List.cons_append, List.cons_append, rle_cons a, ih, rle_cons a (x ++ [b])]
    cases hx : rle (x ++ [b]) with
    | nil =>
      cases x with
      | nil => simp [rle_cons, consBit] at hx
      | cons d x =>
        obtain ⟨n, rs, h⟩ := rle_cons_shape d (x ++ [b])
        rw [List.cons_append, h] at hx
        cases hx
    | cons r rs => exact consBit_append rs _

/-- The last run has the last bit's value. -/
theorem rle_concat_shape (x : List Bool) (b : Bool) : ∃ rs n, rle (x ++ [b]) = rs ++ [⟨b, n + 1⟩] := by
  induction x with
  | nil => exact ⟨[], 0, rfl⟩
  | cons a x ih =>
    obtain ⟨rs, n, h⟩ := ih
    rw [List.cons_append, rle_cons, h]
    cases rs with
    | nil =>
      simp only [List.nil_append, consBit]
      split
      · rename_i hab
        cases hab
        exact ⟨[], n + 1, rfl⟩
      · exact ⟨[⟨a, 1⟩], n, rfl⟩
    | cons r rs =>
      rw [consBit_append]
      exact ⟨_, n, rfl⟩

/-- Equal bits are one run. -/
theorem rle_replicate (n : Nat) (b : Bool) : rle (List.replicate (n + 1) b) = [⟨b, n + 1⟩] := by
  induction n with
  | zero => rfl
  | succ n ih => rw [List.replicate_succ, rle_cons, ih]; simp [consBit]

theorem replicate_succ_concat (n : Nat) (b : Bool) :
    List.replicate (n + 1) b = List.replicate n b ++ [b] := List.replicate_succ'

/-- A stretch of equal bits before another value is one run of its own. -/
theorem rle_replicate_append {n : Nat} {b c : Bool} {y : List Bool} (hn : 0 < n) (hbc : b ≠ c) :
    rle (List.replicate n b ++ (c :: y)) = ⟨b, n⟩ :: rle (c :: y) := by
  obtain ⟨m, rfl⟩ : ∃ m, n = m + 1 := ⟨n - 1, by omega⟩
  rw [replicate_succ_concat, rle_append hbc, ← replicate_succ_concat, rle_replicate]
  rfl

theorem rle_length_pos {bits : List Bool} {r : Run} (h : r ∈ rle bits) : 1 ≤ r.length := by
  induction bits generalizing r with
  | nil => simp at h
  | cons b bits ih =>
    rw [rle_cons] at h
    cases hx : rle bits with
    | nil => rw [hx] at h; simp [consBit] at h; simp [h]
    | cons q qs =>
      rw [hx] at h ih
      simp only [consBit] at h
      split at h <;> rcases List.mem_cons.mp h with rfl | h
      · simp
      · exact ih (List.mem_cons_of_mem _ h)
      · simp
      · exact ih h

/-- Neighbouring runs have opposite values. -/
theorem rle_isChain (bits : List Bool) : (rle bits).IsChain (fun a b => a.on ≠ b.on) := by
  induction bits with
  | nil => simp
  | cons b bits ih =>
    rw [rle_cons]
    cases hx : rle bits with
    | nil => simp [consBit]
    | cons q qs =>
      rw [hx] at ih
      simp only [consBit]
      split
      · rename_i hq
        rw [List.isChain_cons] at ih ⊢
        refine ⟨fun z hz => ?_, ih.2⟩
        have := ih.1 z hz
        rwa [hq] at this
      · rename_i hq
        rw [List.isChain_cons]
        exact ⟨by simpa using Ne.symm hq, ih⟩

/-- The runs written out are the bits. -/
theorem rle_flatMap (bits : List Bool) : (rle bits).flatMap (fun r => List.replicate r.length r.on) = bits := by
  induction bits with
  | nil => rfl
  | cons b bits ih =>
    rw [rle_cons]
    conv_rhs => rw [← ih]
    cases rle bits with
    | nil => rfl
    | cons q qs =>
      simp only [consBit]
      split
      · rename_i hq; simp [List.replicate_succ, hq]
      · simp

theorem rle_length_sum (bits : List Bool) : ((rle bits).map Run.length).sum = bits.length := by
  conv_rhs => rw [← rle_flatMap bits]
  simp [List.length_flatMap]

theorem length_rle_le (bits : List Bool) : (rle bits).length ≤ bits.length := by
  rw [← rle_length_sum bits]
  refine le_trans ?_ (List.card_nsmul_le_sum _ 1 ?_)
  · simp
  · intro n hn
    obtain ⟨r, hr, rfl⟩ := List.mem_map.mp hn
    exact rle_length_pos hr

/-! ## One run (R214 to R217) -/

section
variable (dd wg : Nat) (rtab : List (Pattern × Byte))

@[simp] theorem flush_pat_nil (r : Reading) : (flush rtab r).pat = [] := by
  unfold flush
  split
  · assumption
  · rfl

theorem flush_of_nil (t : List Byte) : flush rtab ⟨[], t⟩ = ⟨[], t⟩ := rfl

theorem flush_of_ne {r : Reading} (h : r.pat ≠ []) :
    flush rtab r = ⟨[], r.text ++ [lookupPattern rtab r.pat]⟩ := by simp [flush, h]

/-- An ON run adds one element to the pattern (R214). -/
theorem classify_on (r : Reading) (n : Nat) :
    classify dd wg rtab r ⟨true, n⟩ = { r with pat := r.pat ++ [if n < dd then .dot else .dash] } := rfl

/-- A gap inside a character does nothing (R215 (a)). -/
theorem classify_intra (r : Reading) {n : Nat} (h : n < dd) : classify dd wg rtab r ⟨false, n⟩ = r := by
  simp [classify, h]

/-- A gap between characters flushes the pattern (R215 (b)). -/
theorem classify_inter (r : Reading) {n : Nat} (h : dd ≤ n) (h' : n < wg) :
    classify dd wg rtab r ⟨false, n⟩ = flush rtab r := by
  simp [classify, Nat.not_lt.mpr h, h']

/-- A gap between words flushes the pattern and adds a space (R215 (c), R217). -/
theorem classify_word (r : Reading) {n : Nat} (h : dd ≤ n) (h' : wg ≤ n) :
    classify dd wg rtab r ⟨false, n⟩ = wordSpace (flush rtab r) := by
  simp [classify, Nat.not_lt.mpr h, Nat.not_lt.mpr h']

/-- Text already there is left alone: it only matters that it is not empty, and that only where a word gap could
otherwise come first. -/
theorem foldl_classify_shift (t₀ : List Byte) (runs : List Run) (r : Reading)
    (h : r.pat ≠ [] ∨ r.text ≠ [] ∨ ∀ q ∈ runs.head?, q.on = true) :
    runs.foldl (classify dd wg rtab) ⟨r.pat, t₀ ++ r.text⟩ =
      ⟨(runs.foldl (classify dd wg rtab) r).pat, t₀ ++ (runs.foldl (classify dd wg rtab) r).text⟩ := by
  induction runs generalizing r with
  | nil => rfl
  | cons q runs ih =>
    obtain ⟨on, n⟩ := q
    rw [List.foldl_cons, List.foldl_cons]
    have step : classify dd wg rtab ⟨r.pat, t₀ ++ r.text⟩ ⟨on, n⟩ =
        ⟨(classify dd wg rtab r ⟨on, n⟩).pat, t₀ ++ (classify dd wg rtab r ⟨on, n⟩).text⟩ ∧
        ((classify dd wg rtab r ⟨on, n⟩).pat ≠ [] ∨ (classify dd wg rtab r ⟨on, n⟩).text ≠ []) := by
      cases on with
      | true => simp [classify_on]
      | false =>
        have hpt : r.pat ≠ [] ∨ r.text ≠ [] := by simpa using h
        unfold classify flush wordSpace
        by_cases hp : r.pat = []
        · have ht : r.text ≠ [] := hpt.resolve_left (by simp [hp])
          simp only [hp, Bool.false_eq_true, ↓reduceIte]
          split_ifs <;> simp_all
        · simp only [hp, Bool.false_eq_true, ↓reduceIte]
          split_ifs <;> simp_all
    rw [step.1]
    refine ih _ ?_
    rcases step.2 with h | h
    · exact .inl h
    · exact .inr (.inl h)

/-- After an ON run the pattern is not empty. -/
theorem foldl_classify_on_pat (rs : List Run) (n : Nat) (r : Reading) :
    ((rs ++ [(⟨true, n⟩ : Run)]).foldl (classify dd wg rtab) r).pat ≠ [] := by
  simp [List.foldl_append, classify_on]

/-! ## Gaps divide the text -/

/-- The text up to a stretch of tone, as the reading after it. -/
theorem demodText_on (x : List Bool) :
    flush rtab ((rle (x ++ [true])).foldl (classify dd wg rtab) ⟨[], []⟩) =
      ⟨[], demodText dd wg rtab (rle (x ++ [true]))⟩ := by
  rw [demodText]
  generalize (rle (x ++ [true])).foldl (classify dd wg rtab) ⟨[], []⟩ = r
  have := flush_pat_nil rtab r
  generalize flush rtab r = q at this
  cases q
  simp_all

theorem demodText_on_ne_nil (x : List Bool) : demodText dd wg rtab (rle (x ++ [true])) ≠ [] := by
  obtain ⟨rs, n, h⟩ := rle_concat_shape x true
  rw [demodText, h, flush_of_ne _ (foldl_classify_on_pat dd wg rtab rs _ _)]
  simp

theorem wordSpace_of_ne {p : Pattern} {t : List Byte} (h : t ≠ []) : wordSpace ⟨p, t⟩ = ⟨p, t ++ [0x20]⟩ := by
  simp [wordSpace, h]

/-- A gap of `dd` blocks or more after tone: the character is out, and a space from `wg` blocks on. -/
theorem classify_gap_after_on (x : List Bool) {gap : Nat} (h : dd ≤ gap) :
    classify dd wg rtab ((rle (x ++ [true])).foldl (classify dd wg rtab) ⟨[], []⟩) ⟨false, gap⟩ =
      ⟨[], demodText dd wg rtab (rle (x ++ [true])) ++ (if wg ≤ gap then [0x20] else [])⟩ := by
  by_cases hg : wg ≤ gap
  · rw [classify_word dd wg rtab _ h hg, demodText_on, wordSpace_of_ne (demodText_on_ne_nil dd wg rtab x), if_pos hg]
  · rw [classify_inter dd wg rtab _ h (by omega), demodText_on, if_neg hg, List.append_nil]

/-- Reading on from text that is already there, at the start of a stretch of tone. -/
theorem flush_foldl_from (t₀ : List Byte) (y : List Bool) :
    (flush rtab ((rle (true :: y)).foldl (classify dd wg rtab) ⟨[], t₀⟩)).text =
      t₀ ++ demodText dd wg rtab (rle (true :: y)) := by
  have h := foldl_classify_shift dd wg rtab t₀ (rle (true :: y)) ⟨[], []⟩ (by
    obtain ⟨n, rs, h⟩ := rle_cons_shape true y
    simp [h])
  rw [List.append_nil] at h
  rw [h, demodText]
  unfold flush
  dsimp only
  split_ifs <;> simp

/-! ## One character -/

/-- The runs of a character: an ON run and the gap after it for each of `marks`, then the ON run `last`. -/
abbrev markRuns (marks : List (Nat × Nat)) (last : Nat) : List Run :=
  marks.flatMap (fun m => [⟨true, m.1⟩, ⟨false, m.2⟩]) ++ [⟨true, last⟩]

/-- The ON runs of a character, given by `marks` (a run and the gap after it) and `last`, add up to its pattern. -/
theorem foldl_classify_marks (marks : List (Nat × Nat)) (last : Nat) (r : Reading)
    (h : ∀ m ∈ marks, m.2 < dd) :
    (markRuns marks last).foldl (classify dd wg rtab) r =
      { r with pat := r.pat ++ (marks.map Prod.fst ++ [last]).map fun len => if len < dd then Sym.dot else Sym.dash } := by
  induction marks generalizing r with
  | nil => simp [markRuns, classify_on]
  | cons m marks ih =>
    rw [markRuns, List.flatMap_cons, List.append_assoc, List.foldl_append]
    simp only [List.foldl_cons, List.foldl_nil]
    rw [classify_on, classify_intra dd wg rtab _ (h m List.mem_cons_self),
      ih _ fun m hm => h m (List.mem_cons_of_mem _ hm)]
    simp

theorem rle_marks (marks : List (Nat × Nat)) (last : Nat) (h : ∀ m ∈ marks, 0 < m.1 ∧ 0 < m.2) (hl : 0 < last) :
    rle (marks.flatMap (fun m => List.replicate m.1 true ++ List.replicate m.2 false) ++ List.replicate last true) =
      markRuns marks last := by
  induction marks with
  | nil =>
    obtain ⟨m, rfl⟩ : ∃ m, last = m + 1 := ⟨last - 1, by omega⟩
    exact rle_replicate m true
  | cons m marks ih =>
    obtain ⟨h1, h2⟩ := h m List.mem_cons_self
    have ih := ih fun m hm => h m (List.mem_cons_of_mem _ hm)
    have hstart : ∃ y, marks.flatMap (fun m => List.replicate m.1 true ++ List.replicate m.2 false) ++
        List.replicate last true = true :: y := by
      cases marks with
      | nil =>
        obtain ⟨k, rfl⟩ : ∃ k, last = k + 1 := ⟨last - 1, by omega⟩
        exact ⟨_, rfl⟩
      | cons q marks =>
        obtain ⟨k, hk⟩ : ∃ k, q.1 = k + 1 := ⟨q.1 - 1, by have := (h q (by simp)).1; omega⟩
        rw [List.flatMap_cons, hk, List.replicate_succ]
        exact ⟨_, rfl⟩
    obtain ⟨y, hy⟩ := hstart
    obtain ⟨g, hg⟩ : ∃ g, m.2 = g + 1 := ⟨m.2 - 1, by omega⟩
    rw [markRuns, List.flatMap_cons, List.flatMap_cons, List.append_assoc, List.append_assoc, List.append_assoc, hy, hg,
      List.replicate_succ, List.cons_append, rle_replicate_append h1 (by decide), ← List.cons_append,
      ← List.replicate_succ, rle_replicate_append (by omega) (by decide), ← hy, ih]
    rfl

end

end Sys2Proof.Machine
end

