-- ==== Sys2Proof/Laws/Encoding.lean ====
section
/-! SUPPORT. The four fields of a command word: what `packWord` puts in is what the fields read, and a word whose
`zero` field is 0 is the packing of its fields (`30_encoding.md` R100). -/

namespace Sys2Proof

@[simp] theorem opField_packWord (op sel : BitVec 8) (imm : Word) : opField (packWord op sel imm) = op := by
  ext j hj
  have h₁ : ¬56 + j < 32 := by omega
  have h₂ : ¬56 + j - 32 < 16 := by omega
  have h₃ : ¬56 + j - 32 - 16 < 8 := by omega
  have h₄ : 56 + j - 32 - 16 - 8 = j := by omega
  simp only [opField, packWord, BitVec.getElem_extractLsb', BitVec.getLsbD_append, h₁, h₂, h₃, h₄]
  simp [hj]

@[simp] theorem selField_packWord (op sel : BitVec 8) (imm : Word) : selField (packWord op sel imm) = sel := by
  ext j hj
  have h₁ : ¬48 + j < 32 := by omega
  have h₂ : ¬48 + j - 32 < 16 := by omega
  have h₃ : 48 + j - 32 - 16 < 8 := by omega
  have h₄ : 48 + j - 32 - 16 = j := by omega
  simp only [selField, packWord, BitVec.getElem_extractLsb', BitVec.getLsbD_append, h₁, h₂, h₄]
  simp [hj]

@[simp] theorem zeroField_packWord (op sel : BitVec 8) (imm : Word) : zeroField (packWord op sel imm) = 0 := by
  ext j hj
  have h₁ : ¬32 + j < 32 := by omega
  have h₂ : 32 + j - 32 < 16 := by omega
  simp only [zeroField, packWord, BitVec.getElem_extractLsb', BitVec.getLsbD_append, h₁, h₂]
  simp

@[simp] theorem immField_packWord (op sel : BitVec 8) (imm : Word) : immField (packWord op sel imm) = imm := by
  ext j hj
  simp only [immField, packWord, BitVec.getElem_extractLsb', BitVec.getLsbD_append, Nat.zero_add]
  simp [hj]

/-- A word whose `zero` field is 0 is the packing of its other three fields. -/
theorem packWord_fields (w : CmdWord) (h : zeroField w = 0) :
    packWord (opField w) (selField w) (immField w) = w := by
  have hw : packWord (opField w) (selField w) (immField w) =
      opField w ++ selField w ++ zeroField w ++ immField w := by rw [h]; rfl
  rw [hw]
  unfold opField selField zeroField immField
  rw [BitVec.extractLsb'_append_extractLsb'_eq_extractLsb' (by rfl),
    BitVec.extractLsb'_append_extractLsb'_eq_extractLsb' (by rfl),
    BitVec.extractLsb'_append_extractLsb'_eq_extractLsb' (by rfl)]
  simp

/-- What the operation code reads is an instruction with that operation code, its operands from the fields. -/
theorem byOpcode_some {op sel : BitVec 8} {imm : Word} {i : Instr} (h : byOpcode op sel imm = some i) :
    opcode i = op ∧ (selOf i = sel ∨ selOf i = 0) ∧ (immOf i = imm ∨ immOf i = 0) := by
  unfold byOpcode at h
  have hop : op = BitVec.ofNat 8 op.toNat := by simp
  split at h <;> try contradiction
  all_goals
    rename_i hn
    rw [hn] at hop
    simp only [Option.some.injEq] at h
    subst h hop
    simp [opcode, selOf, immOf]

/-- A legal word has the instruction's fields. -/
theorem legalFor_iff (i : Instr) (w : CmdWord) :
    legalFor i w = true ↔ zeroField w = 0 ∧ selField w = selOf i ∧ immField w = immOf i ∧ i.wf = true := by
  simp [legalFor, and_assoc]

theorem decode_some {w : CmdWord} {i : Instr} (h : decode w = some i) :
    byOpcode (opField w) (selField w) (immField w) = some i ∧ legalFor i w = true := by
  unfold decode at h
  split at h
  · split at h
    · simp only [Option.some.injEq] at h
      subst h
      exact ⟨by assumption, by assumption⟩
    · cases h
  · cases h

end Sys2Proof
end

