-- ==== Sys2Proof/Laws/Memory.lean ====
section
/-! SUPPORT. The laws of the buffer spaces: a read sees the last write, every other element is left alone, what a write of
the length register leaves open, and every memory operation keeps the canonical form (`20_memory.md` R70, R72, R79). -/

namespace Sys2Proof.Machine

variable {α : Type}

/-! ## The listed elements -/

@[simp] theorem lookupCell_nil (i : Nat) : lookupCell i ([] : Cells α) = none := rfl

theorem lookupCell_cons (i j : Nat) (v : α) (m : Cells α) :
    lookupCell i ((j, v) :: m) = if j = i then some v else lookupCell i m := rfl

/-- A list whose indices are all at least `lo` lists nothing below `lo`. -/
theorem lookupCell_of_wfFrom {lo i : Nat} {m : Cells α} (h : cellsWfFrom lo m = true) (hi : i < lo) :
    lookupCell i m = none := by
  induction m generalizing lo with
  | nil => rfl
  | cons e m ih =>
    obtain ⟨j, v⟩ := e
    simp only [cellsWfFrom, Bool.and_eq_true, decide_eq_true_eq] at h
    rw [lookupCell_cons, if_neg (by omega), ih h.2 (by omega)]

theorem lookupCell_insertCell_same (i : Nat) (v : α) (m : Cells α) : lookupCell i (insertCell i v m) = some v := by
  induction m with
  | nil => simp [insertCell, lookupCell_cons]
  | cons e m ih =>
    obtain ⟨j, u⟩ := e
    unfold insertCell
    split
    · rw [lookupCell_cons, if_neg (by omega), ih]
    · split <;> rw [lookupCell_cons, if_pos rfl]

theorem lookupCell_insertCell_other {i k : Nat} (v : α) (m : Cells α) (hk : k ≠ i) :
    lookupCell k (insertCell i v m) = lookupCell k m := by
  induction m with
  | nil => rw [insertCell, lookupCell_cons, if_neg (by omega)]
  | cons e m ih =>
    obtain ⟨j, u⟩ := e
    unfold insertCell
    split
    · simp only [lookupCell_cons, ih]
    · split
      · rw [lookupCell_cons, if_neg (by omega), lookupCell_cons, if_neg (by omega)]
      · rw [lookupCell_cons, if_neg (by omega)]

theorem cellsWfFrom_mono {lo lo' : Nat} {m : Cells α} (h : cellsWfFrom lo m = true) (hl : lo' ≤ lo) :
    cellsWfFrom lo' m = true := by
  cases m with
  | nil => rfl
  | cons e m =>
    obtain ⟨j, v⟩ := e
    simp only [cellsWfFrom, Bool.and_eq_true, decide_eq_true_eq] at h ⊢
    exact ⟨by omega, h.2⟩

theorem insertCell_wfFrom {lo i : Nat} (v : α) {m : Cells α} (h : cellsWfFrom lo m = true) (hi : lo ≤ i) :
    cellsWfFrom lo (insertCell i v m) = true := by
  induction m generalizing lo with
  | nil => simp [insertCell, cellsWfFrom, hi]
  | cons e m ih =>
    obtain ⟨j, u⟩ := e
    simp only [cellsWfFrom, Bool.and_eq_true, decide_eq_true_eq] at h
    unfold insertCell
    split
    · simp only [cellsWfFrom, Bool.and_eq_true, decide_eq_true_eq]
      exact ⟨h.1, ih h.2 (by omega)⟩
    · split
      · subst j
        simp only [cellsWfFrom, Bool.and_eq_true, decide_eq_true_eq]
        exact ⟨hi, h.2⟩
      · simp only [cellsWfFrom, Bool.and_eq_true, decide_eq_true_eq]
        exact ⟨hi, by omega, h.2⟩

theorem lookupCell_filter_lt (i len : Nat) (m : Cells α) :
    lookupCell i (m.filter fun e => decide (e.1 < len)) = if i < len then lookupCell i m else none := by
  induction m with
  | nil => simp
  | cons e m ih =>
    obtain ⟨j, v⟩ := e
    rw [List.filter_cons]
    split
    · rename_i hj
      simp only [decide_eq_true_eq] at hj
      rw [lookupCell_cons, lookupCell_cons, ih]
      split_ifs <;> first | rfl | omega
    · rename_i hj
      simp only [decide_eq_true_eq] at hj
      rw [ih, lookupCell_cons]
      split_ifs <;> first | rfl | omega

theorem filter_wfFrom {lo : Nat} (f : Nat × α → Bool) {m : Cells α} (h : cellsWfFrom lo m = true) :
    cellsWfFrom lo (m.filter f) = true := by
  induction m generalizing lo with
  | nil => rfl
  | cons e m ih =>
    obtain ⟨j, v⟩ := e
    simp only [cellsWfFrom, Bool.and_eq_true, decide_eq_true_eq] at h
    rw [List.filter_cons]
    split
    · simp only [cellsWfFrom, Bool.and_eq_true, decide_eq_true_eq]
      exact ⟨h.1, ih h.2⟩
    · exact cellsWfFrom_mono (ih h.2) (by omega)

theorem lookupCell_cellsOf (i k : Nat) (xs : List α) :
    lookupCell k (cellsOf i xs) = if i ≤ k then xs[k - i]? else none := by
  induction xs generalizing i with
  | nil => simp [cellsOf]
  | cons x xs ih =>
    rw [cellsOf, lookupCell_cons, ih]
    rcases Nat.lt_trichotomy k i with h | h | h
    · rw [if_neg (by omega), if_neg (by omega), if_neg (by omega)]
    · subst h; simp
    · rw [if_neg (by omega), if_pos (by omega), if_pos (by omega)]
      obtain ⟨d, rfl⟩ : ∃ d, k = i + 1 + d := ⟨k - (i + 1), by omega⟩
      rw [show i + 1 + d - (i + 1) = d by omega, show i + 1 + d - i = d + 1 by omega, List.getElem?_cons_succ]

theorem cellsOf_wfFrom (i : Nat) (xs : List α) : cellsWfFrom i (cellsOf i xs) = true := by
  induction xs generalizing i with
  | nil => rfl
  | cons x xs ih => simp [cellsOf, cellsWfFrom, ih (i + 1)]

/-! ## Reading one element -/

/-- An open element reads as its free value. -/
theorem readCell_of_isOpen [Inhabited α] {i : Nat} {m : Space α} (h : isOpen i m) :
    readCell i m = Config.freeCell α m.seed i := by
  rw [readCell, h, Option.getD_none]

/-- A read sees the last write (`20_memory.md` R79). -/
@[simp] theorem readCell_writeCell_same [Inhabited α] (i : Nat) (v : α) (m : Space α) :
    readCell i (writeCell i v m) = v := by
  simp [readCell, writeCell, lookupCell_insertCell_same]

/-- A write leaves every other element alone. -/
theorem readCell_writeCell_other [Inhabited α] {i k : Nat} (v : α) (m : Space α) (hk : k ≠ i) :
    readCell k (writeCell i v m) = readCell k m := by
  simp [readCell, writeCell, lookupCell_insertCell_other v m.cells hk]

/-- Writing keeps the canonical form. -/
theorem writeCell_wf (i : Nat) (v : α) {m : Space α} (h : spaceWf m = true) : spaceWf (writeCell i v m) = true :=
  insertCell_wfFrom v h (Nat.zero_le i)

/-! ## Writing a length register -/

/-- A write of the length register leaves the elements at or beyond it open (`20_memory.md` R72). -/
theorem isOpen_forget {i len : Nat} (m : Space α) (h : len ≤ i) : isOpen i (forget len m) := by
  rw [isOpen, forget, lookupCell_filter_lt, if_neg (by omega)]

/-- A determined element below the new length stays. -/
theorem readCell_forget [Inhabited α] {i len : Nat} (m : Space α) (h : i < len) (hd : ¬isOpen i m) :
    readCell i (forget len m) = readCell i m := by
  obtain ⟨v, hv⟩ := Option.ne_none_iff_exists'.mp hd
  rw [readCell, readCell, forget, lookupCell_filter_lt, if_pos h, hv, Option.getD_some, Option.getD_some]

/-- Writing the length register keeps the canonical form. -/
theorem forget_wf (len : Nat) {m : Space α} (h : spaceWf m = true) : spaceWf (forget len m) = true :=
  filter_wfFrom _ h

@[simp] theorem forget_zero_cells (m : Space α) : (forget 0 m).cells = [] := by simp [forget]

/-! ## Storing a sequence -/

@[simp] theorem store_cells (m : Space α) (xs : List α) : (store m xs).cells = cellsOf 0 xs := rfl

/-- What a stored sequence reads as: its elements, and free values beyond them. -/
theorem readCell_store [Inhabited α] (i : Nat) (m : Space α) (xs : List α) :
    readCell i (store m xs) = if h : i < xs.length then xs[i] else Config.freeCell α (nextSeed m.seed) i := by
  rw [readCell, store_cells, lookupCell_cellsOf, if_pos (Nat.zero_le i), Nat.sub_zero]
  split
  · rename_i h
    rw [List.getElem?_eq_getElem h, Option.getD_some]
  · rename_i h
    rw [List.getElem?_eq_none (by omega), Option.getD_none]
    rfl

/-- Beyond a stored sequence every element is open (`20_memory.md` R72). -/
theorem isOpen_store {i : Nat} (m : Space α) {xs : List α} (h : xs.length ≤ i) : isOpen i (store m xs) := by
  rw [isOpen, store_cells, lookupCell_cellsOf, if_pos (Nat.zero_le i), List.getElem?_eq_none (by omega)]

/-- Storing gives the canonical form. -/
theorem store_wf (m : Space α) (xs : List α) : spaceWf (store m xs) = true := cellsOf_wfFrom 0 xs

/-! ## Reading a span -/

section

variable [Inhabited α]

@[simp] theorem length_spanFrom (seed count i : Nat) (m : Cells α) : (spanFrom seed count i m).length = count := by
  induction count generalizing i m with
  | zero => rfl
  | succ count ih =>
    unfold spanFrom
    split
    · simp [ih]
    · split <;> simp [ih]

omit [Inhabited α] in
theorem lookupCell_dropWhile {i k : Nat} (m : Cells α) (h : i ≤ k) :
    lookupCell k (m.dropWhile fun e => decide (e.1 < i)) = lookupCell k m := by
  induction m with
  | nil => rfl
  | cons e m ih =>
    obtain ⟨j, v⟩ := e
    rw [List.dropWhile_cons]
    split
    · rename_i hj
      simp only [decide_eq_true_eq] at hj
      rw [ih, lookupCell_cons, if_neg (by omega)]
    · rfl

omit [Inhabited α] in
theorem dropWhile_wfFrom {lo i : Nat} {m : Cells α} (h : cellsWfFrom lo m = true) :
    cellsWfFrom (max lo i) (m.dropWhile fun e => decide (e.1 < i)) = true := by
  induction m generalizing lo with
  | nil => rfl
  | cons e m ih =>
    obtain ⟨j, v⟩ := e
    simp only [cellsWfFrom, Bool.and_eq_true, decide_eq_true_eq] at h
    rw [List.dropWhile_cons]
    split
    · exact cellsWfFrom_mono (ih h.2) (by omega)
    · rename_i hj
      simp only [decide_eq_true_eq] at hj
      simp only [cellsWfFrom, Bool.and_eq_true, decide_eq_true_eq]
      exact ⟨by omega, h.2⟩

/-- A span of a canonical list is its elements in index order. -/
theorem spanFrom_eq_map (seed count i : Nat) {lo : Nat} {m : Cells α} (h : cellsWfFrom lo m = true) :
    spanFrom seed count i m =
      (List.range count).map fun k => (lookupCell (i + k) m).getD (Config.freeCell α seed (i + k)) := by
  induction count generalizing i lo m with
  | zero => rfl
  | succ count ih =>
    have hd := dropWhile_wfFrom (i := i) h
    have hr := fun (k : Nat) (hk : i ≤ k) => lookupCell_dropWhile (i := i) m hk
    rw [List.range_succ_eq_map, List.map_cons, List.map_map]
    have htail : ((fun k => (lookupCell (i + k) m).getD (Config.freeCell α seed (i + k))) ∘ Nat.succ) = fun k =>
        (lookupCell (i + 1 + k) (m.dropWhile fun e => decide (e.1 < i))).getD (Config.freeCell α seed (i + 1 + k)) := by
      funext k
      rw [Function.comp_apply, show i + k.succ = i + 1 + k by omega, hr _ (by omega)]
    rw [htail, show i + 0 = i from rfl, ← hr i (le_refl i)]
    unfold spanFrom
    generalize m.dropWhile (fun e => decide (e.1 < i)) = d at hd
    match d, hd with
    | [], _ => simp only [lookupCell_nil, Option.getD_none, ih (i + 1) (lo := 0) (m := []) rfl]
    | (j, v) :: m', hd =>
      have hdw := hd
      simp only [cellsWfFrom, Bool.and_eq_true, decide_eq_true_eq] at hd
      dsimp only
      split
      · subst j
        rw [ih (i + 1) hd.2, lookupCell_cons, if_pos rfl, Option.getD_some]
        refine congrArg _ (List.map_congr_left fun k _ => ?_)
        rw [lookupCell_cons, if_neg (by omega)]
      · rename_i hji
        rw [ih (i + 1) hdw, lookupCell_cons, if_neg hji, lookupCell_of_wfFrom hd.2 (by omega), Option.getD_none]

@[simp] theorem length_readSpan (count i : Nat) (m : Space α) : (readSpan count i m).length = count :=
  length_spanFrom m.seed count i m.cells

/-- A span of a canonical space is its elements in index order. -/
theorem readSpan_eq_map (count i : Nat) {m : Space α} (h : spaceWf m = true) :
    readSpan count i m = (List.range count).map fun k => readCell (i + k) m :=
  spanFrom_eq_map m.seed count i h

@[simp] theorem length_contents (m : Space α) (len : Nat) : (contents m len).length = len :=
  length_readSpan len 0 m

/-- The content of a canonical space is its elements in index order. -/
theorem contents_eq_map (len : Nat) {m : Space α} (h : spaceWf m = true) :
    contents m len = (List.range len).map fun k => readCell k m := by
  rw [contents, readSpan_eq_map len 0 h]
  simp

theorem getElem_contents {len k : Nat} {m : Space α} (h : spaceWf m = true) (hk : k < (contents m len).length) :
    (contents m len)[k] = readCell k m := by
  simp [contents_eq_map len h]

theorem getElem_readSpan {count i k : Nat} {m : Space α} (h : spaceWf m = true)
    (hk : k < (readSpan count i m).length) : (readSpan count i m)[k] = readCell (i + k) m := by
  simp [readSpan_eq_map count i h]

/-- Storing a sequence and reading its length back gives the sequence. -/
@[simp] theorem contents_store (m : Space α) (xs : List α) : contents (store m xs) xs.length = xs := by
  rw [contents_eq_map _ (store_wf m xs)]
  refine List.ext_getElem (by simp) fun k h₁ h₂ => ?_
  rw [List.getElem_map, List.getElem_range, readCell_store, dif_pos h₂]

end

end Sys2Proof.Machine
end

