-- ==== Sys2Proof/Laws/State.lean ====
section
/-! SUPPORT. One lemma for each field and each named update of the state: what the field holds after the update. -/

namespace Sys2Proof.Machine

/-- The tone bits `DETECT` gives for the powers `ms` (`42_goertzel.md` R191). -/
abbrev bitsFor (s : State) (ms : List RNum) : List Bool :=
  scanBits (thresholdOn s.params s.theta ms) (thresholdOff s.params (thresholdOn s.params s.theta ms)) false ms

/-! ## `CFGW` clears `READY` (`40_config.md` R141) -/

@[simp] theorem clearReady_fs (s : State) : (clearReady s).fs = s.fs := rfl
@[simp] theorem clearReady_f0 (s : State) : (clearReady s).f0 = s.f0 := rfl
@[simp] theorem clearReady_wpm (s : State) : (clearReady s).wpm = s.wpm := rfl
@[simp] theorem clearReady_n (s : State) : (clearReady s).n = s.n := rfl
@[simp] theorem clearReady_theta (s : State) : (clearReady s).theta = s.theta := rfl
@[simp] theorem clearReady_bpu (s : State) : (clearReady s).bpu = s.bpu := rfl
@[simp] theorem clearReady_k (s : State) : (clearReady s).k = s.k := rfl
@[simp] theorem clearReady_c (s : State) : (clearReady s).c = s.c := rfl
@[simp] theorem clearReady_omega (s : State) : (clearReady s).omega = s.omega := rfl
@[simp] theorem clearReady_spu (s : State) : (clearReady s).spu = s.spu := rfl
@[simp] theorem clearReady_dotDash (s : State) : (clearReady s).dotDash = s.dotDash := rfl
@[simp] theorem clearReady_wordGap (s : State) : (clearReady s).wordGap = s.wordGap := rfl
@[simp] theorem clearReady_rtab (s : State) : (clearReady s).rtab = s.rtab := rfl
@[simp] theorem clearReady_s1 (s : State) : (clearReady s).s1 = s.s1 := rfl
@[simp] theorem clearReady_s2 (s : State) : (clearReady s).s2 = s.s2 := rfl
@[simp] theorem clearReady_mag (s : State) : (clearReady s).mag = s.mag := rfl
@[simp] theorem clearReady_thon (s : State) : (clearReady s).thon = s.thon := rfl
@[simp] theorem clearReady_thoff (s : State) : (clearReady s).thoff = s.thoff := rfl
@[simp] theorem clearReady_st (s : State) : (clearReady s).st = s.st := rfl
@[simp] theorem clearReady_gb (s : State) : (clearReady s).gb = s.gb := rfl
@[simp] theorem clearReady_gi (s : State) : (clearReady s).gi = s.gi := rfl
@[simp] theorem clearReady_pat (s : State) : (clearReady s).pat = s.pat := rfl
@[simp] theorem clearReady_nidx (s : State) : (clearReady s).nidx = s.nidx := rfl
@[simp] theorem clearReady_ru (s : State) : (clearReady s).ru = s.ru := rfl
@[simp] theorem clearReady_rj (s : State) : (clearReady s).rj = s.rj := rfl
@[simp] theorem clearReady_crc (s : State) : (clearReady s).crc = s.crc := rfl
@[simp] theorem clearReady_crc4 (s : State) : (clearReady s).crc4 = s.crc4 := rfl
@[simp] theorem clearReady_got4 (s : State) : (clearReady s).got4 = s.got4 := rfl
@[simp] theorem clearReady_timLen (s : State) : (clearReady s).timLen = s.timLen := rfl
@[simp] theorem clearReady_pcmLen (s : State) : (clearReady s).pcmLen = s.pcmLen := rfl
@[simp] theorem clearReady_bitsLen (s : State) : (clearReady s).bitsLen = s.bitsLen := rfl
@[simp] theorem clearReady_runsLen (s : State) : (clearReady s).runsLen = s.runsLen := rfl
@[simp] theorem clearReady_txtLen (s : State) : (clearReady s).txtLen = s.txtLen := rfl
@[simp] theorem clearReady_payLen (s : State) : (clearReady s).payLen = s.payLen := rfl
@[simp] theorem clearReady_tim (s : State) : (clearReady s).tim = s.tim := rfl
@[simp] theorem clearReady_pcm (s : State) : (clearReady s).pcm = s.pcm := rfl
@[simp] theorem clearReady_mags (s : State) : (clearReady s).mags = s.mags := rfl
@[simp] theorem clearReady_bits (s : State) : (clearReady s).bits = s.bits := rfl
@[simp] theorem clearReady_runs (s : State) : (clearReady s).runs = s.runs := rfl
@[simp] theorem clearReady_txt (s : State) : (clearReady s).txt = s.txt := rfl
@[simp] theorem clearReady_pay (s : State) : (clearReady s).pay = s.pay := rfl
@[simp] theorem clearReady_ready (s : State) : (clearReady s).ready = false := rfl
@[simp] theorem clearReady_busy (s : State) : (clearReady s).busy = s.busy := rfl
@[simp] theorem clearReady_valid (s : State) : (clearReady s).valid = s.valid := rfl
@[simp] theorem clearReady_stage (s : State) : (clearReady s).stage = s.stage := rfl
@[simp] theorem clearReady_err (s : State) : (clearReady s).err = s.err := rfl
@[simp] theorem clearReady_params (s : State) : (clearReady s).params = s.params := rfl
@[simp] theorem clearReady_free (s : State) : (clearReady s).free = s.free := rfl
@[simp] theorem clearReady_host (s : State) : (clearReady s).host = s.host := rfl

/-! ## `INIT` (`40_config.md` R143) -/

@[simp] theorem constructed_fs (s : State) : (constructed s).fs = s.fs := rfl
@[simp] theorem constructed_f0 (s : State) : (constructed s).f0 = s.f0 := rfl
@[simp] theorem constructed_wpm (s : State) : (constructed s).wpm = s.wpm := rfl
@[simp] theorem constructed_n (s : State) : (constructed s).n = s.n := rfl
@[simp] theorem constructed_theta (s : State) : (constructed s).theta = s.theta := rfl
@[simp] theorem constructed_bpu (s : State) : (constructed s).bpu = s.bpu := rfl
@[simp] theorem constructed_k (s : State) : (constructed s).k = initK s := rfl
@[simp] theorem constructed_c (s : State) : (constructed s).c = initC s := rfl
@[simp] theorem constructed_omega (s : State) :
    (constructed s).omega = s.params.ops.omega s.f0.toNat s.fs.toNat := rfl
@[simp] theorem constructed_spu (s : State) : (constructed s).spu = samplesPerUnit s.fs s.wpm := rfl
@[simp] theorem constructed_dotDash (s : State) : (constructed s).dotDash = dotDashOf s.bpu := rfl
@[simp] theorem constructed_wordGap (s : State) : (constructed s).wordGap = wordGapOf s.bpu := rfl
@[simp] theorem constructed_rtab (s : State) : (constructed s).rtab = buildRtab s.params := rfl
@[simp] theorem constructed_s1 (s : State) : (constructed s).s1 = s.s1 := rfl
@[simp] theorem constructed_s2 (s : State) : (constructed s).s2 = s.s2 := rfl
@[simp] theorem constructed_mag (s : State) : (constructed s).mag = s.mag := rfl
@[simp] theorem constructed_thon (s : State) : (constructed s).thon = s.thon := rfl
@[simp] theorem constructed_thoff (s : State) : (constructed s).thoff = s.thoff := rfl
@[simp] theorem constructed_st (s : State) : (constructed s).st = s.st := rfl
@[simp] theorem constructed_gb (s : State) : (constructed s).gb = s.gb := rfl
@[simp] theorem constructed_gi (s : State) : (constructed s).gi = s.gi := rfl
@[simp] theorem constructed_pat (s : State) : (constructed s).pat = s.pat := rfl
@[simp] theorem constructed_nidx (s : State) : (constructed s).nidx = s.nidx := rfl
@[simp] theorem constructed_ru (s : State) : (constructed s).ru = s.ru := rfl
@[simp] theorem constructed_rj (s : State) : (constructed s).rj = s.rj := rfl
@[simp] theorem constructed_crc (s : State) : (constructed s).crc = s.crc := rfl
@[simp] theorem constructed_crc4 (s : State) : (constructed s).crc4 = s.crc4 := rfl
@[simp] theorem constructed_got4 (s : State) : (constructed s).got4 = s.got4 := rfl
@[simp] theorem constructed_timLen (s : State) : (constructed s).timLen = s.timLen := rfl
@[simp] theorem constructed_pcmLen (s : State) : (constructed s).pcmLen = s.pcmLen := rfl
@[simp] theorem constructed_bitsLen (s : State) : (constructed s).bitsLen = s.bitsLen := rfl
@[simp] theorem constructed_runsLen (s : State) : (constructed s).runsLen = s.runsLen := rfl
@[simp] theorem constructed_txtLen (s : State) : (constructed s).txtLen = s.txtLen := rfl
@[simp] theorem constructed_payLen (s : State) : (constructed s).payLen = s.payLen := rfl
@[simp] theorem constructed_tim (s : State) : (constructed s).tim = s.tim := rfl
@[simp] theorem constructed_pcm (s : State) : (constructed s).pcm = s.pcm := rfl
@[simp] theorem constructed_mags (s : State) : (constructed s).mags = s.mags := rfl
@[simp] theorem constructed_bits (s : State) : (constructed s).bits = s.bits := rfl
@[simp] theorem constructed_runs (s : State) : (constructed s).runs = s.runs := rfl
@[simp] theorem constructed_txt (s : State) : (constructed s).txt = s.txt := rfl
@[simp] theorem constructed_pay (s : State) : (constructed s).pay = s.pay := rfl
@[simp] theorem constructed_ready (s : State) : (constructed s).ready = true := rfl
@[simp] theorem constructed_busy (s : State) : (constructed s).busy = s.busy := rfl
@[simp] theorem constructed_valid (s : State) : (constructed s).valid = s.valid := rfl
@[simp] theorem constructed_stage (s : State) : (constructed s).stage = s.stage := rfl
@[simp] theorem constructed_err (s : State) : (constructed s).err = s.err := rfl
@[simp] theorem constructed_params (s : State) : (constructed s).params = s.params := rfl
@[simp] theorem constructed_free (s : State) : (constructed s).free = if s.n = 0 then s.free + 1 else s.free := rfl
@[simp] theorem constructed_host (s : State) : (constructed s).host = s.host := rfl

/-! ## `RENDER` (`41_render.md` R163) -/

@[simp] theorem rendered_fs (s : State) : (rendered s).fs = s.fs := rfl
@[simp] theorem rendered_f0 (s : State) : (rendered s).f0 = s.f0 := rfl
@[simp] theorem rendered_wpm (s : State) : (rendered s).wpm = s.wpm := rfl
@[simp] theorem rendered_n (s : State) : (rendered s).n = s.n := rfl
@[simp] theorem rendered_theta (s : State) : (rendered s).theta = s.theta := rfl
@[simp] theorem rendered_bpu (s : State) : (rendered s).bpu = s.bpu := rfl
@[simp] theorem rendered_k (s : State) : (rendered s).k = s.k := rfl
@[simp] theorem rendered_c (s : State) : (rendered s).c = s.c := rfl
@[simp] theorem rendered_omega (s : State) : (rendered s).omega = s.omega := rfl
@[simp] theorem rendered_spu (s : State) : (rendered s).spu = s.spu := rfl
@[simp] theorem rendered_dotDash (s : State) : (rendered s).dotDash = s.dotDash := rfl
@[simp] theorem rendered_wordGap (s : State) : (rendered s).wordGap = s.wordGap := rfl
@[simp] theorem rendered_rtab (s : State) : (rendered s).rtab = s.rtab := rfl
@[simp] theorem rendered_s1 (s : State) : (rendered s).s1 = s.s1 := rfl
@[simp] theorem rendered_s2 (s : State) : (rendered s).s2 = s.s2 := rfl
@[simp] theorem rendered_mag (s : State) : (rendered s).mag = s.mag := rfl
@[simp] theorem rendered_thon (s : State) : (rendered s).thon = s.thon := rfl
@[simp] theorem rendered_thoff (s : State) : (rendered s).thoff = s.thoff := rfl
@[simp] theorem rendered_st (s : State) : (rendered s).st = s.st := rfl
@[simp] theorem rendered_gb (s : State) : (rendered s).gb = s.gb := rfl
@[simp] theorem rendered_gi (s : State) : (rendered s).gi = s.gi := rfl
@[simp] theorem rendered_pat (s : State) : (rendered s).pat = s.pat := rfl
@[simp] theorem rendered_nidx (s : State) : (rendered s).nidx = s.timLen * s.spu := rfl
@[simp] theorem rendered_ru (s : State) : (rendered s).ru = freeIndexOf s 0 := rfl
@[simp] theorem rendered_rj (s : State) : (rendered s).rj = freeIndexOf s 1 := rfl
@[simp] theorem rendered_crc (s : State) : (rendered s).crc = s.crc := rfl
@[simp] theorem rendered_crc4 (s : State) : (rendered s).crc4 = s.crc4 := rfl
@[simp] theorem rendered_got4 (s : State) : (rendered s).got4 = s.got4 := rfl
@[simp] theorem rendered_timLen (s : State) : (rendered s).timLen = s.timLen := rfl
@[simp] theorem rendered_pcmLen (s : State) : (rendered s).pcmLen = s.timLen * s.spu := rfl
@[simp] theorem rendered_bitsLen (s : State) : (rendered s).bitsLen = s.bitsLen := rfl
@[simp] theorem rendered_runsLen (s : State) : (rendered s).runsLen = s.runsLen := rfl
@[simp] theorem rendered_txtLen (s : State) : (rendered s).txtLen = s.txtLen := rfl
@[simp] theorem rendered_payLen (s : State) : (rendered s).payLen = s.payLen := rfl
@[simp] theorem rendered_tim (s : State) : (rendered s).tim = s.tim := rfl
@[simp] theorem rendered_pcm (s : State) :
    (rendered s).pcm = store s.pcm (renderSeq s.params.ops s.omega s.spu (timSeq s) 0) := rfl
@[simp] theorem rendered_mags (s : State) : (rendered s).mags = s.mags := rfl
@[simp] theorem rendered_bits (s : State) : (rendered s).bits = s.bits := rfl
@[simp] theorem rendered_runs (s : State) : (rendered s).runs = s.runs := rfl
@[simp] theorem rendered_txt (s : State) : (rendered s).txt = s.txt := rfl
@[simp] theorem rendered_pay (s : State) : (rendered s).pay = s.pay := rfl
@[simp] theorem rendered_ready (s : State) : (rendered s).ready = s.ready := rfl
@[simp] theorem rendered_busy (s : State) : (rendered s).busy = s.busy := rfl
@[simp] theorem rendered_valid (s : State) : (rendered s).valid = s.valid := rfl
@[simp] theorem rendered_stage (s : State) : (rendered s).stage = s.stage := rfl
@[simp] theorem rendered_err (s : State) : (rendered s).err = s.err := rfl
@[simp] theorem rendered_params (s : State) : (rendered s).params = s.params := rfl
@[simp] theorem rendered_free (s : State) : (rendered s).free = s.free + 2 := rfl
@[simp] theorem rendered_host (s : State) : (rendered s).host = s.host := rfl

/-! ## `GZMAG` (`42_goertzel.md` R184) -/

@[simp] theorem measured_fs (b : Nat) (s : State) : (measured b s).fs = s.fs := rfl
@[simp] theorem measured_f0 (b : Nat) (s : State) : (measured b s).f0 = s.f0 := rfl
@[simp] theorem measured_wpm (b : Nat) (s : State) : (measured b s).wpm = s.wpm := rfl
@[simp] theorem measured_n (b : Nat) (s : State) : (measured b s).n = s.n := rfl
@[simp] theorem measured_theta (b : Nat) (s : State) : (measured b s).theta = s.theta := rfl
@[simp] theorem measured_bpu (b : Nat) (s : State) : (measured b s).bpu = s.bpu := rfl
@[simp] theorem measured_k (b : Nat) (s : State) : (measured b s).k = s.k := rfl
@[simp] theorem measured_c (b : Nat) (s : State) : (measured b s).c = s.c := rfl
@[simp] theorem measured_omega (b : Nat) (s : State) : (measured b s).omega = s.omega := rfl
@[simp] theorem measured_spu (b : Nat) (s : State) : (measured b s).spu = s.spu := rfl
@[simp] theorem measured_dotDash (b : Nat) (s : State) : (measured b s).dotDash = s.dotDash := rfl
@[simp] theorem measured_wordGap (b : Nat) (s : State) : (measured b s).wordGap = s.wordGap := rfl
@[simp] theorem measured_rtab (b : Nat) (s : State) : (measured b s).rtab = s.rtab := rfl
@[simp] theorem measured_s1 (b : Nat) (s : State) :
    (measured b s).s1 = (goertzelRun s.params.ops s.c (blockAt s b)).1 := rfl
@[simp] theorem measured_s2 (b : Nat) (s : State) :
    (measured b s).s2 = (goertzelRun s.params.ops s.c (blockAt s b)).2 := rfl
@[simp] theorem measured_mag (b : Nat) (s : State) :
    (measured b s).mag = blockPower s.params.ops s.c (blockAt s b) := rfl
@[simp] theorem measured_thon (b : Nat) (s : State) : (measured b s).thon = s.thon := rfl
@[simp] theorem measured_thoff (b : Nat) (s : State) : (measured b s).thoff = s.thoff := rfl
@[simp] theorem measured_st (b : Nat) (s : State) : (measured b s).st = s.st := rfl
@[simp] theorem measured_gb (b : Nat) (s : State) : (measured b s).gb = b := rfl
@[simp] theorem measured_gi (b : Nat) (s : State) : (measured b s).gi = freeIndexOf s 0 := rfl
@[simp] theorem measured_pat (b : Nat) (s : State) : (measured b s).pat = s.pat := rfl
@[simp] theorem measured_nidx (b : Nat) (s : State) : (measured b s).nidx = s.nidx := rfl
@[simp] theorem measured_ru (b : Nat) (s : State) : (measured b s).ru = s.ru := rfl
@[simp] theorem measured_rj (b : Nat) (s : State) : (measured b s).rj = s.rj := rfl
@[simp] theorem measured_crc (b : Nat) (s : State) : (measured b s).crc = s.crc := rfl
@[simp] theorem measured_crc4 (b : Nat) (s : State) : (measured b s).crc4 = s.crc4 := rfl
@[simp] theorem measured_got4 (b : Nat) (s : State) : (measured b s).got4 = s.got4 := rfl
@[simp] theorem measured_timLen (b : Nat) (s : State) : (measured b s).timLen = s.timLen := rfl
@[simp] theorem measured_pcmLen (b : Nat) (s : State) : (measured b s).pcmLen = s.pcmLen := rfl
@[simp] theorem measured_bitsLen (b : Nat) (s : State) : (measured b s).bitsLen = s.bitsLen := rfl
@[simp] theorem measured_runsLen (b : Nat) (s : State) : (measured b s).runsLen = s.runsLen := rfl
@[simp] theorem measured_txtLen (b : Nat) (s : State) : (measured b s).txtLen = s.txtLen := rfl
@[simp] theorem measured_payLen (b : Nat) (s : State) : (measured b s).payLen = s.payLen := rfl
@[simp] theorem measured_tim (b : Nat) (s : State) : (measured b s).tim = s.tim := rfl
@[simp] theorem measured_pcm (b : Nat) (s : State) : (measured b s).pcm = s.pcm := rfl
@[simp] theorem measured_mags (b : Nat) (s : State) : (measured b s).mags = s.mags := rfl
@[simp] theorem measured_bits (b : Nat) (s : State) : (measured b s).bits = s.bits := rfl
@[simp] theorem measured_runs (b : Nat) (s : State) : (measured b s).runs = s.runs := rfl
@[simp] theorem measured_txt (b : Nat) (s : State) : (measured b s).txt = s.txt := rfl
@[simp] theorem measured_pay (b : Nat) (s : State) : (measured b s).pay = s.pay := rfl
@[simp] theorem measured_ready (b : Nat) (s : State) : (measured b s).ready = s.ready := rfl
@[simp] theorem measured_busy (b : Nat) (s : State) : (measured b s).busy = s.busy := rfl
@[simp] theorem measured_valid (b : Nat) (s : State) : (measured b s).valid = s.valid := rfl
@[simp] theorem measured_stage (b : Nat) (s : State) : (measured b s).stage = s.stage := rfl
@[simp] theorem measured_err (b : Nat) (s : State) : (measured b s).err = s.err := rfl
@[simp] theorem measured_params (b : Nat) (s : State) : (measured b s).params = s.params := rfl
@[simp] theorem measured_free (b : Nat) (s : State) : (measured b s).free = s.free + 1 := rfl
@[simp] theorem measured_host (b : Nat) (s : State) : (measured b s).host = s.host := rfl

/-! ## the early return of `DETECT` (`42_goertzel.md` R185) -/

@[simp] theorem noBlocksFound_fs (s : State) : (noBlocksFound s).fs = s.fs := rfl
@[simp] theorem noBlocksFound_f0 (s : State) : (noBlocksFound s).f0 = s.f0 := rfl
@[simp] theorem noBlocksFound_wpm (s : State) : (noBlocksFound s).wpm = s.wpm := rfl
@[simp] theorem noBlocksFound_n (s : State) : (noBlocksFound s).n = s.n := rfl
@[simp] theorem noBlocksFound_theta (s : State) : (noBlocksFound s).theta = s.theta := rfl
@[simp] theorem noBlocksFound_bpu (s : State) : (noBlocksFound s).bpu = s.bpu := rfl
@[simp] theorem noBlocksFound_k (s : State) : (noBlocksFound s).k = s.k := rfl
@[simp] theorem noBlocksFound_c (s : State) : (noBlocksFound s).c = s.c := rfl
@[simp] theorem noBlocksFound_omega (s : State) : (noBlocksFound s).omega = s.omega := rfl
@[simp] theorem noBlocksFound_spu (s : State) : (noBlocksFound s).spu = s.spu := rfl
@[simp] theorem noBlocksFound_dotDash (s : State) : (noBlocksFound s).dotDash = s.dotDash := rfl
@[simp] theorem noBlocksFound_wordGap (s : State) : (noBlocksFound s).wordGap = s.wordGap := rfl
@[simp] theorem noBlocksFound_rtab (s : State) : (noBlocksFound s).rtab = s.rtab := rfl
@[simp] theorem noBlocksFound_s1 (s : State) : (noBlocksFound s).s1 = s.s1 := rfl
@[simp] theorem noBlocksFound_s2 (s : State) : (noBlocksFound s).s2 = s.s2 := rfl
@[simp] theorem noBlocksFound_mag (s : State) : (noBlocksFound s).mag = s.mag := rfl
@[simp] theorem noBlocksFound_thon (s : State) : (noBlocksFound s).thon = s.thon := rfl
@[simp] theorem noBlocksFound_thoff (s : State) : (noBlocksFound s).thoff = s.thoff := rfl
@[simp] theorem noBlocksFound_st (s : State) : (noBlocksFound s).st = s.st := rfl
@[simp] theorem noBlocksFound_gb (s : State) : (noBlocksFound s).gb = s.gb := rfl
@[simp] theorem noBlocksFound_gi (s : State) : (noBlocksFound s).gi = s.gi := rfl
@[simp] theorem noBlocksFound_pat (s : State) : (noBlocksFound s).pat = s.pat := rfl
@[simp] theorem noBlocksFound_nidx (s : State) : (noBlocksFound s).nidx = s.nidx := rfl
@[simp] theorem noBlocksFound_ru (s : State) : (noBlocksFound s).ru = s.ru := rfl
@[simp] theorem noBlocksFound_rj (s : State) : (noBlocksFound s).rj = s.rj := rfl
@[simp] theorem noBlocksFound_crc (s : State) : (noBlocksFound s).crc = s.crc := rfl
@[simp] theorem noBlocksFound_crc4 (s : State) : (noBlocksFound s).crc4 = s.crc4 := rfl
@[simp] theorem noBlocksFound_got4 (s : State) : (noBlocksFound s).got4 = s.got4 := rfl
@[simp] theorem noBlocksFound_timLen (s : State) : (noBlocksFound s).timLen = s.timLen := rfl
@[simp] theorem noBlocksFound_pcmLen (s : State) : (noBlocksFound s).pcmLen = s.pcmLen := rfl
@[simp] theorem noBlocksFound_bitsLen (s : State) : (noBlocksFound s).bitsLen = 0 := rfl
@[simp] theorem noBlocksFound_runsLen (s : State) : (noBlocksFound s).runsLen = s.runsLen := rfl
@[simp] theorem noBlocksFound_txtLen (s : State) : (noBlocksFound s).txtLen = s.txtLen := rfl
@[simp] theorem noBlocksFound_payLen (s : State) : (noBlocksFound s).payLen = s.payLen := rfl
@[simp] theorem noBlocksFound_tim (s : State) : (noBlocksFound s).tim = s.tim := rfl
@[simp] theorem noBlocksFound_pcm (s : State) : (noBlocksFound s).pcm = s.pcm := rfl
@[simp] theorem noBlocksFound_mags (s : State) : (noBlocksFound s).mags = s.mags := rfl
@[simp] theorem noBlocksFound_bits (s : State) : (noBlocksFound s).bits = forget 0 s.bits := rfl
@[simp] theorem noBlocksFound_runs (s : State) : (noBlocksFound s).runs = s.runs := rfl
@[simp] theorem noBlocksFound_txt (s : State) : (noBlocksFound s).txt = s.txt := rfl
@[simp] theorem noBlocksFound_pay (s : State) : (noBlocksFound s).pay = s.pay := rfl
@[simp] theorem noBlocksFound_ready (s : State) : (noBlocksFound s).ready = s.ready := rfl
@[simp] theorem noBlocksFound_busy (s : State) : (noBlocksFound s).busy = s.busy := rfl
@[simp] theorem noBlocksFound_valid (s : State) : (noBlocksFound s).valid = s.valid := rfl
@[simp] theorem noBlocksFound_stage (s : State) : (noBlocksFound s).stage = s.stage := rfl
@[simp] theorem noBlocksFound_err (s : State) : (noBlocksFound s).err = s.err := rfl
@[simp] theorem noBlocksFound_params (s : State) : (noBlocksFound s).params = s.params := rfl
@[simp] theorem noBlocksFound_free (s : State) : (noBlocksFound s).free = s.free := rfl
@[simp] theorem noBlocksFound_host (s : State) : (noBlocksFound s).host = s.host := rfl

/-! ## `DETECT` (`42_goertzel.md` R185) -/

@[simp] theorem detected_fs (s : State) (ms : List RNum) : (detected s ms).fs = s.fs := rfl
@[simp] theorem detected_f0 (s : State) (ms : List RNum) : (detected s ms).f0 = s.f0 := rfl
@[simp] theorem detected_wpm (s : State) (ms : List RNum) : (detected s ms).wpm = s.wpm := rfl
@[simp] theorem detected_n (s : State) (ms : List RNum) : (detected s ms).n = s.n := rfl
@[simp] theorem detected_theta (s : State) (ms : List RNum) : (detected s ms).theta = s.theta := rfl
@[simp] theorem detected_bpu (s : State) (ms : List RNum) : (detected s ms).bpu = s.bpu := rfl
@[simp] theorem detected_k (s : State) (ms : List RNum) : (detected s ms).k = s.k := rfl
@[simp] theorem detected_c (s : State) (ms : List RNum) : (detected s ms).c = s.c := rfl
@[simp] theorem detected_omega (s : State) (ms : List RNum) : (detected s ms).omega = s.omega := rfl
@[simp] theorem detected_spu (s : State) (ms : List RNum) : (detected s ms).spu = s.spu := rfl
@[simp] theorem detected_dotDash (s : State) (ms : List RNum) : (detected s ms).dotDash = s.dotDash := rfl
@[simp] theorem detected_wordGap (s : State) (ms : List RNum) : (detected s ms).wordGap = s.wordGap := rfl
@[simp] theorem detected_rtab (s : State) (ms : List RNum) : (detected s ms).rtab = s.rtab := rfl
@[simp] theorem detected_s1 (s : State) (ms : List RNum) : (detected s ms).s1 = (lastRecurrence s).1 := rfl
@[simp] theorem detected_s2 (s : State) (ms : List RNum) : (detected s ms).s2 = (lastRecurrence s).2 := rfl
@[simp] theorem detected_mag (s : State) (ms : List RNum) : (detected s ms).mag = s.mag := rfl
@[simp] theorem detected_thon (s : State) (ms : List RNum) :
    (detected s ms).thon = thresholdOn s.params s.theta ms := rfl
@[simp] theorem detected_thoff (s : State) (ms : List RNum) :
    (detected s ms).thoff = thresholdOff s.params (thresholdOn s.params s.theta ms) := rfl
@[simp] theorem detected_st (s : State) (ms : List RNum) : (detected s ms).st = (bitsFor s ms).getLastD false := rfl
@[simp] theorem detected_gb (s : State) (ms : List RNum) : (detected s ms).gb = freeIndexOf s 0 := rfl
@[simp] theorem detected_gi (s : State) (ms : List RNum) : (detected s ms).gi = freeIndexOf s 1 := rfl
@[simp] theorem detected_pat (s : State) (ms : List RNum) : (detected s ms).pat = s.pat := rfl
@[simp] theorem detected_nidx (s : State) (ms : List RNum) : (detected s ms).nidx = s.nidx := rfl
@[simp] theorem detected_ru (s : State) (ms : List RNum) : (detected s ms).ru = s.ru := rfl
@[simp] theorem detected_rj (s : State) (ms : List RNum) : (detected s ms).rj = s.rj := rfl
@[simp] theorem detected_crc (s : State) (ms : List RNum) : (detected s ms).crc = s.crc := rfl
@[simp] theorem detected_crc4 (s : State) (ms : List RNum) : (detected s ms).crc4 = s.crc4 := rfl
@[simp] theorem detected_got4 (s : State) (ms : List RNum) : (detected s ms).got4 = s.got4 := rfl
@[simp] theorem detected_timLen (s : State) (ms : List RNum) : (detected s ms).timLen = s.timLen := rfl
@[simp] theorem detected_pcmLen (s : State) (ms : List RNum) : (detected s ms).pcmLen = s.pcmLen := rfl
@[simp] theorem detected_bitsLen (s : State) (ms : List RNum) : (detected s ms).bitsLen = blockCount s := rfl
@[simp] theorem detected_runsLen (s : State) (ms : List RNum) : (detected s ms).runsLen = s.runsLen := rfl
@[simp] theorem detected_txtLen (s : State) (ms : List RNum) : (detected s ms).txtLen = s.txtLen := rfl
@[simp] theorem detected_payLen (s : State) (ms : List RNum) : (detected s ms).payLen = s.payLen := rfl
@[simp] theorem detected_tim (s : State) (ms : List RNum) : (detected s ms).tim = s.tim := rfl
@[simp] theorem detected_pcm (s : State) (ms : List RNum) : (detected s ms).pcm = s.pcm := rfl
@[simp] theorem detected_mags (s : State) (ms : List RNum) : (detected s ms).mags = store s.mags ms := rfl
@[simp] theorem detected_bits (s : State) (ms : List RNum) : (detected s ms).bits = store s.bits (bitsFor s ms) := rfl
@[simp] theorem detected_runs (s : State) (ms : List RNum) : (detected s ms).runs = s.runs := rfl
@[simp] theorem detected_txt (s : State) (ms : List RNum) : (detected s ms).txt = s.txt := rfl
@[simp] theorem detected_pay (s : State) (ms : List RNum) : (detected s ms).pay = s.pay := rfl
@[simp] theorem detected_ready (s : State) (ms : List RNum) : (detected s ms).ready = s.ready := rfl
@[simp] theorem detected_busy (s : State) (ms : List RNum) : (detected s ms).busy = s.busy := rfl
@[simp] theorem detected_valid (s : State) (ms : List RNum) : (detected s ms).valid = s.valid := rfl
@[simp] theorem detected_stage (s : State) (ms : List RNum) : (detected s ms).stage = s.stage := rfl
@[simp] theorem detected_err (s : State) (ms : List RNum) : (detected s ms).err = s.err := rfl
@[simp] theorem detected_params (s : State) (ms : List RNum) : (detected s ms).params = s.params := rfl
@[simp] theorem detected_free (s : State) (ms : List RNum) : (detected s ms).free = s.free + 2 := rfl
@[simp] theorem detected_host (s : State) (ms : List RNum) : (detected s ms).host = s.host := rfl

/-! ## `DEMOD` (`43_demod.md` R213) -/

@[simp] theorem demodulated_fs (s : State) : (demodulated s).fs = s.fs := rfl
@[simp] theorem demodulated_f0 (s : State) : (demodulated s).f0 = s.f0 := rfl
@[simp] theorem demodulated_wpm (s : State) : (demodulated s).wpm = s.wpm := rfl
@[simp] theorem demodulated_n (s : State) : (demodulated s).n = s.n := rfl
@[simp] theorem demodulated_theta (s : State) : (demodulated s).theta = s.theta := rfl
@[simp] theorem demodulated_bpu (s : State) : (demodulated s).bpu = s.bpu := rfl
@[simp] theorem demodulated_k (s : State) : (demodulated s).k = s.k := rfl
@[simp] theorem demodulated_c (s : State) : (demodulated s).c = s.c := rfl
@[simp] theorem demodulated_omega (s : State) : (demodulated s).omega = s.omega := rfl
@[simp] theorem demodulated_spu (s : State) : (demodulated s).spu = s.spu := rfl
@[simp] theorem demodulated_dotDash (s : State) : (demodulated s).dotDash = s.dotDash := rfl
@[simp] theorem demodulated_wordGap (s : State) : (demodulated s).wordGap = s.wordGap := rfl
@[simp] theorem demodulated_rtab (s : State) : (demodulated s).rtab = s.rtab := rfl
@[simp] theorem demodulated_s1 (s : State) : (demodulated s).s1 = s.s1 := rfl
@[simp] theorem demodulated_s2 (s : State) : (demodulated s).s2 = s.s2 := rfl
@[simp] theorem demodulated_mag (s : State) : (demodulated s).mag = s.mag := rfl
@[simp] theorem demodulated_thon (s : State) : (demodulated s).thon = s.thon := rfl
@[simp] theorem demodulated_thoff (s : State) : (demodulated s).thoff = s.thoff := rfl
@[simp] theorem demodulated_st (s : State) : (demodulated s).st = s.st := rfl
@[simp] theorem demodulated_gb (s : State) : (demodulated s).gb = s.gb := rfl
@[simp] theorem demodulated_gi (s : State) : (demodulated s).gi = s.gi := rfl
@[simp] theorem demodulated_pat (s : State) : (demodulated s).pat = [] := rfl
@[simp] theorem demodulated_nidx (s : State) : (demodulated s).nidx = s.nidx := rfl
@[simp] theorem demodulated_ru (s : State) : (demodulated s).ru = s.ru := rfl
@[simp] theorem demodulated_rj (s : State) : (demodulated s).rj = s.rj := rfl
@[simp] theorem demodulated_crc (s : State) : (demodulated s).crc = s.crc := rfl
@[simp] theorem demodulated_crc4 (s : State) : (demodulated s).crc4 = s.crc4 := rfl
@[simp] theorem demodulated_got4 (s : State) : (demodulated s).got4 = s.got4 := rfl
@[simp] theorem demodulated_timLen (s : State) : (demodulated s).timLen = s.timLen := rfl
@[simp] theorem demodulated_pcmLen (s : State) : (demodulated s).pcmLen = s.pcmLen := rfl
@[simp] theorem demodulated_bitsLen (s : State) : (demodulated s).bitsLen = s.bitsLen := rfl
@[simp] theorem demodulated_runsLen (s : State) : (demodulated s).runsLen = (runsOf s).length := rfl
@[simp] theorem demodulated_txtLen (s : State) : (demodulated s).txtLen = (textOf s).length := rfl
@[simp] theorem demodulated_payLen (s : State) : (demodulated s).payLen = s.payLen := rfl
@[simp] theorem demodulated_tim (s : State) : (demodulated s).tim = s.tim := rfl
@[simp] theorem demodulated_pcm (s : State) : (demodulated s).pcm = s.pcm := rfl
@[simp] theorem demodulated_mags (s : State) : (demodulated s).mags = s.mags := rfl
@[simp] theorem demodulated_bits (s : State) : (demodulated s).bits = s.bits := rfl
@[simp] theorem demodulated_runs (s : State) : (demodulated s).runs = store s.runs (runsOf s) := rfl
@[simp] theorem demodulated_txt (s : State) : (demodulated s).txt = store s.txt (textOf s) := rfl
@[simp] theorem demodulated_pay (s : State) : (demodulated s).pay = s.pay := rfl
@[simp] theorem demodulated_ready (s : State) : (demodulated s).ready = s.ready := rfl
@[simp] theorem demodulated_busy (s : State) : (demodulated s).busy = s.busy := rfl
@[simp] theorem demodulated_valid (s : State) : (demodulated s).valid = s.valid := rfl
@[simp] theorem demodulated_stage (s : State) : (demodulated s).stage = s.stage := rfl
@[simp] theorem demodulated_err (s : State) : (demodulated s).err = s.err := rfl
@[simp] theorem demodulated_params (s : State) : (demodulated s).params = s.params := rfl
@[simp] theorem demodulated_free (s : State) : (demodulated s).free = s.free := rfl
@[simp] theorem demodulated_host (s : State) : (demodulated s).host = s.host := rfl

/-! ## `FRAME` (`44_frame.md` R250) -/

@[simp] theorem framed_fs (s : State) : (framed s).fs = s.fs := rfl
@[simp] theorem framed_f0 (s : State) : (framed s).f0 = s.f0 := rfl
@[simp] theorem framed_wpm (s : State) : (framed s).wpm = s.wpm := rfl
@[simp] theorem framed_n (s : State) : (framed s).n = s.n := rfl
@[simp] theorem framed_theta (s : State) : (framed s).theta = s.theta := rfl
@[simp] theorem framed_bpu (s : State) : (framed s).bpu = s.bpu := rfl
@[simp] theorem framed_k (s : State) : (framed s).k = s.k := rfl
@[simp] theorem framed_c (s : State) : (framed s).c = s.c := rfl
@[simp] theorem framed_omega (s : State) : (framed s).omega = s.omega := rfl
@[simp] theorem framed_spu (s : State) : (framed s).spu = s.spu := rfl
@[simp] theorem framed_dotDash (s : State) : (framed s).dotDash = s.dotDash := rfl
@[simp] theorem framed_wordGap (s : State) : (framed s).wordGap = s.wordGap := rfl
@[simp] theorem framed_rtab (s : State) : (framed s).rtab = s.rtab := rfl
@[simp] theorem framed_s1 (s : State) : (framed s).s1 = s.s1 := rfl
@[simp] theorem framed_s2 (s : State) : (framed s).s2 = s.s2 := rfl
@[simp] theorem framed_mag (s : State) : (framed s).mag = s.mag := rfl
@[simp] theorem framed_thon (s : State) : (framed s).thon = s.thon := rfl
@[simp] theorem framed_thoff (s : State) : (framed s).thoff = s.thoff := rfl
@[simp] theorem framed_st (s : State) : (framed s).st = s.st := rfl
@[simp] theorem framed_gb (s : State) : (framed s).gb = s.gb := rfl
@[simp] theorem framed_gi (s : State) : (framed s).gi = s.gi := rfl
@[simp] theorem framed_pat (s : State) : (framed s).pat = s.pat := rfl
@[simp] theorem framed_nidx (s : State) : (framed s).nidx = s.nidx := rfl
@[simp] theorem framed_ru (s : State) : (framed s).ru = s.ru := rfl
@[simp] theorem framed_rj (s : State) : (framed s).rj = s.rj := rfl
@[simp] theorem framed_crc (s : State) : (framed s).crc = crc32Of s.params (paySeq s) := rfl
@[simp] theorem framed_crc4 (s : State) : (framed s).crc4 = payloadCrc4 s.params (paySeq s) := rfl
@[simp] theorem framed_got4 (s : State) : (framed s).got4 = s.got4 := rfl
@[simp] theorem framed_timLen (s : State) : (framed s).timLen = s.timLen := rfl
@[simp] theorem framed_pcmLen (s : State) : (framed s).pcmLen = s.pcmLen := rfl
@[simp] theorem framed_bitsLen (s : State) : (framed s).bitsLen = s.bitsLen := rfl
@[simp] theorem framed_runsLen (s : State) : (framed s).runsLen = s.runsLen := rfl
@[simp] theorem framed_txtLen (s : State) : (framed s).txtLen = s.payLen + 11 := rfl
@[simp] theorem framed_payLen (s : State) : (framed s).payLen = s.payLen := rfl
@[simp] theorem framed_tim (s : State) : (framed s).tim = s.tim := rfl
@[simp] theorem framed_pcm (s : State) : (framed s).pcm = s.pcm := rfl
@[simp] theorem framed_mags (s : State) : (framed s).mags = s.mags := rfl
@[simp] theorem framed_bits (s : State) : (framed s).bits = s.bits := rfl
@[simp] theorem framed_runs (s : State) : (framed s).runs = s.runs := rfl
@[simp] theorem framed_txt (s : State) : (framed s).txt = store s.txt (frameText s.params (paySeq s)) := rfl
@[simp] theorem framed_pay (s : State) : (framed s).pay = s.pay := rfl
@[simp] theorem framed_ready (s : State) : (framed s).ready = s.ready := rfl
@[simp] theorem framed_busy (s : State) : (framed s).busy = s.busy := rfl
@[simp] theorem framed_valid (s : State) : (framed s).valid = s.valid := rfl
@[simp] theorem framed_stage (s : State) : (framed s).stage = s.stage := rfl
@[simp] theorem framed_err (s : State) : (framed s).err = s.err := rfl
@[simp] theorem framed_params (s : State) : (framed s).params = s.params := rfl
@[simp] theorem framed_free (s : State) : (framed s).free = s.free := rfl
@[simp] theorem framed_host (s : State) : (framed s).host = s.host := rfl

/-! ## the start of `DEFRAME` (`44_frame.md` R255) -/

@[simp] theorem beginDeframe_fs (s : State) : (beginDeframe s).fs = s.fs := rfl
@[simp] theorem beginDeframe_f0 (s : State) : (beginDeframe s).f0 = s.f0 := rfl
@[simp] theorem beginDeframe_wpm (s : State) : (beginDeframe s).wpm = s.wpm := rfl
@[simp] theorem beginDeframe_n (s : State) : (beginDeframe s).n = s.n := rfl
@[simp] theorem beginDeframe_theta (s : State) : (beginDeframe s).theta = s.theta := rfl
@[simp] theorem beginDeframe_bpu (s : State) : (beginDeframe s).bpu = s.bpu := rfl
@[simp] theorem beginDeframe_k (s : State) : (beginDeframe s).k = s.k := rfl
@[simp] theorem beginDeframe_c (s : State) : (beginDeframe s).c = s.c := rfl
@[simp] theorem beginDeframe_omega (s : State) : (beginDeframe s).omega = s.omega := rfl
@[simp] theorem beginDeframe_spu (s : State) : (beginDeframe s).spu = s.spu := rfl
@[simp] theorem beginDeframe_dotDash (s : State) : (beginDeframe s).dotDash = s.dotDash := rfl
@[simp] theorem beginDeframe_wordGap (s : State) : (beginDeframe s).wordGap = s.wordGap := rfl
@[simp] theorem beginDeframe_rtab (s : State) : (beginDeframe s).rtab = s.rtab := rfl
@[simp] theorem beginDeframe_s1 (s : State) : (beginDeframe s).s1 = s.s1 := rfl
@[simp] theorem beginDeframe_s2 (s : State) : (beginDeframe s).s2 = s.s2 := rfl
@[simp] theorem beginDeframe_mag (s : State) : (beginDeframe s).mag = s.mag := rfl
@[simp] theorem beginDeframe_thon (s : State) : (beginDeframe s).thon = s.thon := rfl
@[simp] theorem beginDeframe_thoff (s : State) : (beginDeframe s).thoff = s.thoff := rfl
@[simp] theorem beginDeframe_st (s : State) : (beginDeframe s).st = s.st := rfl
@[simp] theorem beginDeframe_gb (s : State) : (beginDeframe s).gb = s.gb := rfl
@[simp] theorem beginDeframe_gi (s : State) : (beginDeframe s).gi = s.gi := rfl
@[simp] theorem beginDeframe_pat (s : State) : (beginDeframe s).pat = s.pat := rfl
@[simp] theorem beginDeframe_nidx (s : State) : (beginDeframe s).nidx = s.nidx := rfl
@[simp] theorem beginDeframe_ru (s : State) : (beginDeframe s).ru = s.ru := rfl
@[simp] theorem beginDeframe_rj (s : State) : (beginDeframe s).rj = s.rj := rfl
@[simp] theorem beginDeframe_crc (s : State) : (beginDeframe s).crc = s.crc := rfl
@[simp] theorem beginDeframe_crc4 (s : State) : (beginDeframe s).crc4 = s.crc4 := rfl
@[simp] theorem beginDeframe_got4 (s : State) : (beginDeframe s).got4 = s.got4 := rfl
@[simp] theorem beginDeframe_timLen (s : State) : (beginDeframe s).timLen = s.timLen := rfl
@[simp] theorem beginDeframe_pcmLen (s : State) : (beginDeframe s).pcmLen = s.pcmLen := rfl
@[simp] theorem beginDeframe_bitsLen (s : State) : (beginDeframe s).bitsLen = s.bitsLen := rfl
@[simp] theorem beginDeframe_runsLen (s : State) : (beginDeframe s).runsLen = s.runsLen := rfl
@[simp] theorem beginDeframe_txtLen (s : State) : (beginDeframe s).txtLen = s.txtLen := rfl
@[simp] theorem beginDeframe_payLen (s : State) : (beginDeframe s).payLen = 0 := rfl
@[simp] theorem beginDeframe_tim (s : State) : (beginDeframe s).tim = s.tim := rfl
@[simp] theorem beginDeframe_pcm (s : State) : (beginDeframe s).pcm = s.pcm := rfl
@[simp] theorem beginDeframe_mags (s : State) : (beginDeframe s).mags = s.mags := rfl
@[simp] theorem beginDeframe_bits (s : State) : (beginDeframe s).bits = s.bits := rfl
@[simp] theorem beginDeframe_runs (s : State) : (beginDeframe s).runs = s.runs := rfl
@[simp] theorem beginDeframe_txt (s : State) : (beginDeframe s).txt = s.txt := rfl
@[simp] theorem beginDeframe_pay (s : State) : (beginDeframe s).pay = forget 0 s.pay := rfl
@[simp] theorem beginDeframe_ready (s : State) : (beginDeframe s).ready = s.ready := rfl
@[simp] theorem beginDeframe_busy (s : State) : (beginDeframe s).busy = s.busy := rfl
@[simp] theorem beginDeframe_valid (s : State) : (beginDeframe s).valid = false := rfl
@[simp] theorem beginDeframe_stage (s : State) : (beginDeframe s).stage = s.stage := rfl
@[simp] theorem beginDeframe_err (s : State) : (beginDeframe s).err = .none := rfl
@[simp] theorem beginDeframe_params (s : State) : (beginDeframe s).params = s.params := rfl
@[simp] theorem beginDeframe_free (s : State) : (beginDeframe s).free = s.free := rfl
@[simp] theorem beginDeframe_host (s : State) : (beginDeframe s).host = s.host := rfl

/-! ## checks 5 to 7 of `DEFRAME` (`44_frame.md` R255) -/

@[simp] theorem splitFrame_fs (text : List Byte) (s : State) : (splitFrame text s).fs = s.fs := rfl
@[simp] theorem splitFrame_f0 (text : List Byte) (s : State) : (splitFrame text s).f0 = s.f0 := rfl
@[simp] theorem splitFrame_wpm (text : List Byte) (s : State) : (splitFrame text s).wpm = s.wpm := rfl
@[simp] theorem splitFrame_n (text : List Byte) (s : State) : (splitFrame text s).n = s.n := rfl
@[simp] theorem splitFrame_theta (text : List Byte) (s : State) : (splitFrame text s).theta = s.theta := rfl
@[simp] theorem splitFrame_bpu (text : List Byte) (s : State) : (splitFrame text s).bpu = s.bpu := rfl
@[simp] theorem splitFrame_k (text : List Byte) (s : State) : (splitFrame text s).k = s.k := rfl
@[simp] theorem splitFrame_c (text : List Byte) (s : State) : (splitFrame text s).c = s.c := rfl
@[simp] theorem splitFrame_omega (text : List Byte) (s : State) : (splitFrame text s).omega = s.omega := rfl
@[simp] theorem splitFrame_spu (text : List Byte) (s : State) : (splitFrame text s).spu = s.spu := rfl
@[simp] theorem splitFrame_dotDash (text : List Byte) (s : State) : (splitFrame text s).dotDash = s.dotDash := rfl
@[simp] theorem splitFrame_wordGap (text : List Byte) (s : State) : (splitFrame text s).wordGap = s.wordGap := rfl
@[simp] theorem splitFrame_rtab (text : List Byte) (s : State) : (splitFrame text s).rtab = s.rtab := rfl
@[simp] theorem splitFrame_s1 (text : List Byte) (s : State) : (splitFrame text s).s1 = s.s1 := rfl
@[simp] theorem splitFrame_s2 (text : List Byte) (s : State) : (splitFrame text s).s2 = s.s2 := rfl
@[simp] theorem splitFrame_mag (text : List Byte) (s : State) : (splitFrame text s).mag = s.mag := rfl
@[simp] theorem splitFrame_thon (text : List Byte) (s : State) : (splitFrame text s).thon = s.thon := rfl
@[simp] theorem splitFrame_thoff (text : List Byte) (s : State) : (splitFrame text s).thoff = s.thoff := rfl
@[simp] theorem splitFrame_st (text : List Byte) (s : State) : (splitFrame text s).st = s.st := rfl
@[simp] theorem splitFrame_gb (text : List Byte) (s : State) : (splitFrame text s).gb = s.gb := rfl
@[simp] theorem splitFrame_gi (text : List Byte) (s : State) : (splitFrame text s).gi = s.gi := rfl
@[simp] theorem splitFrame_pat (text : List Byte) (s : State) : (splitFrame text s).pat = s.pat := rfl
@[simp] theorem splitFrame_nidx (text : List Byte) (s : State) : (splitFrame text s).nidx = s.nidx := rfl
@[simp] theorem splitFrame_ru (text : List Byte) (s : State) : (splitFrame text s).ru = s.ru := rfl
@[simp] theorem splitFrame_rj (text : List Byte) (s : State) : (splitFrame text s).rj = s.rj := rfl
@[simp] theorem splitFrame_crc (text : List Byte) (s : State) :
    (splitFrame text s).crc = crc32Of s.params (payloadOf text) := rfl
@[simp] theorem splitFrame_crc4 (text : List Byte) (s : State) :
    (splitFrame text s).crc4 = payloadCrc4 s.params (payloadOf text) := rfl
@[simp] theorem splitFrame_got4 (text : List Byte) (s : State) : (splitFrame text s).got4 = receivedCrc text := rfl
@[simp] theorem splitFrame_timLen (text : List Byte) (s : State) : (splitFrame text s).timLen = s.timLen := rfl
@[simp] theorem splitFrame_pcmLen (text : List Byte) (s : State) : (splitFrame text s).pcmLen = s.pcmLen := rfl
@[simp] theorem splitFrame_bitsLen (text : List Byte) (s : State) : (splitFrame text s).bitsLen = s.bitsLen := rfl
@[simp] theorem splitFrame_runsLen (text : List Byte) (s : State) : (splitFrame text s).runsLen = s.runsLen := rfl
@[simp] theorem splitFrame_txtLen (text : List Byte) (s : State) : (splitFrame text s).txtLen = s.txtLen := rfl
@[simp] theorem splitFrame_payLen (text : List Byte) (s : State) :
    (splitFrame text s).payLen = (payloadOf text).length := rfl
@[simp] theorem splitFrame_tim (text : List Byte) (s : State) : (splitFrame text s).tim = s.tim := rfl
@[simp] theorem splitFrame_pcm (text : List Byte) (s : State) : (splitFrame text s).pcm = s.pcm := rfl
@[simp] theorem splitFrame_mags (text : List Byte) (s : State) : (splitFrame text s).mags = s.mags := rfl
@[simp] theorem splitFrame_bits (text : List Byte) (s : State) : (splitFrame text s).bits = s.bits := rfl
@[simp] theorem splitFrame_runs (text : List Byte) (s : State) : (splitFrame text s).runs = s.runs := rfl
@[simp] theorem splitFrame_txt (text : List Byte) (s : State) : (splitFrame text s).txt = s.txt := rfl
@[simp] theorem splitFrame_pay (text : List Byte) (s : State) :
    (splitFrame text s).pay = store s.pay (payloadOf text) := rfl
@[simp] theorem splitFrame_ready (text : List Byte) (s : State) : (splitFrame text s).ready = s.ready := rfl
@[simp] theorem splitFrame_busy (text : List Byte) (s : State) : (splitFrame text s).busy = s.busy := rfl
@[simp] theorem splitFrame_valid (text : List Byte) (s : State) : (splitFrame text s).valid = s.valid := rfl
@[simp] theorem splitFrame_stage (text : List Byte) (s : State) : (splitFrame text s).stage = s.stage := rfl
@[simp] theorem splitFrame_err (text : List Byte) (s : State) : (splitFrame text s).err = s.err := rfl
@[simp] theorem splitFrame_params (text : List Byte) (s : State) : (splitFrame text s).params = s.params := rfl
@[simp] theorem splitFrame_free (text : List Byte) (s : State) : (splitFrame text s).free = s.free := rfl
@[simp] theorem splitFrame_host (text : List Byte) (s : State) : (splitFrame text s).host = s.host := rfl

/-! ## the fresh result of `DECODE` (`45_decode.md` R288) -/

@[simp] theorem freshResult_fs (s : State) : (freshResult s).fs = s.fs := rfl
@[simp] theorem freshResult_f0 (s : State) : (freshResult s).f0 = s.f0 := rfl
@[simp] theorem freshResult_wpm (s : State) : (freshResult s).wpm = s.wpm := rfl
@[simp] theorem freshResult_n (s : State) : (freshResult s).n = s.n := rfl
@[simp] theorem freshResult_theta (s : State) : (freshResult s).theta = s.theta := rfl
@[simp] theorem freshResult_bpu (s : State) : (freshResult s).bpu = s.bpu := rfl
@[simp] theorem freshResult_k (s : State) : (freshResult s).k = s.k := rfl
@[simp] theorem freshResult_c (s : State) : (freshResult s).c = s.c := rfl
@[simp] theorem freshResult_omega (s : State) : (freshResult s).omega = s.omega := rfl
@[simp] theorem freshResult_spu (s : State) : (freshResult s).spu = s.spu := rfl
@[simp] theorem freshResult_dotDash (s : State) : (freshResult s).dotDash = s.dotDash := rfl
@[simp] theorem freshResult_wordGap (s : State) : (freshResult s).wordGap = s.wordGap := rfl
@[simp] theorem freshResult_rtab (s : State) : (freshResult s).rtab = s.rtab := rfl
@[simp] theorem freshResult_s1 (s : State) : (freshResult s).s1 = s.s1 := rfl
@[simp] theorem freshResult_s2 (s : State) : (freshResult s).s2 = s.s2 := rfl
@[simp] theorem freshResult_mag (s : State) : (freshResult s).mag = s.mag := rfl
@[simp] theorem freshResult_thon (s : State) : (freshResult s).thon = s.thon := rfl
@[simp] theorem freshResult_thoff (s : State) : (freshResult s).thoff = s.thoff := rfl
@[simp] theorem freshResult_st (s : State) : (freshResult s).st = s.st := rfl
@[simp] theorem freshResult_gb (s : State) : (freshResult s).gb = s.gb := rfl
@[simp] theorem freshResult_gi (s : State) : (freshResult s).gi = s.gi := rfl
@[simp] theorem freshResult_pat (s : State) : (freshResult s).pat = s.pat := rfl
@[simp] theorem freshResult_nidx (s : State) : (freshResult s).nidx = s.nidx := rfl
@[simp] theorem freshResult_ru (s : State) : (freshResult s).ru = s.ru := rfl
@[simp] theorem freshResult_rj (s : State) : (freshResult s).rj = s.rj := rfl
@[simp] theorem freshResult_crc (s : State) : (freshResult s).crc = s.crc := rfl
@[simp] theorem freshResult_crc4 (s : State) : (freshResult s).crc4 = s.crc4 := rfl
@[simp] theorem freshResult_got4 (s : State) : (freshResult s).got4 = s.got4 := rfl
@[simp] theorem freshResult_timLen (s : State) : (freshResult s).timLen = s.timLen := rfl
@[simp] theorem freshResult_pcmLen (s : State) : (freshResult s).pcmLen = s.pcmLen := rfl
@[simp] theorem freshResult_bitsLen (s : State) : (freshResult s).bitsLen = 0 := rfl
@[simp] theorem freshResult_runsLen (s : State) : (freshResult s).runsLen = 0 := rfl
@[simp] theorem freshResult_txtLen (s : State) : (freshResult s).txtLen = 0 := rfl
@[simp] theorem freshResult_payLen (s : State) : (freshResult s).payLen = 0 := rfl
@[simp] theorem freshResult_tim (s : State) : (freshResult s).tim = s.tim := rfl
@[simp] theorem freshResult_pcm (s : State) : (freshResult s).pcm = s.pcm := rfl
@[simp] theorem freshResult_mags (s : State) : (freshResult s).mags = s.mags := rfl
@[simp] theorem freshResult_bits (s : State) : (freshResult s).bits = forget 0 s.bits := rfl
@[simp] theorem freshResult_runs (s : State) : (freshResult s).runs = forget 0 s.runs := rfl
@[simp] theorem freshResult_txt (s : State) : (freshResult s).txt = forget 0 s.txt := rfl
@[simp] theorem freshResult_pay (s : State) : (freshResult s).pay = forget 0 s.pay := rfl
@[simp] theorem freshResult_ready (s : State) : (freshResult s).ready = s.ready := rfl
@[simp] theorem freshResult_busy (s : State) : (freshResult s).busy = s.busy := rfl
@[simp] theorem freshResult_valid (s : State) : (freshResult s).valid = false := rfl
@[simp] theorem freshResult_stage (s : State) : (freshResult s).stage = s.stage := rfl
@[simp] theorem freshResult_err (s : State) : (freshResult s).err = .none := rfl
@[simp] theorem freshResult_params (s : State) : (freshResult s).params = s.params := rfl
@[simp] theorem freshResult_free (s : State) : (freshResult s).free = s.free := rfl
@[simp] theorem freshResult_host (s : State) : (freshResult s).host = s.host := rfl

/-! ## the stage marker of `DECODE` (`45_decode.md` R281) -/

@[simp] theorem setStage_fs (g : Stage) (s : State) : (setStage g s).fs = s.fs := rfl
@[simp] theorem setStage_f0 (g : Stage) (s : State) : (setStage g s).f0 = s.f0 := rfl
@[simp] theorem setStage_wpm (g : Stage) (s : State) : (setStage g s).wpm = s.wpm := rfl
@[simp] theorem setStage_n (g : Stage) (s : State) : (setStage g s).n = s.n := rfl
@[simp] theorem setStage_theta (g : Stage) (s : State) : (setStage g s).theta = s.theta := rfl
@[simp] theorem setStage_bpu (g : Stage) (s : State) : (setStage g s).bpu = s.bpu := rfl
@[simp] theorem setStage_k (g : Stage) (s : State) : (setStage g s).k = s.k := rfl
@[simp] theorem setStage_c (g : Stage) (s : State) : (setStage g s).c = s.c := rfl
@[simp] theorem setStage_omega (g : Stage) (s : State) : (setStage g s).omega = s.omega := rfl
@[simp] theorem setStage_spu (g : Stage) (s : State) : (setStage g s).spu = s.spu := rfl
@[simp] theorem setStage_dotDash (g : Stage) (s : State) : (setStage g s).dotDash = s.dotDash := rfl
@[simp] theorem setStage_wordGap (g : Stage) (s : State) : (setStage g s).wordGap = s.wordGap := rfl
@[simp] theorem setStage_rtab (g : Stage) (s : State) : (setStage g s).rtab = s.rtab := rfl
@[simp] theorem setStage_s1 (g : Stage) (s : State) : (setStage g s).s1 = s.s1 := rfl
@[simp] theorem setStage_s2 (g : Stage) (s : State) : (setStage g s).s2 = s.s2 := rfl
@[simp] theorem setStage_mag (g : Stage) (s : State) : (setStage g s).mag = s.mag := rfl
@[simp] theorem setStage_thon (g : Stage) (s : State) : (setStage g s).thon = s.thon := rfl
@[simp] theorem setStage_thoff (g : Stage) (s : State) : (setStage g s).thoff = s.thoff := rfl
@[simp] theorem setStage_st (g : Stage) (s : State) : (setStage g s).st = s.st := rfl
@[simp] theorem setStage_gb (g : Stage) (s : State) : (setStage g s).gb = s.gb := rfl
@[simp] theorem setStage_gi (g : Stage) (s : State) : (setStage g s).gi = s.gi := rfl
@[simp] theorem setStage_pat (g : Stage) (s : State) : (setStage g s).pat = s.pat := rfl
@[simp] theorem setStage_nidx (g : Stage) (s : State) : (setStage g s).nidx = s.nidx := rfl
@[simp] theorem setStage_ru (g : Stage) (s : State) : (setStage g s).ru = s.ru := rfl
@[simp] theorem setStage_rj (g : Stage) (s : State) : (setStage g s).rj = s.rj := rfl
@[simp] theorem setStage_crc (g : Stage) (s : State) : (setStage g s).crc = s.crc := rfl
@[simp] theorem setStage_crc4 (g : Stage) (s : State) : (setStage g s).crc4 = s.crc4 := rfl
@[simp] theorem setStage_got4 (g : Stage) (s : State) : (setStage g s).got4 = s.got4 := rfl
@[simp] theorem setStage_timLen (g : Stage) (s : State) : (setStage g s).timLen = s.timLen := rfl
@[simp] theorem setStage_pcmLen (g : Stage) (s : State) : (setStage g s).pcmLen = s.pcmLen := rfl
@[simp] theorem setStage_bitsLen (g : Stage) (s : State) : (setStage g s).bitsLen = s.bitsLen := rfl
@[simp] theorem setStage_runsLen (g : Stage) (s : State) : (setStage g s).runsLen = s.runsLen := rfl
@[simp] theorem setStage_txtLen (g : Stage) (s : State) : (setStage g s).txtLen = s.txtLen := rfl
@[simp] theorem setStage_payLen (g : Stage) (s : State) : (setStage g s).payLen = s.payLen := rfl
@[simp] theorem setStage_tim (g : Stage) (s : State) : (setStage g s).tim = s.tim := rfl
@[simp] theorem setStage_pcm (g : Stage) (s : State) : (setStage g s).pcm = s.pcm := rfl
@[simp] theorem setStage_mags (g : Stage) (s : State) : (setStage g s).mags = s.mags := rfl
@[simp] theorem setStage_bits (g : Stage) (s : State) : (setStage g s).bits = s.bits := rfl
@[simp] theorem setStage_runs (g : Stage) (s : State) : (setStage g s).runs = s.runs := rfl
@[simp] theorem setStage_txt (g : Stage) (s : State) : (setStage g s).txt = s.txt := rfl
@[simp] theorem setStage_pay (g : Stage) (s : State) : (setStage g s).pay = s.pay := rfl
@[simp] theorem setStage_ready (g : Stage) (s : State) : (setStage g s).ready = s.ready := rfl
@[simp] theorem setStage_busy (g : Stage) (s : State) : (setStage g s).busy = s.busy := rfl
@[simp] theorem setStage_valid (g : Stage) (s : State) : (setStage g s).valid = s.valid := rfl
@[simp] theorem setStage_stage (g : Stage) (s : State) : (setStage g s).stage = g := rfl
@[simp] theorem setStage_err (g : Stage) (s : State) : (setStage g s).err = s.err := rfl
@[simp] theorem setStage_params (g : Stage) (s : State) : (setStage g s).params = s.params := rfl
@[simp] theorem setStage_free (g : Stage) (s : State) : (setStage g s).free = s.free := rfl
@[simp] theorem setStage_host (g : Stage) (s : State) : (setStage g s).host = s.host := rfl

/-! ## a command issued by the host (`00_scope.md` R7) -/

@[simp] theorem issue_fs (w : CmdWord) (s : State) : (issue w s).fs = s.fs := rfl
@[simp] theorem issue_f0 (w : CmdWord) (s : State) : (issue w s).f0 = s.f0 := rfl
@[simp] theorem issue_wpm (w : CmdWord) (s : State) : (issue w s).wpm = s.wpm := rfl
@[simp] theorem issue_n (w : CmdWord) (s : State) : (issue w s).n = s.n := rfl
@[simp] theorem issue_theta (w : CmdWord) (s : State) : (issue w s).theta = s.theta := rfl
@[simp] theorem issue_bpu (w : CmdWord) (s : State) : (issue w s).bpu = s.bpu := rfl
@[simp] theorem issue_k (w : CmdWord) (s : State) : (issue w s).k = s.k := rfl
@[simp] theorem issue_c (w : CmdWord) (s : State) : (issue w s).c = s.c := rfl
@[simp] theorem issue_omega (w : CmdWord) (s : State) : (issue w s).omega = s.omega := rfl
@[simp] theorem issue_spu (w : CmdWord) (s : State) : (issue w s).spu = s.spu := rfl
@[simp] theorem issue_dotDash (w : CmdWord) (s : State) : (issue w s).dotDash = s.dotDash := rfl
@[simp] theorem issue_wordGap (w : CmdWord) (s : State) : (issue w s).wordGap = s.wordGap := rfl
@[simp] theorem issue_rtab (w : CmdWord) (s : State) : (issue w s).rtab = s.rtab := rfl
@[simp] theorem issue_s1 (w : CmdWord) (s : State) : (issue w s).s1 = s.s1 := rfl
@[simp] theorem issue_s2 (w : CmdWord) (s : State) : (issue w s).s2 = s.s2 := rfl
@[simp] theorem issue_mag (w : CmdWord) (s : State) : (issue w s).mag = s.mag := rfl
@[simp] theorem issue_thon (w : CmdWord) (s : State) : (issue w s).thon = s.thon := rfl
@[simp] theorem issue_thoff (w : CmdWord) (s : State) : (issue w s).thoff = s.thoff := rfl
@[simp] theorem issue_st (w : CmdWord) (s : State) : (issue w s).st = s.st := rfl
@[simp] theorem issue_gb (w : CmdWord) (s : State) : (issue w s).gb = s.gb := rfl
@[simp] theorem issue_gi (w : CmdWord) (s : State) : (issue w s).gi = s.gi := rfl
@[simp] theorem issue_pat (w : CmdWord) (s : State) : (issue w s).pat = s.pat := rfl
@[simp] theorem issue_nidx (w : CmdWord) (s : State) : (issue w s).nidx = s.nidx := rfl
@[simp] theorem issue_ru (w : CmdWord) (s : State) : (issue w s).ru = s.ru := rfl
@[simp] theorem issue_rj (w : CmdWord) (s : State) : (issue w s).rj = s.rj := rfl
@[simp] theorem issue_crc (w : CmdWord) (s : State) : (issue w s).crc = s.crc := rfl
@[simp] theorem issue_crc4 (w : CmdWord) (s : State) : (issue w s).crc4 = s.crc4 := rfl
@[simp] theorem issue_got4 (w : CmdWord) (s : State) : (issue w s).got4 = s.got4 := rfl
@[simp] theorem issue_timLen (w : CmdWord) (s : State) : (issue w s).timLen = s.timLen := rfl
@[simp] theorem issue_pcmLen (w : CmdWord) (s : State) : (issue w s).pcmLen = s.pcmLen := rfl
@[simp] theorem issue_bitsLen (w : CmdWord) (s : State) : (issue w s).bitsLen = s.bitsLen := rfl
@[simp] theorem issue_runsLen (w : CmdWord) (s : State) : (issue w s).runsLen = s.runsLen := rfl
@[simp] theorem issue_txtLen (w : CmdWord) (s : State) : (issue w s).txtLen = s.txtLen := rfl
@[simp] theorem issue_payLen (w : CmdWord) (s : State) : (issue w s).payLen = s.payLen := rfl
@[simp] theorem issue_tim (w : CmdWord) (s : State) : (issue w s).tim = s.tim := rfl
@[simp] theorem issue_pcm (w : CmdWord) (s : State) : (issue w s).pcm = s.pcm := rfl
@[simp] theorem issue_mags (w : CmdWord) (s : State) : (issue w s).mags = s.mags := rfl
@[simp] theorem issue_bits (w : CmdWord) (s : State) : (issue w s).bits = s.bits := rfl
@[simp] theorem issue_runs (w : CmdWord) (s : State) : (issue w s).runs = s.runs := rfl
@[simp] theorem issue_txt (w : CmdWord) (s : State) : (issue w s).txt = s.txt := rfl
@[simp] theorem issue_pay (w : CmdWord) (s : State) : (issue w s).pay = s.pay := rfl
@[simp] theorem issue_ready (w : CmdWord) (s : State) : (issue w s).ready = s.ready := rfl
@[simp] theorem issue_busy (w : CmdWord) (s : State) : (issue w s).busy = false := rfl
@[simp] theorem issue_valid (w : CmdWord) (s : State) : (issue w s).valid = s.valid := rfl
@[simp] theorem issue_stage (w : CmdWord) (s : State) : (issue w s).stage = s.stage := rfl
@[simp] theorem issue_err (w : CmdWord) (s : State) : (issue w s).err = s.err := rfl
@[simp] theorem issue_params (w : CmdWord) (s : State) : (issue w s).params = s.params := rfl
@[simp] theorem issue_free (w : CmdWord) (s : State) : (issue w s).free = s.free := rfl
@[simp] theorem issue_host (w : CmdWord) (s : State) : (issue w s).host = .command w :: s.host := rfl

/-! ## The register write of `CFGW` (`40_config.md` R141) -/

@[simp] theorem writeConfig_zero (imm : Word) (s : State) : writeConfig 0 imm s = { s with fs := imm } := rfl
@[simp] theorem writeConfig_one (imm : Word) (s : State) : writeConfig 1 imm s = { s with f0 := imm } := rfl
@[simp] theorem writeConfig_two (imm : Word) (s : State) : writeConfig 2 imm s = { s with wpm := imm } := rfl
@[simp] theorem writeConfig_three (imm : Word) (s : State) : writeConfig 3 imm s = { s with n := imm } := rfl
@[simp] theorem writeConfig_four (imm : Word) (s : State) :
    writeConfig 4 imm s = { s with theta := s.params.ops.val32 imm } := rfl
@[simp] theorem writeConfig_five (imm : Word) (s : State) : writeConfig 5 imm s = { s with bpu := imm } := rfl

@[simp] theorem writeConfig_k (sel : BitVec 8) (imm : Word) (s : State) :
    (writeConfig sel imm s).k = s.k := by
  unfold writeConfig; split <;> rfl
@[simp] theorem writeConfig_c (sel : BitVec 8) (imm : Word) (s : State) :
    (writeConfig sel imm s).c = s.c := by
  unfold writeConfig; split <;> rfl
@[simp] theorem writeConfig_omega (sel : BitVec 8) (imm : Word) (s : State) :
    (writeConfig sel imm s).omega = s.omega := by
  unfold writeConfig; split <;> rfl
@[simp] theorem writeConfig_spu (sel : BitVec 8) (imm : Word) (s : State) :
    (writeConfig sel imm s).spu = s.spu := by
  unfold writeConfig; split <;> rfl
@[simp] theorem writeConfig_dotDash (sel : BitVec 8) (imm : Word) (s : State) :
    (writeConfig sel imm s).dotDash = s.dotDash := by
  unfold writeConfig; split <;> rfl
@[simp] theorem writeConfig_wordGap (sel : BitVec 8) (imm : Word) (s : State) :
    (writeConfig sel imm s).wordGap = s.wordGap := by
  unfold writeConfig; split <;> rfl
@[simp] theorem writeConfig_rtab (sel : BitVec 8) (imm : Word) (s : State) :
    (writeConfig sel imm s).rtab = s.rtab := by
  unfold writeConfig; split <;> rfl
@[simp] theorem writeConfig_s1 (sel : BitVec 8) (imm : Word) (s : State) :
    (writeConfig sel imm s).s1 = s.s1 := by
  unfold writeConfig; split <;> rfl
@[simp] theorem writeConfig_s2 (sel : BitVec 8) (imm : Word) (s : State) :
    (writeConfig sel imm s).s2 = s.s2 := by
  unfold writeConfig; split <;> rfl
@[simp] theorem writeConfig_mag (sel : BitVec 8) (imm : Word) (s : State) :
    (writeConfig sel imm s).mag = s.mag := by
  unfold writeConfig; split <;> rfl
@[simp] theorem writeConfig_thon (sel : BitVec 8) (imm : Word) (s : State) :
    (writeConfig sel imm s).thon = s.thon := by
  unfold writeConfig; split <;> rfl
@[simp] theorem writeConfig_thoff (sel : BitVec 8) (imm : Word) (s : State) :
    (writeConfig sel imm s).thoff = s.thoff := by
  unfold writeConfig; split <;> rfl
@[simp] theorem writeConfig_st (sel : BitVec 8) (imm : Word) (s : State) :
    (writeConfig sel imm s).st = s.st := by
  unfold writeConfig; split <;> rfl
@[simp] theorem writeConfig_gb (sel : BitVec 8) (imm : Word) (s : State) :
    (writeConfig sel imm s).gb = s.gb := by
  unfold writeConfig; split <;> rfl
@[simp] theorem writeConfig_gi (sel : BitVec 8) (imm : Word) (s : State) :
    (writeConfig sel imm s).gi = s.gi := by
  unfold writeConfig; split <;> rfl
@[simp] theorem writeConfig_pat (sel : BitVec 8) (imm : Word) (s : State) :
    (writeConfig sel imm s).pat = s.pat := by
  unfold writeConfig; split <;> rfl
@[simp] theorem writeConfig_nidx (sel : BitVec 8) (imm : Word) (s : State) :
    (writeConfig sel imm s).nidx = s.nidx := by
  unfold writeConfig; split <;> rfl
@[simp] theorem writeConfig_ru (sel : BitVec 8) (imm : Word) (s : State) :
    (writeConfig sel imm s).ru = s.ru := by
  unfold writeConfig; split <;> rfl
@[simp] theorem writeConfig_rj (sel : BitVec 8) (imm : Word) (s : State) :
    (writeConfig sel imm s).rj = s.rj := by
  unfold writeConfig; split <;> rfl
@[simp] theorem writeConfig_crc (sel : BitVec 8) (imm : Word) (s : State) :
    (writeConfig sel imm s).crc = s.crc := by
  unfold writeConfig; split <;> rfl
@[simp] theorem writeConfig_crc4 (sel : BitVec 8) (imm : Word) (s : State) :
    (writeConfig sel imm s).crc4 = s.crc4 := by
  unfold writeConfig; split <;> rfl
@[simp] theorem writeConfig_got4 (sel : BitVec 8) (imm : Word) (s : State) :
    (writeConfig sel imm s).got4 = s.got4 := by
  unfold writeConfig; split <;> rfl
@[simp] theorem writeConfig_timLen (sel : BitVec 8) (imm : Word) (s : State) :
    (writeConfig sel imm s).timLen = s.timLen := by
  unfold writeConfig; split <;> rfl
@[simp] theorem writeConfig_pcmLen (sel : BitVec 8) (imm : Word) (s : State) :
    (writeConfig sel imm s).pcmLen = s.pcmLen := by
  unfold writeConfig; split <;> rfl
@[simp] theorem writeConfig_bitsLen (sel : BitVec 8) (imm : Word) (s : State) :
    (writeConfig sel imm s).bitsLen = s.bitsLen := by
  unfold writeConfig; split <;> rfl
@[simp] theorem writeConfig_runsLen (sel : BitVec 8) (imm : Word) (s : State) :
    (writeConfig sel imm s).runsLen = s.runsLen := by
  unfold writeConfig; split <;> rfl
@[simp] theorem writeConfig_txtLen (sel : BitVec 8) (imm : Word) (s : State) :
    (writeConfig sel imm s).txtLen = s.txtLen := by
  unfold writeConfig; split <;> rfl
@[simp] theorem writeConfig_payLen (sel : BitVec 8) (imm : Word) (s : State) :
    (writeConfig sel imm s).payLen = s.payLen := by
  unfold writeConfig; split <;> rfl
@[simp] theorem writeConfig_tim (sel : BitVec 8) (imm : Word) (s : State) :
    (writeConfig sel imm s).tim = s.tim := by
  unfold writeConfig; split <;> rfl
@[simp] theorem writeConfig_pcm (sel : BitVec 8) (imm : Word) (s : State) :
    (writeConfig sel imm s).pcm = s.pcm := by
  unfold writeConfig; split <;> rfl
@[simp] theorem writeConfig_mags (sel : BitVec 8) (imm : Word) (s : State) :
    (writeConfig sel imm s).mags = s.mags := by
  unfold writeConfig; split <;> rfl
@[simp] theorem writeConfig_bits (sel : BitVec 8) (imm : Word) (s : State) :
    (writeConfig sel imm s).bits = s.bits := by
  unfold writeConfig; split <;> rfl
@[simp] theorem writeConfig_runs (sel : BitVec 8) (imm : Word) (s : State) :
    (writeConfig sel imm s).runs = s.runs := by
  unfold writeConfig; split <;> rfl
@[simp] theorem writeConfig_txt (sel : BitVec 8) (imm : Word) (s : State) :
    (writeConfig sel imm s).txt = s.txt := by
  unfold writeConfig; split <;> rfl
@[simp] theorem writeConfig_pay (sel : BitVec 8) (imm : Word) (s : State) :
    (writeConfig sel imm s).pay = s.pay := by
  unfold writeConfig; split <;> rfl
@[simp] theorem writeConfig_ready (sel : BitVec 8) (imm : Word) (s : State) :
    (writeConfig sel imm s).ready = s.ready := by
  unfold writeConfig; split <;> rfl
@[simp] theorem writeConfig_busy (sel : BitVec 8) (imm : Word) (s : State) :
    (writeConfig sel imm s).busy = s.busy := by
  unfold writeConfig; split <;> rfl
@[simp] theorem writeConfig_valid (sel : BitVec 8) (imm : Word) (s : State) :
    (writeConfig sel imm s).valid = s.valid := by
  unfold writeConfig; split <;> rfl
@[simp] theorem writeConfig_stage (sel : BitVec 8) (imm : Word) (s : State) :
    (writeConfig sel imm s).stage = s.stage := by
  unfold writeConfig; split <;> rfl
@[simp] theorem writeConfig_err (sel : BitVec 8) (imm : Word) (s : State) :
    (writeConfig sel imm s).err = s.err := by
  unfold writeConfig; split <;> rfl
@[simp] theorem writeConfig_params (sel : BitVec 8) (imm : Word) (s : State) :
    (writeConfig sel imm s).params = s.params := by
  unfold writeConfig; split <;> rfl
@[simp] theorem writeConfig_free (sel : BitVec 8) (imm : Word) (s : State) :
    (writeConfig sel imm s).free = s.free := by
  unfold writeConfig; split <;> rfl
@[simp] theorem writeConfig_host (sel : BitVec 8) (imm : Word) (s : State) :
    (writeConfig sel imm s).host = s.host := by
  unfold writeConfig; split <;> rfl

/-! ## A length register written by the host (`20_memory.md` R71) -/

@[simp] theorem writeLength_tim_timLen (len : Nat) (s : State) :
    (writeLength .tim len s).timLen = len := rfl
@[simp] theorem writeLength_tim_tim (len : Nat) (s : State) :
    (writeLength .tim len s).tim = forget len s.tim := rfl
@[simp] theorem writeLength_pcm_pcmLen (len : Nat) (s : State) :
    (writeLength .pcm len s).pcmLen = len := rfl
@[simp] theorem writeLength_pcm_pcm (len : Nat) (s : State) :
    (writeLength .pcm len s).pcm = forget len s.pcm := rfl
@[simp] theorem writeLength_bits_bitsLen (len : Nat) (s : State) :
    (writeLength .bits len s).bitsLen = len := rfl
@[simp] theorem writeLength_bits_mags (len : Nat) (s : State) :
    (writeLength .bits len s).mags = forget len s.mags := rfl
@[simp] theorem writeLength_bits_bits (len : Nat) (s : State) :
    (writeLength .bits len s).bits = forget len s.bits := rfl
@[simp] theorem writeLength_txt_txtLen (len : Nat) (s : State) :
    (writeLength .txt len s).txtLen = len := rfl
@[simp] theorem writeLength_txt_txt (len : Nat) (s : State) :
    (writeLength .txt len s).txt = forget len s.txt := rfl
@[simp] theorem writeLength_pay_payLen (len : Nat) (s : State) :
    (writeLength .pay len s).payLen = len := rfl
@[simp] theorem writeLength_pay_pay (len : Nat) (s : State) :
    (writeLength .pay len s).pay = forget len s.pay := rfl
@[simp] theorem writeLength_fs (sp : HostSpace) (len : Nat) (s : State) :
    (writeLength sp len s).fs = s.fs := by
  cases sp <;> rfl
@[simp] theorem writeLength_f0 (sp : HostSpace) (len : Nat) (s : State) :
    (writeLength sp len s).f0 = s.f0 := by
  cases sp <;> rfl
@[simp] theorem writeLength_wpm (sp : HostSpace) (len : Nat) (s : State) :
    (writeLength sp len s).wpm = s.wpm := by
  cases sp <;> rfl
@[simp] theorem writeLength_n (sp : HostSpace) (len : Nat) (s : State) :
    (writeLength sp len s).n = s.n := by
  cases sp <;> rfl
@[simp] theorem writeLength_theta (sp : HostSpace) (len : Nat) (s : State) :
    (writeLength sp len s).theta = s.theta := by
  cases sp <;> rfl
@[simp] theorem writeLength_bpu (sp : HostSpace) (len : Nat) (s : State) :
    (writeLength sp len s).bpu = s.bpu := by
  cases sp <;> rfl
@[simp] theorem writeLength_k (sp : HostSpace) (len : Nat) (s : State) :
    (writeLength sp len s).k = s.k := by
  cases sp <;> rfl
@[simp] theorem writeLength_c (sp : HostSpace) (len : Nat) (s : State) :
    (writeLength sp len s).c = s.c := by
  cases sp <;> rfl
@[simp] theorem writeLength_omega (sp : HostSpace) (len : Nat) (s : State) :
    (writeLength sp len s).omega = s.omega := by
  cases sp <;> rfl
@[simp] theorem writeLength_spu (sp : HostSpace) (len : Nat) (s : State) :
    (writeLength sp len s).spu = s.spu := by
  cases sp <;> rfl
@[simp] theorem writeLength_dotDash (sp : HostSpace) (len : Nat) (s : State) :
    (writeLength sp len s).dotDash = s.dotDash := by
  cases sp <;> rfl
@[simp] theorem writeLength_wordGap (sp : HostSpace) (len : Nat) (s : State) :
    (writeLength sp len s).wordGap = s.wordGap := by
  cases sp <;> rfl
@[simp] theorem writeLength_rtab (sp : HostSpace) (len : Nat) (s : State) :
    (writeLength sp len s).rtab = s.rtab := by
  cases sp <;> rfl
@[simp] theorem writeLength_s1 (sp : HostSpace) (len : Nat) (s : State) :
    (writeLength sp len s).s1 = s.s1 := by
  cases sp <;> rfl
@[simp] theorem writeLength_s2 (sp : HostSpace) (len : Nat) (s : State) :
    (writeLength sp len s).s2 = s.s2 := by
  cases sp <;> rfl
@[simp] theorem writeLength_mag (sp : HostSpace) (len : Nat) (s : State) :
    (writeLength sp len s).mag = s.mag := by
  cases sp <;> rfl
@[simp] theorem writeLength_thon (sp : HostSpace) (len : Nat) (s : State) :
    (writeLength sp len s).thon = s.thon := by
  cases sp <;> rfl
@[simp] theorem writeLength_thoff (sp : HostSpace) (len : Nat) (s : State) :
    (writeLength sp len s).thoff = s.thoff := by
  cases sp <;> rfl
@[simp] theorem writeLength_st (sp : HostSpace) (len : Nat) (s : State) :
    (writeLength sp len s).st = s.st := by
  cases sp <;> rfl
@[simp] theorem writeLength_gb (sp : HostSpace) (len : Nat) (s : State) :
    (writeLength sp len s).gb = s.gb := by
  cases sp <;> rfl
@[simp] theorem writeLength_gi (sp : HostSpace) (len : Nat) (s : State) :
    (writeLength sp len s).gi = s.gi := by
  cases sp <;> rfl
@[simp] theorem writeLength_pat (sp : HostSpace) (len : Nat) (s : State) :
    (writeLength sp len s).pat = s.pat := by
  cases sp <;> rfl
@[simp] theorem writeLength_nidx (sp : HostSpace) (len : Nat) (s : State) :
    (writeLength sp len s).nidx = s.nidx := by
  cases sp <;> rfl
@[simp] theorem writeLength_ru (sp : HostSpace) (len : Nat) (s : State) :
    (writeLength sp len s).ru = s.ru := by
  cases sp <;> rfl
@[simp] theorem writeLength_rj (sp : HostSpace) (len : Nat) (s : State) :
    (writeLength sp len s).rj = s.rj := by
  cases sp <;> rfl
@[simp] theorem writeLength_crc (sp : HostSpace) (len : Nat) (s : State) :
    (writeLength sp len s).crc = s.crc := by
  cases sp <;> rfl
@[simp] theorem writeLength_crc4 (sp : HostSpace) (len : Nat) (s : State) :
    (writeLength sp len s).crc4 = s.crc4 := by
  cases sp <;> rfl
@[simp] theorem writeLength_got4 (sp : HostSpace) (len : Nat) (s : State) :
    (writeLength sp len s).got4 = s.got4 := by
  cases sp <;> rfl
@[simp] theorem writeLength_runsLen (sp : HostSpace) (len : Nat) (s : State) :
    (writeLength sp len s).runsLen = s.runsLen := by
  cases sp <;> rfl
@[simp] theorem writeLength_runs (sp : HostSpace) (len : Nat) (s : State) :
    (writeLength sp len s).runs = s.runs := by
  cases sp <;> rfl
@[simp] theorem writeLength_ready (sp : HostSpace) (len : Nat) (s : State) :
    (writeLength sp len s).ready = s.ready := by
  cases sp <;> rfl
@[simp] theorem writeLength_busy (sp : HostSpace) (len : Nat) (s : State) :
    (writeLength sp len s).busy = s.busy := by
  cases sp <;> rfl
@[simp] theorem writeLength_valid (sp : HostSpace) (len : Nat) (s : State) :
    (writeLength sp len s).valid = s.valid := by
  cases sp <;> rfl
@[simp] theorem writeLength_stage (sp : HostSpace) (len : Nat) (s : State) :
    (writeLength sp len s).stage = s.stage := by
  cases sp <;> rfl
@[simp] theorem writeLength_err (sp : HostSpace) (len : Nat) (s : State) :
    (writeLength sp len s).err = s.err := by
  cases sp <;> rfl
@[simp] theorem writeLength_params (sp : HostSpace) (len : Nat) (s : State) :
    (writeLength sp len s).params = s.params := by
  cases sp <;> rfl
@[simp] theorem writeLength_free (sp : HostSpace) (len : Nat) (s : State) :
    (writeLength sp len s).free = s.free := by
  cases sp <;> rfl
@[simp] theorem writeLength_host (sp : HostSpace) (len : Nat) (s : State) :
    (writeLength sp len s).host = s.host := by
  cases sp <;> rfl

/-! ## Reset (`10_state.md` R48) -/

@[simp] theorem resetOn_params (p : Params) (fr rd : Nat) (h : List HostMove) :
    (State.resetOn p fr rd h).params = p := rfl
@[simp] theorem resetOn_host (p : Params) (fr rd : Nat) (h : List HostMove) :
    (State.resetOn p fr rd h).host = h := rfl
@[simp] theorem resetOn_ready (p : Params) (fr rd : Nat) (h : List HostMove) :
    (State.resetOn p fr rd h).ready = false := rfl

end Sys2Proof.Machine
end

