-- ==== Sys2Proof/Laws/Ops.lean ====
section
/-! SUPPORT. What each shared operation can answer and what each operation of the block can answer, said once:
"if it answers next t, then …"; and what an operation answers where none of its refusals applies. -/

namespace Sys2Proof.Machine

/-! ## Shared operations -/

theorem refuseIf_next {c : Bool} {r : Refusal} {k : Result} {t : State} :
    refuseIf c r k = .next t ↔ c = false ∧ k = .next t := by
  cases c <;> simp [refuseIf]

@[simp] theorem refuseIf_false (r : Refusal) (k : Result) : refuseIf false r k = k := rfl

@[simp] theorem refuseIf_true (r : Refusal) (k : Result) : refuseIf true r k = .refused r := rfl

theorem refuseIf_refused {c : Bool} {r r' : Refusal} {k : Result} :
    refuseIf c r' k = .refused r ↔ (c = true ∧ r = r') ∨ (c = false ∧ k = .refused r) := by
  cases c <;> simp [refuseIf, eq_comm]

theorem whenReady_refused {s : State} {r : Refusal} {k : Result} :
    whenReady s k = .refused r ↔ (s.ready = false ∧ r = .notConstructed) ∨ (s.ready = true ∧ k = .refused r) := by
  simp [whenReady, refuseIf_refused]

theorem andThen_refused_iff {o : Result} {k : State → Result} {r : Refusal} :
    andThen o k = .refused r ↔ o = .refused r ∨ ∃ s, o = .next s ∧ k s = .refused r := by
  cases o <;> simp [andThen]

theorem raise_not_refused {e : Err} {s : State} {r : Refusal} : raise e s ≠ .refused r := by
  simp [raise]

theorem whenReady_next {s t : State} {k : Result} :
    whenReady s k = .next t ↔ s.ready = true ∧ k = .next t := by
  simp [whenReady, refuseIf_next]

theorem whenReady_of_ready {s : State} (h : s.ready = true) (k : Result) : whenReady s k = k := by
  simp [whenReady, h]

theorem whenReady_of_not_ready {s : State} (h : s.ready = false) (k : Result) :
    whenReady s k = .refused .notConstructed := by
  simp [whenReady, h]

theorem andThen_next {o : Result} {k : State → Result} {t : State} :
    andThen o k = .next t ↔ ∃ s, o = .next s ∧ k s = .next t := by
  cases o <;> simp [andThen]

@[simp] theorem andThen_next_left (s : State) (k : State → Result) : andThen (.next s) k = k s := rfl

@[simp] theorem andThen_refused (r : Refusal) (k : State → Result) : andThen (.refused r) k = .refused r := rfl

theorem raise_next {e : Err} {s t : State} : raise e s = .next t ↔ t = { s with err := e } := by
  simp [raise, eq_comm]

/-- A loop index register holds an `IDX_W`-bit number after its operation. -/
theorem freeIndexOf_lt (s : State) (j : Nat) : freeIndexOf s j < 2 ^ s.params.idxW :=
  Nat.mod_lt _ (Nat.two_pow_pos _)

/-! ## The operations: what a next state is -/

theorem execCfgw_next {sel : BitVec 8} {imm : Word} {s t : State} :
    execCfgw sel imm s = .next t ↔
      sel.toNat ≤ 5 ∧ (sel.toNat = 4 → isFinite32 imm = true) ∧ t = clearReady (writeConfig sel imm s) := by
  simp only [execCfgw, refuseIf_next, decide_eq_false_iff_not, Bool.and_eq_false_iff, Host.Outcome.next.injEq]
  grind

theorem execInit_next {s t : State} :
    execInit s = .next t ↔
      s.fs ≠ 0 ∧ s.wpm ≠ 0 ∧ injectiveTable s.params = true ∧ derivedFits s = true ∧ t = constructed s := by
  simp only [execInit, refuseIf_next, decide_eq_false_iff_not, Host.Outcome.next.injEq, Bool.not_eq_false']
  grind

theorem execRender_next {s t : State} :
    execRender s = .next t ↔
      s.ready = true ∧ s.timLen ≤ s.params.timMax ∧ s.timLen * s.spu ≤ s.params.pcmMax ∧ t = rendered s := by
  simp only [execRender, whenReady_next, refuseIf_next, decide_eq_false_iff_not, Host.Outcome.next.injEq, Nat.not_lt]
  grind

theorem execGzmag_next {b : Word} {s t : State} :
    execGzmag b s = .next t ↔
      s.ready = true ∧ s.pcmLen ≤ s.params.pcmMax ∧ s.n ≠ 0 ∧ (b.toNat + 1) * s.n.toNat ≤ s.pcmLen ∧
        (blockAt s b.toNat).all isFinite32 = true ∧ t = measured b.toNat s := by
  simp only [execGzmag, whenReady_next, refuseIf_next, decide_eq_false_iff_not, Host.Outcome.next.injEq, Nat.not_lt,
    Bool.not_eq_false']
  grind

/-- The empty detection: no buffer, no block size, or less than one block (`42_goertzel.md` R185 steps 1, 2). -/
abbrev noBlocks (s : State) : Prop := s.pcmLen = 0 ∨ s.n = 0 ∨ blockCount s = 0

theorem detectBody_next {s t : State} :
    detectBody s = .next t ↔
      s.pcmLen ≤ s.params.pcmMax ∧
        ((noBlocks s ∧ t = noBlocksFound s) ∨
          (¬noBlocks s ∧ blockCount s ≤ s.params.bitsMax ∧ (detectInput s).all isFinite32 = true ∧
            ¬(s.params.autoZero = .refuse ∧ inContestedBand s.params s.theta (blockPowers s) = true) ∧
            t = detected s (blockPowers s))) := by
  unfold detectBody
  rw [refuseIf_next, decide_eq_false_iff_not, Nat.not_lt]
  refine and_congr_right fun _ => ?_
  split
  · grind
  · split
    · grind
    · simp only [refuseIf_next, decide_eq_false_iff_not, Host.Outcome.next.injEq, Nat.not_lt, Bool.not_eq_false',
        Bool.and_eq_false_iff]
      grind

theorem execDetect_next {s t : State} :
    execDetect s = .next t ↔ s.ready = true ∧ detectBody s = .next t := whenReady_next

theorem demodBody_next {s t : State} :
    demodBody s = .next t ↔
      s.bitsLen ≤ s.params.bitsMax ∧ (textOf s).length ≤ s.params.txtMax ∧ t = demodulated s := by
  simp only [demodBody, refuseIf_next, decide_eq_false_iff_not, Host.Outcome.next.injEq, Nat.not_lt]
  grind

theorem execDemod_next {s t : State} :
    execDemod s = .next t ↔ s.ready = true ∧ demodBody s = .next t := whenReady_next

theorem execCrc32_next {s t : State} :
    execCrc32 s = .next t ↔
      s.ready = true ∧ s.payLen ≤ s.params.payMax ∧ t = { s with crc := crc32Of s.params (paySeq s) } := by
  simp only [execCrc32, whenReady_next, refuseIf_next, decide_eq_false_iff_not, Host.Outcome.next.injEq, Nat.not_lt]
  grind

theorem execEnccrc_next {s t : State} :
    execEnccrc s = .next t ↔ s.ready = true ∧ t = { s with crc4 := encodeCrc s.params s.crc } := by
  simp only [execEnccrc, whenReady_next, Host.Outcome.next.injEq]
  grind

theorem execFrame_next {s t : State} :
    execFrame s = .next t ↔
      s.ready = true ∧ s.payLen ≤ s.params.payMax ∧ s.payLen + 11 ≤ s.params.txtMax ∧ t = framed s := by
  simp only [execFrame, whenReady_next, refuseIf_next, decide_eq_false_iff_not, Host.Outcome.next.injEq, Nat.not_lt]
  grind

theorem deframeBody_next {s t : State} :
    deframeBody s = .next t ↔
      s.txtLen ≤ s.params.txtMax ∧ s.txtLen ≤ s.params.payMax + 11 ∧
        deframeChecks (txtSeq s) (beginDeframe s) = .next t := by
  simp only [deframeBody, refuseIf_next, decide_eq_false_iff_not, Nat.not_lt]

theorem execDeframe_next {s t : State} :
    execDeframe s = .next t ↔ s.ready = true ∧ deframeBody s = .next t := whenReady_next

/-- The checks always answer a next state (`60_exceptions.md` R300). -/
theorem deframeChecks_isNext (text : List Byte) (s : State) : ∃ t, deframeChecks text s = .next t := by
  unfold deframeChecks raise
  split_ifs <;> exact ⟨_, rfl⟩

/-- What the checks of `DEFRAME` leave (`44_frame.md` R255): one of the three early errors, or the split frame with
its verdict. -/
theorem deframeChecks_cases {text : List Byte} {s t : State} (h : deframeChecks text s = .next t) :
    (∃ e, e ∈ [Err.frameShort, Err.noPreamble, Err.noProsign] ∧ t = { s with err := e }) ∨
      (11 ≤ text.length ∧ payloadCrc4 s.params (payloadOf text) ≠ receivedCrc text ∧
        t = { splitFrame text s with err := .crcMismatch }) ∨
      (11 ≤ text.length ∧ payloadCrc4 s.params (payloadOf text) = receivedCrc text ∧
        t = { splitFrame text s with valid := true }) := by
  have hbody : 11 ≤ text.length → ¬(bodyOf text).length < 4 := by
    intro h
    simp only [bodyOf, List.length_drop, List.length_take]
    omega
  unfold deframeChecks raise at h
  split_ifs at h <;> simp only [Host.Outcome.next.injEq] at h <;> subst h
  · exact .inl ⟨_, by simp, rfl⟩
  · exact .inl ⟨_, by simp, rfl⟩
  · exact .inl ⟨_, by simp, rfl⟩
  · exact absurd ‹(bodyOf text).length < 4› (hbody (by omega))
  · exact .inr (.inl ⟨by omega, by assumption, rfl⟩)
  · exact .inr (.inr ⟨by omega, not_not.mp (by assumption), rfl⟩)

theorem execDecode_next {s t : State} :
    execDecode s = .next t ↔ s.ready = true ∧ stageGoertzel (freshResult s) = .next t := whenReady_next

/-- The ways a `DECODE` ends (`45_decode.md` R281): stopped at stage Goertzel, at stage MorseDecode, or through
the deframer. -/
theorem stageGoertzel_cases {s t : State} (h : stageGoertzel s = .next t) :
    ∃ a, detectBody (setStage .goertzel s) = .next a ∧
      ((a.bitsLen = 0 ∧ t = { a with err := .noBlocks }) ∨
        (a.bitsLen ≠ 0 ∧ ∃ b, demodBody (setStage .morseDecode a) = .next b ∧
          ((b.txtLen = 0 ∧ t = { b with err := .noText }) ∨
            (b.txtLen ≠ 0 ∧ deframeBody (setStage .deframe b) = .next t)))) := by
  obtain ⟨a, ha, h⟩ := andThen_next.mp h
  refine ⟨a, ha, ?_⟩
  split at h
  · exact .inl ⟨by assumption, raise_next.mp h⟩
  · refine .inr ⟨by assumption, ?_⟩
    obtain ⟨b, hb, h⟩ := andThen_next.mp h
    refine ⟨b, hb, ?_⟩
    split at h
    · exact .inl ⟨by assumption, raise_next.mp h⟩
    · exact .inr ⟨by assumption, h⟩

/-- The state in which `DECODE` runs its detection. -/
abbrev atGoertzel (s : State) : State := setStage .goertzel (freshResult s)

/-- The state in which `DECODE` runs its demodulation, after a detection with blocks. -/
abbrev atMorse (s : State) : State :=
  setStage .morseDecode (detected (atGoertzel s) (blockPowers (atGoertzel s)))

/-- The state in which `DECODE` runs its deframing, after a demodulation with text. -/
abbrev atDeframe (s : State) : State := setStage .deframe (demodulated (atMorse s))

/-- What a `DECODE` leaves, as named updates of the state it began in (`45_decode.md` R281 to R284). -/
theorem execDecode_forms {s t : State} (h : execDecode s = .next t) :
    s.ready = true ∧ s.pcmLen ≤ s.params.pcmMax ∧
      ((noBlocks s ∧ t = { noBlocksFound (atGoertzel s) with err := .noBlocks }) ∨
        (¬noBlocks s ∧ textOf (atMorse s) = [] ∧ t = { demodulated (atMorse s) with err := .noText }) ∨
        (¬noBlocks s ∧ textOf (atMorse s) ≠ [] ∧
          deframeChecks (txtSeq (atDeframe s)) (beginDeframe (atDeframe s)) = .next t)) := by
  rw [execDecode_next] at h
  obtain ⟨hr, h⟩ := h
  obtain ⟨a, ha, h⟩ := stageGoertzel_cases h
  rw [detectBody_next] at ha
  obtain ⟨hp, ha⟩ := ha
  refine ⟨hr, hp, ?_⟩
  rcases ha with ⟨hn, rfl⟩ | ⟨hn, _, _, _, rfl⟩
  · rcases h with ⟨_, rfl⟩ | ⟨h0, _⟩
    · exact .inl ⟨hn, rfl⟩
    · exact absurd rfl h0
  · rcases h with ⟨h0, _⟩ | ⟨_, b, hb, h⟩
    · exact absurd (.inr (.inr h0)) hn
    · rw [demodBody_next] at hb
      obtain ⟨_, _, rfl⟩ := hb
      rcases h with ⟨h0, rfl⟩ | ⟨h0, h⟩
      · exact .inr (.inl ⟨hn, List.length_eq_zero_iff.mp h0, rfl⟩)
      · rw [deframeBody_next] at h
        exact .inr (.inr ⟨hn, fun h' => h0 (by simp [h']), h.2.2⟩)

/-! ## The host's moves -/

/-- One step is one move of the host, or nothing where it has none (`70_reset_and_hazards.md` R342). -/
theorem step_next {s t : State} (h : step s = .next t) :
    (s.host = [] ∧ t = s) ∨
      ∃ m rest, s.host = m :: rest ∧ moveAllowed m s = true ∧ hostMove m { s with host := rest } = .next t := by
  unfold step hostStep at h
  split at h
  · exact .inl ⟨by assumption, by simpa using h.symm⟩
  · rename_i m rest hh
    rw [refuseIf_next] at h
    exact .inr ⟨m, rest, hh, by simpa using h.1, h.2⟩

/-- A command runs the operation its word decodes to. -/
theorem runCommand_next {w : CmdWord} {s t : State} (h : runCommand w s = .next t) :
    ∃ i, decode w = some i ∧ exec i s = .next t := by
  unfold runCommand at h
  split at h
  · exact ⟨_, by assumption, h⟩
  · cases h

end Sys2Proof.Machine
end

