-- ==== Sys2Proof/Laws/Frame.lean ====
section
/-! SUPPORT. The laws of the framer (`44_frame.md`): the parts of a framed text, what the deframer cuts out of a text, and
the CRC register. -/

namespace Sys2Proof.Machine

/-! ## The framed text (R125, R250) -/

@[simp] theorem length_preamble : preamble.length = 4 := rfl

@[simp] theorem length_prosign : prosign.length = 3 := rfl

@[simp] theorem length_toList (q : Quad) : q.toList.length = 4 := rfl

theorem toList_inj {q r : Quad} (h : q.toList = r.toList) : q = r := by
  cases q
  cases r
  simpa [Quad.toList] using h

@[simp] theorem length_frameText (p : Params) (payload : List Byte) : (frameText p payload).length = payload.length + 11 := by
  simp [frameText]
  omega

/-! ## What the deframer cuts out (R255 checks 4, 5) -/

theorem length_bodyOf (text : List Byte) : (bodyOf text).length = text.length - 7 := by
  simp [bodyOf]
  omega

theorem length_payloadOf (text : List Byte) : (payloadOf text).length = text.length - 11 := by
  simp [payloadOf, length_bodyOf]
  omega

/-- The payload is the text between the fourth character and the seventh from the end. -/
theorem payloadOf_eq (text : List Byte) : payloadOf text = (text.take (text.length - 7)).drop 4 := by
  rw [payloadOf, length_bodyOf, bodyOf, List.take_drop, List.take_take]
  rcases Nat.lt_or_ge text.length 11 with h | h
  · rw [List.drop_eq_nil_of_le (by simp; omega), List.drop_eq_nil_of_le (by simp; omega)]
  · congr 2
    omega

theorem quadOf_toList {xs : List Byte} (h : xs.length = 4) : (quadOf xs).toList = xs := by
  match xs, h with
  | [_, _, _, _], _ => rfl

/-- The received CRC is the four characters before the last three. -/
theorem receivedCrc_toList {text : List Byte} (h : 11 ≤ text.length) :
    (receivedCrc text).toList = (text.take (text.length - 3)).drop (text.length - 7) := by
  rw [receivedCrc, quadOf_toList (by simp [length_bodyOf]; omega), length_bodyOf, bodyOf, List.drop_drop]
  congr 1
  omega

/-- Cutting a framed text gives the payload back. -/
theorem payloadOf_frameText (p : Params) (payload : List Byte) : payloadOf (frameText p payload) = payload := by
  rw [payloadOf_eq, length_frameText, frameText, List.append_assoc, List.append_assoc, List.take_append,
    show payload.length + 11 - 7 - preamble.length = payload.length by simp, List.take_left,
    List.take_of_length_le (by simp), List.drop_left' length_preamble]

theorem receivedCrc_frameText (p : Params) (payload : List Byte) :
    receivedCrc (frameText p payload) = payloadCrc4 p payload := by
  refine toList_inj ?_
  rw [receivedCrc_toList (by simp), length_frameText, frameText, List.take_left' (by simp; omega),
    List.drop_left' (by simp; omega)]

theorem preamble_frameText (p : Params) (payload : List Byte) : (frameText p payload).take 4 = preamble := by
  rw [frameText, List.append_assoc, List.append_assoc, List.take_left' length_preamble]

theorem prosign_frameText (p : Params) (payload : List Byte) :
    (frameText p payload).drop ((frameText p payload).length - 3) = prosign := by
  rw [length_frameText, frameText, List.drop_left' (by simp; omega)]

/-! ## The input sequences -/

theorem paySeq_eq {s : State} (hm : spaceWf s.pay = true) : paySeq s = (List.range s.payLen).map fun i => readCell i s.pay := by
  rw [paySeq, contents_eq_map _ hm]

theorem txtSeq_eq {s : State} (hm : spaceWf s.txt = true) : txtSeq s = (List.range s.txtLen).map fun j => readCell j s.txt := by
  rw [txtSeq, contents_eq_map _ hm]

@[simp] theorem length_paySeq (s : State) : (paySeq s).length = s.payLen := by simp [paySeq]

@[simp] theorem length_txtSeq (s : State) : (txtSeq s).length = s.txtLen := by simp [txtSeq]

/-- After framing, the text in `TXT` is the framed text. -/
theorem txtSeq_framed (s : State) : txtSeq (framed s) = frameText s.params (paySeq s) := by
  have h := contents_store s.txt (frameText s.params (paySeq s))
  rw [length_frameText, length_paySeq] at h
  exact h

/-! ## The CRC register (R242) -/

theorem crc32Ieee_append (xs ys : List Byte) :
    crc32Ieee (xs ++ ys) = (ys.foldl crcByte (xs.foldl crcByte 0xFFFFFFFF)) ^^^ 0xFFFFFFFF := by
  rw [crc32Ieee, List.foldl_append]

/-- The bit that a shift drops is the top bit of the result: the feedback word has it set. -/
theorem crcShift_injective {a b : Word} (h : crcShift a = crcShift b) : a = b := by
  unfold crcShift at h
  have top : ∀ c : Word, ((c >>> 1) ^^^ 0xEDB88320).getLsbD 31 = true := by
    intro c
    simp
  have top0 : ∀ c : Word, (c >>> 1).getLsbD 31 = false := by
    intro c
    simp
  have key : ∀ a b : Word, a.getLsbD 0 = b.getLsbD 0 → a >>> 1 = b >>> 1 → a = b := by
    intro a b h0 h1
    refine BitVec.eq_of_getLsbD_eq fun i hi => ?_
    cases i with
    | zero => exact h0
    | succ i =>
      have := congrArg (fun x => x.getLsbD i) h1
      simpa [Nat.add_comm] using this
  split at h <;> split at h
  · rename_i ha hb
    exact key a b (by rw [ha, hb]) ((BitVec.xor_left_inj _).mp h)
  · have := congrArg (fun x => x.getLsbD 31) h
    rw [top, top0] at this
    cases this
  · have := congrArg (fun x => x.getLsbD 31) h
    rw [top0, top] at this
    cases this
  · rename_i ha hb
    exact key a b (by simp_all) h

/-- The register after a character tells the character and the register before it apart. -/
theorem crcByte_injective {a b : Word} {x y : Byte} (h : crcByte a x = crcByte b y) :
    a ^^^ x.zeroExtend 32 = b ^^^ y.zeroExtend 32 := by
  have rep : ∀ (n : Nat) {u v : Word}, Nat.repeat crcShift n u = Nat.repeat crcShift n v → u = v := by
    intro n
    induction n with
    | zero => exact fun h => h
    | succ n ih => exact fun h => ih (crcShift_injective h)
  exact rep 8 h

end Sys2Proof.Machine
end

