-- ==== Sys2Proof/Laws/Sign.lean ====
section
/-! SUPPORT. The comparison of `Machine/Numerics.lean` is the comparison of real numbers: a number that is not 0 is
not smaller than the product of its conjugates allows, so `fullBits` decides its sign. -/

namespace Sys2Proof.RNum

open Real Finset

/-- A non-zero algebraic integer of a number field has an absolute norm of at least 1. -/
theorem one_le_prod_embeddings {K : Type} [Field K] [NumberField K] (z : K) (hz : IsIntegral ℤ z)
    (h0 : z ≠ 0) : 1 ≤ ∏ σ : K →ₐ[ℚ] ℂ, ‖σ z‖ := by
  have hint : IsIntegral ℤ (Algebra.norm ℚ z) := Algebra.isIntegral_norm ℚ hz
  obtain ⟨m, hm⟩ := IsIntegrallyClosed.isIntegral_iff.mp hint
  have hm0 : m ≠ 0 := by
    rintro rfl
    refine (Algebra.norm_ne_zero_iff (R := ℚ)).mpr h0 ?_
    rw [← hm]
    simp
  have hprod := Algebra.norm_eq_prod_embeddings ℚ ℂ z
  rw [← norm_prod, ← hprod, ← hm]
  have : (1 : ℝ) ≤ |(m : ℝ)| := by exact_mod_cast Int.one_le_abs hm0
  simpa using this

/-- The turn of a term as a multiple of the `n`-th part, for a common denominator `n`. -/
def turnIndex (n : Nat) (t : CosTerm) : Int := t.turn.num * (n / t.turn.den : Nat)

theorem turnIndex_eq (n : Nat) (hn : 0 < n) (t : CosTerm) (h : t.turn.den ∣ n) :
    (t.turn : ℝ) = turnIndex n t / n := by
  obtain ⟨k, rfl⟩ := h
  have hk : (k : ℝ) ≠ 0 := by
    have : k ≠ 0 := by rintro rfl; simp at hn
    exact_mod_cast this
  have hd : (t.turn.den : ℝ) ≠ 0 := by exact_mod_cast t.turn.den_nz
  have hc : (t.turn : ℝ) = t.turn.num / t.turn.den := by exact_mod_cast (Rat.num_div_den t.turn).symm
  rw [turnIndex, Nat.mul_div_cancel_left _ t.turn.den_pos, hc]
  push_cast
  field_simp

theorem den_dvd_turnDen (a : RNum) : ∀ t ∈ a.terms, t.turn.den ∣ turnDen a := by
  unfold turnDen
  induction a.terms with
  | nil => simp
  | cons u us ih =>
    intro t ht
    rcases List.mem_cons.mp ht with rfl | ht
    · exact Nat.dvd_lcm_left _ _
    · exact (ih t ht).trans (Nat.dvd_lcm_right _ _)

theorem turnDen_pos (a : RNum) : 0 < turnDen a := by
  unfold turnDen
  induction a.terms with
  | nil => simp
  | cons u us ih => exact Nat.lcm_pos u.turn.den_pos ih

/-- The algebraic integer of the terms: `Σ A (ζ^k + ζ^(−k))`. -/
def rootSum {K : Type} [Field K] (ζ : K) (n d : Nat) (ts : List CosTerm) : K :=
  (ts.map fun t => (intCoef d t : K) * (ζ ^ turnIndex n t + ζ ^ (-turnIndex n t))).sum

theorem rootSum_nil {K : Type} [Field K] (ζ : K) (n d : Nat) : rootSum ζ n d [] = 0 := rfl

theorem rootSum_cons {K : Type} [Field K] (ζ : K) (n d : Nat) (t : CosTerm) (ts : List CosTerm) :
    rootSum ζ n d (t :: ts) =
      (intCoef d t : K) * (ζ ^ turnIndex n t + ζ ^ (-turnIndex n t)) + rootSum ζ n d ts := by
  simp [rootSum]

theorem zpow_pow_eq_one {K : Type} [Field K] {ζ : K} {n : Nat} (hζ : ζ ^ n = 1) (k : ℤ) : (ζ ^ k) ^ n = 1 := by
  rw [← zpow_natCast, ← zpow_mul, mul_comm, zpow_mul, zpow_natCast, hζ, one_zpow]

theorem rootSum_isIntegral {K : Type} [Field K] {ζ : K} {n : Nat} (hn : 0 < n) (hζ : ζ ^ n = 1) (d : Nat)
    (ts : List CosTerm) : IsIntegral ℤ (rootSum ζ n d ts) := by
  have hk : ∀ k : ℤ, IsIntegral ℤ (ζ ^ k) := fun k =>
    IsIntegral.of_pow hn (by rw [zpow_pow_eq_one hζ]; exact isIntegral_one)
  induction ts with
  | nil => rw [rootSum_nil]; exact isIntegral_zero
  | cons t ts ih =>
    rw [rootSum_cons]
    refine (IsIntegral.mul ?_ ((hk _).add (hk _))).add ih
    exact isIntegral_algebraMap (R := ℤ) (x := intCoef d t)

/-- Every conjugate is at most twice the weight. -/
theorem norm_rootSum_le {ζ : ℂ} {n : Nat} (hn : 0 < n) (hζ : ζ ^ n = 1) (d : Nat) (ts : List CosTerm) :
    ‖rootSum ζ n d ts‖ ≤ 2 * (ts.foldr (fun t w => (intCoef d t).natAbs + w) 0 : Nat) := by
  have hk : ∀ k : ℤ, ‖ζ ^ k‖ = 1 := fun k =>
    Complex.norm_eq_one_of_pow_eq_one (zpow_pow_eq_one hζ k) hn.ne'
  induction ts with
  | nil => simp [rootSum_nil]
  | cons t ts ih =>
    rw [rootSum_cons, List.foldr_cons]
    push_cast
    have h1 : ‖(intCoef d t : ℂ) * (ζ ^ turnIndex n t + ζ ^ (-turnIndex n t))‖ ≤
        ((intCoef d t).natAbs : ℝ) * 2 := by
      rw [norm_mul]
      have h2 : ‖(intCoef d t : ℂ)‖ = ((intCoef d t).natAbs : ℝ) := by
        rw [Nat.cast_natAbs]; simp
      have h3 : ‖ζ ^ turnIndex n t + ζ ^ (-turnIndex n t)‖ ≤ 2 := by
        refine (norm_add_le _ _).trans ?_
        rw [hk, hk]; norm_num
      rw [h2]
      exact mul_le_mul_of_nonneg_left h3 (by positivity)
    refine (norm_add_le _ _).trans ((add_le_add h1 ih).trans_eq ?_)
    ring

/-- At `ζ = e^(2πi/n)` the sum is twice the denominator times the real number. -/
theorem rootSum_exp (n d : Nat) (hn : 0 < n) (ts : List CosTerm)
    (ht : ∀ t ∈ ts, t.turn.den ∣ n) (hc : ∀ t ∈ ts, t.coef.den ∣ d) :
    rootSum (Complex.exp (2 * π * Complex.I / n)) n d ts = ((2 * d * termsValue ts : ℝ) : ℂ) := by
  induction ts with
  | nil => simp [rootSum_nil]
  | cons t ts ih =>
    have ih' := ih (fun u hu => ht u (List.mem_cons_of_mem t hu)) fun u hu => hc u (List.mem_cons_of_mem t hu)
    have hi := intCoef_eq d t (hc t List.mem_cons_self)
    have hq := turnIndex_eq n hn t (ht t List.mem_cons_self)
    have hcos : Complex.exp (2 * π * Complex.I / n) ^ turnIndex n t +
        Complex.exp (2 * π * Complex.I / n) ^ (-turnIndex n t) = 2 * ((cos (2 * π * (t.turn : ℝ)) : ℝ) : ℂ) := by
      rw [← Complex.exp_int_mul, ← Complex.exp_int_mul, Complex.ofReal_cos, Complex.two_cos]
      congr 2 <;> rw [hq] <;> push_cast <;> ring
    have hi' : (intCoef d t : ℂ) = ((d * (t.coef : ℝ) : ℝ) : ℂ) := by rw [← hi]; simp
    rw [rootSum_cons, ih', hcos, hi', termsValue_cons]
    push_cast
    ring

theorem map_rootSum {K : Type} [Field K] [CharZero K] [Algebra ℚ K] (σ : K →ₐ[ℚ] ℂ) (ζ : K) (n d : Nat)
    (ts : List CosTerm) : σ (rootSum ζ n d ts) = rootSum (σ ζ) n d ts := by
  induction ts with
  | nil => simp [rootSum_nil]
  | cons t ts ih => simp [rootSum_cons, ih, map_zpow₀]

theorem one_le_of_cyclotomic (n : Nat) [NeZero n] (K : Type) [Field K] [NumberField K]
    [IsCyclotomicExtension {n} ℚ K] (d : Nat) (ts : List CosTerm) (hd : 0 < d)
    (ht : ∀ t ∈ ts, t.turn.den ∣ n) (hc : ∀ t ∈ ts, t.coef.den ∣ d) (h0 : termsValue ts ≠ 0)
    (hw : 1 ≤ 2 * (ts.foldr (fun t w => (intCoef d t).natAbs + w) 0 : Nat)) :
    1 ≤ 2 * d * |termsValue ts| *
      (2 * (ts.foldr (fun t w => (intCoef d t).natAbs + w) 0 : Nat) : ℝ) ^ n := by
  have hn : 0 < n := Nat.pos_of_ne_zero (NeZero.ne n)
  set W : ℝ := 2 * (ts.foldr (fun t w => (intCoef d t).natAbs + w) 0 : Nat) with hW
  have hW1 : 1 ≤ W := by rw [hW]; exact_mod_cast hw
  let ζ : K := IsCyclotomicExtension.zeta n ℚ K
  have hζ : IsPrimitiveRoot ζ n := IsCyclotomicExtension.zeta_spec n ℚ K
  have he := Complex.isPrimitiveRoot_exp n hn.ne'
  have hirr : Irreducible (Polynomial.cyclotomic n ℚ) := Polynomial.cyclotomic.irreducible_rat hn
  let σ₀ : K →ₐ[ℚ] ℂ := (hζ.embeddingsEquivPrimitiveRoots ℂ hirr).symm ⟨_, (mem_primitiveRoots hn).mpr he⟩
  have hσ₀ : σ₀ ζ = Complex.exp (2 * π * Complex.I / n) := by
    rw [← hζ.embeddingsEquivPrimitiveRoots_apply_coe (C := ℂ) hirr σ₀]
    simp [σ₀]
  let z : K := rootSum ζ n d ts
  have hval : σ₀ z = ((2 * d * termsValue ts : ℝ) : ℂ) := by
    rw [map_rootSum, hσ₀, rootSum_exp n d hn ts ht hc]
  have hnorm : ‖σ₀ z‖ = 2 * d * |termsValue ts| := by
    rw [hval, Complex.norm_real, norm_eq_abs, abs_mul, abs_of_nonneg (by positivity)]
  have hz0 : z ≠ 0 := by
    intro h
    rw [h, map_zero] at hval
    have : (2 * d * termsValue ts : ℝ) = 0 := by exact_mod_cast hval.symm
    have hd' : (d : ℝ) ≠ 0 := by exact_mod_cast hd.ne'
    simp_all
  have hone := one_le_prod_embeddings z (rootSum_isIntegral hn hζ.pow_eq_one d ts) hz0
  classical
  rw [← mul_prod_erase univ _ (mem_univ σ₀), hnorm] at hone
  refine hone.trans (mul_le_mul_of_nonneg_left ?_ (by positivity))
  have hle : ∀ σ ∈ univ.erase σ₀, ‖σ z‖ ≤ W := fun σ _ => by
    rw [map_rootSum]
    exact norm_rootSum_le hn (by rw [← map_pow, hζ.pow_eq_one, map_one]) d ts
  refine (prod_le_prod (fun σ _ => norm_nonneg _) hle).trans ?_
  rw [prod_const]
  refine pow_le_pow_right₀ hW1 ?_
  have hcard : (univ.erase σ₀).card ≤ (univ : Finset (K →ₐ[ℚ] ℂ)).card := card_le_card (erase_subset _ _)
  refine hcard.trans ?_
  rw [card_univ, AlgHom.card ℚ K ℂ, IsCyclotomicExtension.finrank K hirr]
  exact Nat.totient_le n

/-- The bound that the conjugates put on a number that is not 0. -/
theorem one_le_value_mul (a : RNum) (h0 : a.value ≠ 0) :
    1 ≤ 2 * coefDen a * |a.value| * (2 * weight (coefDen a) a : ℝ) ^ turnDen a := by
  have hn := turnDen_pos a
  have : NeZero (turnDen a) := ⟨hn.ne'⟩
  have : NeZero ((turnDen a : ℕ) : ℚ) := ⟨by exact_mod_cast hn.ne'⟩
  have hw : 1 ≤ weight (coefDen a) a := by
    by_contra hlt
    have hz : weight (coefDen a) a = 0 := by omega
    apply h0
    have key : ∀ (d : Nat) (ts : List CosTerm), 0 < d → (∀ t ∈ ts, t.coef.den ∣ d) →
        ts.foldr (fun t w => (intCoef d t).natAbs + w) 0 = 0 → termsValue ts = 0 := by
      intro d ts hd hts hs
      induction ts with
      | nil => rfl
      | cons t ts ih =>
        rw [List.foldr_cons, Nat.add_eq_zero_iff] at hs
        have hi := intCoef_eq d t (hts t List.mem_cons_self)
        have hi0 : intCoef d t = 0 := Int.natAbs_eq_zero.mp hs.1
        have hd' : (d : ℝ) ≠ 0 := by exact_mod_cast hd.ne'
        have ht0 : (t.coef : ℝ) = 0 := by
          rw [hi0] at hi
          have : (d : ℝ) * (t.coef : ℝ) = 0 := by rw [← hi]; simp
          simpa [hd'] using this
        rw [termsValue_cons, ht0, ih (fun u hu => hts u (List.mem_cons_of_mem t hu)) hs.2]
        ring
    exact key (coefDen a) a.terms (coefDen_pos a) (den_dvd_coefDen a) hz
  have hcyc : IsCyclotomicExtension {turnDen a} ℚ (CyclotomicField (turnDen a) ℚ) := by
    have h := CyclotomicField.isCyclotomicExtension (turnDen a) ℚ
    convert h
    · rfl
    · exact Subsingleton.elim _ _
  exact one_le_of_cyclotomic (turnDen a) (CyclotomicField (turnDen a) ℚ) (coefDen a) a.terms (coefDen_pos a)
    (den_dvd_turnDen a) (den_dvd_coefDen a) h0 (by unfold weight at hw; omega)

/-- `fullBits` decides: a number it leaves open is 0. -/
theorem value_eq_zero_of_fullBits (a : RNum) (hnone : signAt (fullBits a) a = none) : a.value = 0 := by
  by_contra h0
  have hone := one_le_value_mul a h0
  set W := weight (coefDen a) a with hWdef
  set n := turnDen a with hndef
  set L := Nat.log2 (2 * W) + 1 with hL
  set b := (n + 2) * L with hb
  have hp : fullBits a = b + Nat.log2 b + 16 := rfl
  have hbound := signAt_none (fullBits a) (by omega) a hnone
  rw [hp] at hbound
  set p := b + Nat.log2 b + 16 with hpdef
  have hWL : (2 * W : ℝ) ≤ 2 ^ L := by
    have : 2 * W < 2 ^ L := Nat.lt_log2_self
    exact_mod_cast this.le
  have hbL : b < 2 ^ (Nat.log2 b + 1) := Nat.lt_log2_self
  have hbpos : 1 ≤ b := by
    rw [hb, hL]; exact Nat.succ_le_of_lt (by positivity)
  have hlog : Nat.log2 b ≤ b := by
    rw [Nat.log2_eq_log_two]; exact Nat.log_le_self 2 b
  have hv : 0 ≤ |a.value| := abs_nonneg _
  have hW0 : (0 : ℝ) ≤ W := by positivity
  -- 2^p ≤ 2 E (2 W)^(n+1)
  have h1 : (2 : ℝ) ^ p ≤ 2 * errUnits p * (2 * W : ℝ) ^ (n + 1) := by
    calc (2 : ℝ) ^ p = 2 ^ p * 1 := by ring
      _ ≤ 2 ^ p * (2 * coefDen a * |a.value| * (2 * W : ℝ) ^ n) := by gcongr
      _ = 2 * (coefDen a * 2 ^ p * |a.value|) * (2 * W : ℝ) ^ n := by ring
      _ ≤ 2 * (2 * (W * errUnits p)) * (2 * W : ℝ) ^ n := by gcongr
      _ = 2 * errUnits p * (2 * W : ℝ) ^ (n + 1) := by ring
  have h2 : (2 : ℝ) ^ p ≤ 2 * errUnits p * 2 ^ (L * (n + 1)) := by
    refine h1.trans ?_
    rw [pow_mul]
    gcongr
  have h3 : 2 ^ p ≤ 2 * errUnits p * 2 ^ (L * (n + 1)) := by exact_mod_cast h2
  have hsplit : p = (L + Nat.log2 b + 16) + L * (n + 1) := by rw [hpdef, hb]; ring
  have h4 : 2 ^ (L + Nat.log2 b + 16) ≤ 2 * errUnits p := by
    have : 2 ^ p = 2 ^ (L + Nat.log2 b + 16) * 2 ^ (L * (n + 1)) := by rw [← pow_add, ← hsplit]
    rw [this] at h3
    exact Nat.le_of_mul_le_mul_right h3 (by positivity)
  have h5 : b * 65536 ≤ 2 ^ (L + Nat.log2 b + 16) := by
    have hL1 : 1 ≤ L := by omega
    calc b * 65536 ≤ 2 ^ (Nat.log2 b + 1) * 2 ^ 16 := Nat.mul_le_mul hbL.le (by norm_num)
      _ = 2 ^ (Nat.log2 b + 1 + 16) := (pow_add 2 _ 16).symm
      _ ≤ 2 ^ (L + Nat.log2 b + 16) := Nat.pow_le_pow_right (by norm_num) (by omega)
  have arith : ∀ b l : ℕ, l ≤ b → 1 ≤ b → ¬b * 65536 ≤ 2 * (4 * (b + l + 16) + 64) := by
    intro b l h1 h2
    omega
  exact arith b (Nat.log2 b) hlog hbpos (h5.trans h4)

/-- The sign computed is the sign of the real number (`00_scope.md` R15). -/
theorem sign_spec (a : RNum) :
    (sign a = .lt ↔ a.value < 0) ∧ (sign a = .eq ↔ a.value = 0) ∧ (sign a = .gt ↔ 0 < a.value) := by
  have tri : (sign a = .lt ∧ a.value < 0) ∨ (sign a = .eq ∧ a.value = 0) ∨ (sign a = .gt ∧ 0 < a.value) := by
    unfold sign
    split
    · rename_i r hr
      have hval : a.value = (r : ℝ) := by
        unfold toRat? at hr
        split at hr
        · rename_i h
          simp only [Option.some.injEq] at hr
          rw [value_eq_termsValue, h, ← hr]; simp
        · rename_i t h
          split at hr
          · rename_i h0
            simp only [Option.some.injEq] at hr
            rw [value_eq_termsValue, h, ← hr]; simp [h0]
          · cases hr
        · cases hr
      rw [hval]
      split
      · left; rename_i h; exact ⟨rfl, by exact_mod_cast h⟩
      · split
        · right; left; rename_i h; exact ⟨rfl, by exact_mod_cast h⟩
        · right; right
          rename_i h1 h2
          exact ⟨rfl, by exact_mod_cast lt_of_le_of_ne (not_lt.mp h1) (Ne.symm h2)⟩
    · have fin : ∀ (p : Nat) (o : Ordering), 16 ≤ p → signAt p a = some o →
          (o = .lt ∧ a.value < 0) ∨ (o = .eq ∧ a.value = 0) ∨ (o = .gt ∧ 0 < a.value) := by
        intro p o hp ho
        obtain ⟨hgt, hlt, heq⟩ := signAt_sound p hp a
        cases o with
        | lt => exact .inl ⟨rfl, hlt ho⟩
        | eq => exact absurd ho heq
        | gt => exact .inr (.inr ⟨rfl, hgt ho⟩)
      split
      · rename_i o ho
        exact fin 64 o (by norm_num) ho
      · cases ho : signAt (fullBits a) a with
        | some o => exact fin (fullBits a) o (by unfold fullBits; simp only; omega) ho
        | none => exact .inr (.inl ⟨rfl, value_eq_zero_of_fullBits a ho⟩)
  rcases tri with ⟨h, hv⟩ | ⟨h, hv⟩ | ⟨h, hv⟩ <;> rw [h]
  · simp [hv, hv.ne, hv.le]
  · simp [hv]
  · simp [hv, hv.ne', hv.le]

/-- `<` on registers is `<` on the reals. -/
theorem lt_iff (a b : RNum) : lt a b = true ↔ a.value < b.value := by
  have h := (sign_spec (sub a b)).1
  rw [value_sub, sub_neg] at h
  rw [← h]
  unfold lt
  simp

/-- `≤` on registers is `≤` on the reals. -/
theorem le_iff (a b : RNum) : le a b = true ↔ a.value ≤ b.value := by
  have h := lt_iff b a
  unfold le
  rw [← not_lt, ← h]
  simp

end Sys2Proof.RNum
end

