-- ==== Sys2Proof/Laws/Goertzel.lean ====
section
/-! SUPPORT. The laws of the detector (`42_goertzel.md`): blocks, the recurrence, the transition table in terms of the
real numbers held, and sorting. -/

namespace Sys2Proof.Machine

/-! ## Blocks (R181) -/

@[simp] theorem length_blocksOf (n nb : Nat) (xs : List Word) : (blocksOf n nb xs).length = nb := by
  induction nb generalizing xs with
  | zero => rfl
  | succ nb ih => simp [blocksOf, ih]

theorem getElem_blocksOf (n nb b : Nat) (xs : List Word) (h : b < (blocksOf n nb xs).length) :
    (blocksOf n nb xs)[b] = (xs.drop (b * n)).take n := by
  induction nb generalizing xs b with
  | zero => simp [blocksOf] at h
  | succ nb ih =>
    cases b with
    | zero => simp [blocksOf]
    | succ b =>
      simp only [blocksOf, List.getElem_cons_succ]
      rw [ih, List.drop_drop]
      congr 2
      ring

/-- The samples of block `b`. -/
abbrev samplesOf (s : State) (b : Nat) : List Word :=
  (List.range s.n.toNat).map fun i => readCell (b * s.n.toNat + i) s.pcm

theorem blockAt_eq {s : State} (hm : spaceWf s.pcm = true) (b : Nat) : blockAt s b = samplesOf s b :=
  readSpan_eq_map _ _ hm

/-- The blocks that `DETECT` reads are the samples of the blocks in index order (R181, R185). -/
theorem detectBlocks_eq {s : State} (hm : spaceWf s.pcm = true) :
    blocksOf s.n.toNat (blockCount s) (detectInput s) = (List.range (blockCount s)).map (samplesOf s) := by
  refine List.ext_getElem (by simp) fun b h₁ h₂ => ?_
  rw [getElem_blocksOf]
  simp only [List.getElem_map, List.getElem_range]
  have hb : b < blockCount s := by simpa using h₁
  have hfit : b * s.n.toNat + s.n.toNat ≤ blockCount s * s.n.toNat := by
    have := Nat.mul_le_mul_right s.n.toNat (Nat.succ_le_of_lt hb)
    rw [Nat.succ_mul] at this
    exact this
  unfold detectInput pcmSeq
  rw [contents_eq_map _ hm]
  refine List.ext_getElem (by simp; omega) fun i h₃ h₄ => ?_
  simp

theorem blockPowers_eq {s : State} (hm : spaceWf s.pcm = true) :
    blockPowers s = (List.range (blockCount s)).map fun b => blockPower s.params.ops s.c (samplesOf s b) := by
  rw [blockPowers, detectBlocks_eq hm, List.map_map]
  rfl

@[simp] theorem length_blockPowers (s : State) : (blockPowers s).length = blockCount s := by
  simp [blockPowers]

/-- All samples of the blocks are finite. -/
theorem detectInput_finite_iff {s : State} (hm : spaceWf s.pcm = true) :
    (detectInput s).all isFinite32 = true ↔
      ∀ i, i < blockCount s * s.n.toNat → isFinite32 (readCell i s.pcm) = true := by
  unfold detectInput pcmSeq
  rw [contents_eq_map _ hm, List.all_map, List.all_eq_true]
  simp

theorem blockAt_finite_iff {s : State} (hm : spaceWf s.pcm = true) (b : Nat) :
    (blockAt s b).all isFinite32 = true ↔
      ∀ i, i < s.n.toNat → isFinite32 (readCell (b * s.n.toNat + i) s.pcm) = true := by
  rw [blockAt_eq hm, List.all_map, List.all_eq_true]
  simp

/-! ## The recurrence (R182) -/

/-- The recurrence after the first `i` samples. -/
abbrev recurrenceAt (ops : NumOps) (c : RNum) (xs : List Word) (i : Nat) : RNum × RNum := goertzelRun ops c (xs.take i)

theorem recurrenceAt_zero (ops : NumOps) (c : RNum) (xs : List Word) :
    recurrenceAt ops c xs 0 = (RNum.zero, RNum.zero) := rfl

theorem recurrenceAt_succ (ops : NumOps) (c : RNum) (xs : List Word) {i : Nat} (h : i < xs.length) :
    recurrenceAt ops c xs (i + 1) = goertzelStep ops c (recurrenceAt ops c xs i) (ops.val32 xs[i]) := by
  rw [recurrenceAt, List.take_add_one, List.getElem?_eq_getElem h]
  simp only [goertzelRun, List.map_append, Option.toList_some, List.map_cons, List.map_nil, List.foldl_append,
    List.foldl_cons, List.foldl_nil]

theorem recurrenceAt_length (ops : NumOps) (c : RNum) (xs : List Word) :
    recurrenceAt ops c xs xs.length = goertzelRun ops c xs := by
  rw [recurrenceAt, List.take_length]

/-! ## Comparisons of the numbers held -/

theorem isAuto_iff (theta : RNum) : isAuto theta = true ↔ theta.value ≤ 0 := by
  rw [isAuto, RNum.le_iff]
  simp [RNum.zero, RNum.value]

theorem isAuto_false_iff (theta : RNum) : isAuto theta = false ↔ 0 < theta.value := by
  rw [← Bool.not_eq_true, isAuto_iff, not_le]

theorem inContestedBand_iff (p : Params) (theta : RNum) (ms : List RNum) :
    inContestedBand p theta ms = true ↔ theta.value ≤ 0 ∧ (medianOf p ms).value = 0 := by
  rw [inContestedBand, Bool.and_eq_true, isAuto_iff, beq_iff_eq, (RNum.sign_spec _).2.1]

/-- The transition table in real numbers (R190). -/
theorem hysteresis_true_iff (thon thoff m : RNum) (st : Bool) :
    hysteresis thon thoff st m = true ↔
      (st = true ∧ thoff.value ≤ m.value) ∨ (st = false ∧ thon.value ≤ m.value) := by
  have hlt := RNum.lt_iff m thoff
  have hle := RNum.le_iff thon m
  cases st <;> simp [hysteresis, hlt, hle, Bool.eq_false_iff]

@[simp] theorem length_scanBits (thon thoff : RNum) (st : Bool) (ms : List RNum) :
    (scanBits thon thoff st ms).length = ms.length := by
  induction ms generalizing st with
  | nil => rfl
  | cons m ms ih => simp [scanBits, ih]

theorem getElem_scanBits_zero (thon thoff : RNum) (st : Bool) (ms : List RNum)
    (h : 0 < (scanBits thon thoff st ms).length) :
    (scanBits thon thoff st ms)[0] = hysteresis thon thoff st (ms[0]'(by simpa using h)) := by
  cases ms with
  | nil => simp at h
  | cons m ms => rfl

/-- Each bit is the transition from the bit before it (R190, R191). -/
theorem getElem_scanBits_succ (thon thoff : RNum) (st : Bool) (ms : List RNum) (b : Nat)
    (h : b + 1 < (scanBits thon thoff st ms).length) :
    (scanBits thon thoff st ms)[b + 1] =
      hysteresis thon thoff ((scanBits thon thoff st ms)[b]'(by omega)) (ms[b + 1]'(by simpa using h)) := by
  induction ms generalizing st b with
  | nil => simp at h
  | cons m ms ih =>
    simp only [scanBits, List.getElem_cons_succ]
    cases b with
    | zero =>
      rw [getElem_scanBits_zero]
      rfl
    | succ b => rw [ih]; rfl

/-! ## Sorting (R189) -/

theorem insertNum_perm (x : RNum) (ys : List RNum) : (insertNum x ys).Perm (x :: ys) := by
  induction ys with
  | nil => exact .refl _
  | cons y ys ih =>
    unfold insertNum
    split
    · exact .refl _
    · exact (ih.cons y).trans (.swap x y ys)

theorem sortNums_perm (xs : List RNum) : (sortNums xs).Perm xs := by
  induction xs with
  | nil => exact .refl _
  | cons x xs ih => exact (insertNum_perm x (sortNums xs)).trans (ih.cons x)

theorem insertNum_sorted (x : RNum) {ys : List RNum} (h : (ys.map RNum.value).Pairwise (· ≤ ·)) :
    ((insertNum x ys).map RNum.value).Pairwise (· ≤ ·) := by
  induction ys with
  | nil => simp [insertNum]
  | cons y ys ih =>
    rw [List.map_cons, List.pairwise_cons] at h
    unfold insertNum
    split
    · rename_i hxy
      rw [RNum.le_iff] at hxy
      rw [List.map_cons, List.map_cons, List.pairwise_cons, List.pairwise_cons]
      refine ⟨?_, h⟩
      intro v hv
      rcases List.mem_cons.mp hv with rfl | hv
      · exact hxy
      · exact hxy.trans (h.1 v hv)
    · rename_i hxy
      rw [RNum.le_iff, not_le] at hxy
      rw [List.map_cons, List.pairwise_cons]
      refine ⟨?_, ih h.2⟩
      intro v hv
      obtain ⟨z, hz, rfl⟩ := List.mem_map.mp hv
      rcases List.mem_cons.mp ((insertNum_perm x ys).mem_iff.mp hz) with rfl | hz
      · exact hxy.le
      · exact h.1 _ (List.mem_map_of_mem hz)

theorem sortNums_sorted (xs : List RNum) : ((sortNums xs).map RNum.value).Pairwise (· ≤ ·) := by
  induction xs with
  | nil => simp [sortNums]
  | cons x xs ih => exact insertNum_sorted x ih

end Sys2Proof.Machine
end

