-- ==== Sys2Proof/Laws/PerInstr.lean ====
section
/-! SUPPORT. A fact about every instruction as syntax, one lemma for each constructor: the fields of its command word
are its operation code, its operands, and 0 in the places that R100 of `30_encoding.md` says must be 0. -/

namespace Sys2Proof.Laws.Legal

/-- The command word of `i` has `i`'s fields, and is legal exactly when `i` is well-formed. -/
def Statement (i : Instr) : Prop :=
  opField (encode i) = opcode i ∧ selField (encode i) = selOf i ∧ zeroField (encode i) = 0 ∧
    immField (encode i) = immOf i ∧ legalFor i (encode i) = i.wf

/-- The shared argument: `encode` packs the fields. -/
theorem of_encode (i : Instr) : Statement i := by
  simp [Statement, encode, legalFor]

theorem cfgw (sel : BitVec 8) (imm : Word) : Statement (.cfgw sel imm) := of_encode _
theorem init : Statement .init := of_encode _
theorem render : Statement .render := of_encode _
theorem gzmag (b : Word) : Statement (.gzmag b) := of_encode _
theorem detect : Statement .detect := of_encode _
theorem demod : Statement .demod := of_encode _
theorem crc32 : Statement .crc32 := of_encode _
theorem enccrc : Statement .enccrc := of_encode _
theorem frame : Statement .frame := of_encode _
theorem deframe : Statement .deframe := of_encode _
theorem decode : Statement .decode := of_encode _

end Sys2Proof.Laws.Legal
end

