-- ==== Sys2Proof/Laws/Render.lean ====
section
/-! SUPPORT. The laws of the renderer (`41_render.md`): how many samples there are and which one stands at an index. -/

namespace Sys2Proof.Machine

variable (ops : NumOps) (omega : Angle)

@[simp] theorem length_renderUnit (t : Byte) (count n : Nat) : (renderUnit ops omega t count n).length = count := by
  induction count generalizing n with
  | zero => rfl
  | succ count ih => simp [renderUnit, ih]

theorem getElem_renderUnit (t : Byte) (count n i : Nat) (h : i < (renderUnit ops omega t count n).length) :
    (renderUnit ops omega t count n)[i] = sample ops omega t (n + i) := by
  induction count generalizing n i with
  | zero => simp [renderUnit] at h
  | succ count ih =>
    cases i with
    | zero => rfl
    | succ i =>
      simp only [renderUnit, List.getElem_cons_succ]
      rw [ih]
      congr 1
      omega

/-- One sample for each unit and each index within it (R164). -/
@[simp] theorem length_renderSeq (spu : Nat) (ts : List Byte) (n : Nat) :
    (renderSeq ops omega spu ts n).length = ts.length * spu := by
  induction ts generalizing n with
  | nil => simp [renderSeq]
  | cons t ts ih => simp [renderSeq, ih]; ring

/-- The sample at index `i` belongs to unit `i / spu` and has the global index `n + i` (R163, R166). -/
theorem getElem_renderSeq (spu : Nat) (ts : List Byte) (n i : Nat)
    (h : i < (renderSeq ops omega spu ts n).length) (hu : i / spu < ts.length) :
    (renderSeq ops omega spu ts n)[i] = sample ops omega ts[i / spu] (n + i) := by
  induction ts generalizing n i with
  | nil => simp at hu
  | cons t ts ih =>
    have hs : 0 < spu := by
      rcases Nat.eq_zero_or_pos spu with rfl | hs
      · simp at h
      · exact hs
    simp only [renderSeq]
    by_cases hi : i < spu
    · rw [List.getElem_append_left (by simpa using hi), getElem_renderUnit]
      simp [Nat.div_eq_of_lt hi]
    · have hd : i / spu = (i - spu) / spu + 1 := by
        rw [← Nat.add_div_right _ hs]; congr 1; omega
      have hl : i - spu < (renderSeq ops omega spu ts (n + spu)).length := by
        simp only [length_renderSeq, List.length_cons] at h ⊢
        have : (ts.length + 1) * spu = ts.length * spu + spu := by ring
        omega
      rw [List.getElem_append_right (by simpa using hi)]
      simp only [length_renderUnit]
      rw [ih (n + spu) (i - spu) hl (by simp only [List.length_cons] at hu; omega)]
      have hn : n + spu + (i - spu) = n + i := by omega
      rw [hn]
      simp only [hd, List.getElem_cons_succ]

/-- The content of `PCM` after `RENDER`, element by element (R163). -/
theorem readCell_rendered {s : State} (hm : spaceWf s.tim = true) {n : Nat} (hn : n < s.timLen * s.spu) :
    readCell n (rendered s).pcm = sample s.params.ops s.omega (readCell (n / s.spu) s.tim) n := by
  have hs : 0 < s.spu := by
    rcases Nat.eq_zero_or_pos s.spu with h | h
    · rw [h] at hn; simp at hn
    · exact h
  have hu : n / s.spu < s.timLen := (Nat.div_lt_iff_lt_mul hs).mpr hn
  rw [rendered_pcm, readCell_store, dif_pos (by simpa [timSeq] using hn), getElem_renderSeq _ _ _ _ _ _ _
    (by simpa [timSeq] using hu), Nat.zero_add]
  congr 1
  exact getElem_contents hm _

theorem isOpen_rendered_beyond {s : State} {n : Nat} (hn : s.timLen * s.spu ≤ n) : isOpen n (rendered s).pcm := by
  rw [rendered_pcm]
  exact isOpen_store _ (by simpa [timSeq] using hn)

end Sys2Proof.Machine
end

