-- ==== Sys2Proof/Laws/Rounding.lean ====
section
/-! SUPPORT. `rnd32` gives the nearest binary32 element, ties to even (`00_scope.md` R15): first for rationals, then for
every number a `Num` register holds. -/

namespace Sys2Proof

open Machine

/-! ## The grid of finite elements, in units of 2^-149 -/

/-- The magnitude of the pattern `p` (sign bit left out), in units of 2^-149. -/
def gridOf (p : Nat) : Nat :=
  (if p / 2 ^ 23 = 0 then p % 2 ^ 23 else 2 ^ 23 + p % 2 ^ 23) * 2 ^ (max 1 (p / 2 ^ 23) - 1)

theorem expField_eq (w : Word) : expField w = w.toNat % 2 ^ 31 / 2 ^ 23 := by
  unfold expField
  rw [BitVec.extractLsb'_toNat, Nat.shiftRight_eq_div_pow]
  have := w.isLt
  omega

theorem fracField_eq (w : Word) : fracField w = w.toNat % 2 ^ 31 % 2 ^ 23 := by
  unfold fracField
  rw [BitVec.extractLsb'_toNat]
  simp only [Nat.shiftRight_zero]
  omega

theorem isFinite32_iff (w : Word) : isFinite32 w = true ↔ w.toNat % 2 ^ 31 < 0x7F800000 := by
  unfold isFinite32
  rw [expField_eq, bne_iff_ne]
  omega

theorem rat32_eq (w : Word) :
    (rat32 w : ℝ) = (if w.msb then -1 else 1) * ((gridOf (w.toNat % 2 ^ 31) : ℝ) / 2 ^ 149) := by
  have key : ∀ (m e : Nat), 1 ≤ e →
      (((if 150 ≤ e then ((m : Int) * 2 ^ (e - 150) : Int) else mkRat m (2 ^ (150 - e))) : ℚ) : ℝ) =
        ((m * 2 ^ (e - 1) : Nat) : ℝ) / 2 ^ 149 := by
    intro m e he
    split
    · rename_i h
      have : e - 1 = 149 + (e - 150) := by omega
      rw [this, pow_add]
      push_cast
      rw [eq_div_iff (by positivity)]
      ring
    · rename_i h
      have h149 : (2 : ℝ) ^ 149 = 2 ^ (e - 1) * 2 ^ (150 - e) := by
        rw [← pow_add]; congr 1; omega
      rw [Rat.mkRat_eq_div, h149]
      push_cast
      field_simp
  unfold rat32 gridOf
  rw [expField_eq, fracField_eq]
  have h := key (if w.toNat % 2 ^ 31 / 2 ^ 23 = 0 then w.toNat % 2 ^ 31 % 2 ^ 23 else 2 ^ 23 + w.toNat % 2 ^ 31 % 2 ^ 23)
    (max 1 (w.toNat % 2 ^ 31 / 2 ^ 23)) (le_max_left _ _)
  rw [← h]
  cases w.msb <;> by_cases h0 : w.toNat % 2 ^ 31 / 2 ^ 23 = 0 <;> simp

/-- A finite element is a multiple of the spacing of a binade, or lies below that binade. -/
theorem gridOf_cases (p E : Nat) : (∃ j : Nat, gridOf p = j * 2 ^ E) ∨ (1 ≤ E ∧ gridOf p < 2 ^ (23 + E)) := by
  unfold gridOf
  by_cases h : E ≤ max 1 (p / 2 ^ 23) - 1
  · left
    refine ⟨(if p / 2 ^ 23 = 0 then p % 2 ^ 23 else 2 ^ 23 + p % 2 ^ 23) * 2 ^ (max 1 (p / 2 ^ 23) - 1 - E), ?_⟩
    rw [mul_assoc, ← pow_add, Nat.sub_add_cancel h]
  · right
    refine ⟨by omega, ?_⟩
    have hm : (if p / 2 ^ 23 = 0 then p % 2 ^ 23 else 2 ^ 23 + p % 2 ^ 23) < 2 ^ 24 := by
      split <;> omega
    have hp : 2 ^ (max 1 (p / 2 ^ 23) - 1) ≤ 2 ^ (E - 1) := Nat.pow_le_pow_right (by norm_num) (by omega)
    have h24 : 2 ^ (23 + E) = 2 ^ 24 * 2 ^ (E - 1) := by rw [← pow_add]; congr 1; omega
    rw [h24]
    exact lt_of_lt_of_le (Nat.mul_lt_mul_of_pos_right hm (Nat.two_pow_pos _)) (Nat.mul_le_mul_left _ hp)

/-- The element the rounding builds from an exponent and a rounded significand. -/
theorem gridOf_build (E m : Nat) (hm : m ≤ 2 ^ 24) (h : E = 0 ∨ 2 ^ 23 ≤ m) : gridOf (E * 2 ^ 23 + m) = m * 2 ^ E := by
  unfold gridOf
  rcases Nat.lt_or_ge m (2 ^ 23) with h1 | h1
  · obtain rfl : E = 0 := by omega
    rw [show (0 * 2 ^ 23 + m) / 2 ^ 23 = 0 by omega, show (0 * 2 ^ 23 + m) % 2 ^ 23 = m by omega]
    simp
  · rcases Nat.lt_or_ge m (2 ^ 24) with h2 | h2
    · rw [show (E * 2 ^ 23 + m) / 2 ^ 23 = E + 1 by omega, show (E * 2 ^ 23 + m) % 2 ^ 23 = m - 2 ^ 23 by omega,
        if_neg (by omega), show max 1 (E + 1) - 1 = E by omega, show 2 ^ 23 + (m - 2 ^ 23) = m by omega]
    · obtain rfl : m = 2 ^ 24 := by omega
      rw [show (E * 2 ^ 23 + 2 ^ 24) / 2 ^ 23 = E + 2 by omega, show (E * 2 ^ 23 + 2 ^ 24) % 2 ^ 23 = 0 by omega,
        if_neg (by omega), show max 1 (E + 2) - 1 = E + 1 by omega, pow_succ]
      ring

/-! ## Rounding a quotient to an integer -/

theorem roundHalfEven_close (n d : Nat) (hd : 0 < d) :
    |((roundHalfEven n d : Nat) : ℝ) - (n : ℝ) / d| ≤ 1 / 2 ∧
      (|((roundHalfEven n d : Nat) : ℝ) - (n : ℝ) / d| = 1 / 2 → roundHalfEven n d % 2 = 0) := by
  have hdr : (0 : ℝ) < d := by exact_mod_cast hd
  have hy : (n : ℝ) / d = (n / d : Nat) + ((n % d : Nat) : ℝ) / d := by
    have : (n : ℝ) = (d : ℝ) * (n / d : Nat) + (n % d : Nat) := by exact_mod_cast (Nat.div_add_mod n d).symm
    rw [this]
    field_simp
  have hr : n % d < d := Nat.mod_lt _ hd
  rw [hy]
  unfold roundHalfEven
  generalize n / d = q
  generalize n % d = r at *
  have hrr : (r : ℝ) < d := by exact_mod_cast hr
  have hx0 : 0 ≤ (r : ℝ) / d := by positivity
  simp only
  split
  · rename_i h
    have h : (2 * r : ℝ) < d := by exact_mod_cast h
    have : (r : ℝ) / d < 1 / 2 := by rw [div_lt_iff₀ hdr]; linarith
    have e : |((q : Nat) : ℝ) - ((q : ℝ) + (r : ℝ) / d)| = (r : ℝ) / d := by
      rw [sub_add_cancel_left, abs_neg, abs_of_nonneg hx0]
    rw [e]
    exact ⟨this.le, fun h => absurd h this.ne⟩
  · split
    · rename_i h
      have h : (d : ℝ) < 2 * r := by exact_mod_cast h
      have : 1 / 2 < (r : ℝ) / d := by rw [lt_div_iff₀ hdr]; linarith
      have h1 : (r : ℝ) / d ≤ 1 := by rw [div_le_one hdr]; exact hrr.le
      have e : |((q + 1 : Nat) : ℝ) - ((q : ℝ) + (r : ℝ) / d)| = 1 - (r : ℝ) / d := by
        push_cast
        rw [show (q : ℝ) + 1 - (q + (r : ℝ) / d) = 1 - (r : ℝ) / d by ring, abs_of_nonneg (by linarith)]
      rw [e]
      exact ⟨by linarith, fun h => by linarith⟩
    · rename_i h1 h2
      have h : (2 * r : ℝ) = d := by
        have : 2 * r = d := by omega
        exact_mod_cast this
      have hh : (r : ℝ) / d = 1 / 2 := by
        rw [div_eq_iff hdr.ne']
        linarith
      rw [hh]
      split
      · rename_i he
        refine ⟨?_, fun _ => he⟩
        rw [sub_add_cancel_left, abs_neg]
        norm_num
      · rename_i he
        refine ⟨?_, fun _ => by omega⟩
        push_cast
        rw [show (q : ℝ) + 1 - (q + 1 / 2) = 1 / 2 by ring]
        norm_num

/-- The rounded integer is the nearest one, ties to even. -/
theorem roundHalfEven_nearest (n d : Nat) (hd : 0 < d) (j : ℤ) :
    |((roundHalfEven n d : Nat) : ℝ) - (n : ℝ) / d| ≤ |(j : ℝ) - (n : ℝ) / d| ∧
      (|((roundHalfEven n d : Nat) : ℝ) - (n : ℝ) / d| = |(j : ℝ) - (n : ℝ) / d| → j ≠ roundHalfEven n d →
        roundHalfEven n d % 2 = 0) := by
  obtain ⟨h1, h2⟩ := roundHalfEven_close n d hd
  generalize roundHalfEven n d = m at *
  by_cases hj : j = m
  · subst hj
    exact ⟨le_rfl, fun _ h => absurd rfl h⟩
  · have hsep : (1 : ℝ) ≤ |(j : ℝ) - m| := by
      have : 1 ≤ |j - m| := Int.one_le_abs (sub_ne_zero.mpr hj)
      exact_mod_cast this
    have htri : |(j : ℝ) - m| ≤ |(j : ℝ) - (n : ℝ) / d| + |(m : ℝ) - (n : ℝ) / d| := by
      rw [abs_sub_comm (m : ℝ)]
      exact abs_sub_le _ _ _
    refine ⟨by linarith, fun heq _ => h2 (le_antisymm h1 (by linarith))⟩

/-! ## The exponent of a quotient -/

/-- The binary exponent as `magnitude32` finds it. -/
def expOf (n d : Nat) : Int :=
  let e₀ : Int := (Nat.log2 n : Int) - Nat.log2 d
  let below : Bool := if 0 ≤ e₀ then n < d * 2 ^ e₀.toNat else n * 2 ^ (-e₀).toNat < d
  if below then e₀ - 1 else e₀

theorem below_iff (n d : Nat) (hd : 0 < d) (e : Int) :
    (if 0 ≤ e then decide (n < d * 2 ^ e.toNat) else decide (n * 2 ^ (-e).toNat < d)) = true ↔
      (n : ℝ) / d < (2 : ℝ) ^ e := by
  have hdr : (0 : ℝ) < d := by exact_mod_cast hd
  rw [div_lt_iff₀ hdr]
  split
  · rename_i h
    lift e to ℕ using h
    rw [decide_eq_true_eq, zpow_natCast, Int.toNat_natCast, mul_comm]
    exact_mod_cast Iff.rfl
  · rename_i h
    obtain ⟨k, hk⟩ : ∃ k : ℕ, e = -(k : ℤ) := ⟨(-e).toNat, by omega⟩
    subst hk
    rw [decide_eq_true_eq, neg_neg, Int.toNat_natCast, zpow_neg, zpow_natCast, inv_mul_eq_div,
      lt_div_iff₀ (by positivity)]
    exact_mod_cast Iff.rfl

theorem expOf_spec (n d : Nat) (hn : 0 < n) (hd : 0 < d) :
    (2 : ℝ) ^ (expOf n d) ≤ (n : ℝ) / d ∧ (n : ℝ) / d < (2 : ℝ) ^ (expOf n d + 1) := by
  have hdr : (0 : ℝ) < d := by exact_mod_cast hd
  have two : (2 : ℝ) ≠ 0 := by norm_num
  have n1 : (2 : ℝ) ^ (Nat.log2 n : ℤ) ≤ n := by
    rw [zpow_natCast]; exact_mod_cast Nat.log2_self_le hn.ne'
  have n2 : (n : ℝ) < (2 : ℝ) ^ (Nat.log2 n + 1 : ℤ) := by
    rw [show (Nat.log2 n + 1 : ℤ) = ((Nat.log2 n + 1 : ℕ) : ℤ) by push_cast; ring, zpow_natCast]
    exact_mod_cast Nat.lt_log2_self
  have d1 : (2 : ℝ) ^ (Nat.log2 d : ℤ) ≤ d := by
    rw [zpow_natCast]; exact_mod_cast Nat.log2_self_le hd.ne'
  have d2 : (d : ℝ) < (2 : ℝ) ^ (Nat.log2 d + 1 : ℤ) := by
    rw [show (Nat.log2 d + 1 : ℤ) = ((Nat.log2 d + 1 : ℕ) : ℤ) by push_cast; ring, zpow_natCast]
    exact_mod_cast Nat.lt_log2_self
  have up : (n : ℝ) / d < (2 : ℝ) ^ ((Nat.log2 n : ℤ) - Nat.log2 d + 1) := by
    rw [div_lt_iff₀ hdr]
    calc (n : ℝ) < (2 : ℝ) ^ (Nat.log2 n + 1 : ℤ) := n2
      _ = (2 : ℝ) ^ ((Nat.log2 n : ℤ) - Nat.log2 d + 1) * (2 : ℝ) ^ (Nat.log2 d : ℤ) := by
        rw [← zpow_add₀ two]; congr 1; ring
      _ ≤ _ := mul_le_mul_of_nonneg_left d1 (by positivity)
  have down : (2 : ℝ) ^ ((Nat.log2 n : ℤ) - Nat.log2 d - 1) ≤ (n : ℝ) / d := by
    rw [le_div_iff₀ hdr]
    calc (2 : ℝ) ^ ((Nat.log2 n : ℤ) - Nat.log2 d - 1) * d
        ≤ (2 : ℝ) ^ ((Nat.log2 n : ℤ) - Nat.log2 d - 1) * (2 : ℝ) ^ (Nat.log2 d + 1 : ℤ) :=
          mul_le_mul_of_nonneg_left d2.le (by positivity)
      _ = (2 : ℝ) ^ (Nat.log2 n : ℤ) := by rw [← zpow_add₀ two]; congr 1; ring
      _ ≤ n := n1
  have hb := below_iff n d hd ((Nat.log2 n : ℤ) - Nat.log2 d)
  unfold expOf
  simp only
  by_cases h : (n : ℝ) / d < (2 : ℝ) ^ ((Nat.log2 n : ℤ) - Nat.log2 d)
  · rw [if_pos (hb.mpr h)]
    refine ⟨down, ?_⟩
    rwa [sub_add_cancel]
  · rw [if_neg fun hc => h (hb.mp hc)]
    exact ⟨not_lt.mp h, up⟩

/-! ## The magnitude -/

/-- The exponent of the spacing, in units of 2^-149. -/
def gapOf (n d : Nat) : Nat := (max (expOf n d) (-126) + 126).toNat

/-- The rounded significand. -/
def sigOf (n d : Nat) : Nat :=
  let q := max (expOf n d) (-126) - 23
  if 0 ≤ q then roundHalfEven n (d * 2 ^ q.toNat) else roundHalfEven (n * 2 ^ (-q).toNat) d

theorem magnitude32_eq (n d : Nat) : magnitude32 n d = min (gapOf n d * 2 ^ 23 + sigOf n d) 0x7F800000 := rfl

/-- The significand is the nearest integer to the scaled quotient, ties to even. -/
theorem sigOf_nearest (n d : Nat) (hd : 0 < d) (j : ℤ) :
    let y : ℝ := (n : ℝ) / d * 2 ^ 149 / 2 ^ gapOf n d
    |(sigOf n d : ℝ) - y| ≤ |(j : ℝ) - y| ∧
      (|(sigOf n d : ℝ) - y| = |(j : ℝ) - y| → j ≠ sigOf n d → sigOf n d % 2 = 0) := by
  intro y
  have hE : (gapOf n d : ℤ) = max (expOf n d) (-126) + 126 := Int.toNat_of_nonneg (by omega)
  have two : (2 : ℝ) ≠ 0 := by norm_num
  have hy : y = (n : ℝ) / d / (2 : ℝ) ^ (max (expOf n d) (-126) - 23) := by
    have : (2 : ℝ) ^ gapOf n d = (2 : ℝ) ^ (max (expOf n d) (-126) - 23) * 2 ^ 149 := by
      rw [← zpow_natCast, ← zpow_natCast (2 : ℝ) 149, ← zpow_add₀ two, hE]
      congr 1
      push_cast
      ring
    simp only [y]
    rw [this]
    field_simp
  rw [hy]
  have hdr : (0 : ℝ) < d := by exact_mod_cast hd
  unfold sigOf
  simp only
  generalize max (expOf n d) (-126) - 23 = q
  split
  · rename_i h
    lift q to ℕ using h
    have := roundHalfEven_nearest n (d * 2 ^ q) (by positivity) j
    rw [Int.toNat_natCast, zpow_natCast, div_div]
    push_cast at this ⊢
    exact this
  · rename_i h
    obtain ⟨k, hk⟩ : ∃ k : ℕ, q = -(k : ℤ) := ⟨(-q).toNat, by omega⟩
    subst hk
    have := roundHalfEven_nearest (n * 2 ^ k) d hd j
    rw [neg_neg, Int.toNat_natCast, zpow_neg, zpow_natCast, div_inv_eq_mul, div_mul_eq_mul_div]
    push_cast at this ⊢
    exact this

/-- The range of the scaled quotient and of the significand. -/
theorem scaled_range (n d : Nat) (hn : 0 < n) (hd : 0 < d) :
    let y : ℝ := (n : ℝ) / d * 2 ^ 149 / 2 ^ gapOf n d
    0 < y ∧ y < 2 ^ 24 ∧ (1 ≤ gapOf n d → 2 ^ 23 ≤ y) := by
  intro y
  obtain ⟨h1, h2⟩ := expOf_spec n d hn hd
  have hE : (gapOf n d : ℤ) = max (expOf n d) (-126) + 126 := Int.toNat_of_nonneg (by omega)
  have two : (2 : ℝ) ≠ 0 := by norm_num
  have hnr : (0 : ℝ) < n := by exact_mod_cast hn
  have hdr : (0 : ℝ) < d := by exact_mod_cast hd
  have hg : (2 : ℝ) ^ gapOf n d = (2 : ℝ) ^ (max (expOf n d) (-126) + 126) := by rw [← zpow_natCast, hE]
  refine ⟨by positivity, ?_, ?_⟩
  · simp only [y]
    rw [div_lt_iff₀ (by positivity), hg]
    calc (n : ℝ) / d * 2 ^ 149 < (2 : ℝ) ^ (expOf n d + 1) * 2 ^ 149 :=
          mul_lt_mul_of_pos_right h2 (by positivity)
      _ ≤ (2 : ℝ) ^ (max (expOf n d) (-126) + 1) * 2 ^ 149 :=
          mul_le_mul_of_nonneg_right (zpow_le_zpow_right₀ (by norm_num) (by omega)) (by positivity)
      _ = 2 ^ 24 * (2 : ℝ) ^ (max (expOf n d) (-126) + 126) := by
          rw [← zpow_natCast (2 : ℝ) 149, ← zpow_natCast (2 : ℝ) 24, ← zpow_add₀ two, ← zpow_add₀ two]
          congr 1
          push_cast
          ring
  · intro h
    have he : max (expOf n d) (-126) = expOf n d := by omega
    simp only [y]
    rw [le_div_iff₀ (by positivity), hg, he]
    calc (2 : ℝ) ^ 23 * (2 : ℝ) ^ (expOf n d + 126) = (2 : ℝ) ^ (expOf n d) * 2 ^ 149 := by
          rw [← zpow_natCast (2 : ℝ) 149, ← zpow_natCast (2 : ℝ) 23, ← zpow_add₀ two, ← zpow_add₀ two]
          congr 1
          push_cast
          ring
      _ ≤ _ := mul_le_mul_of_nonneg_right h1 (by positivity)

theorem sigOf_range (n d : Nat) (hn : 0 < n) (hd : 0 < d) :
    sigOf n d ≤ 2 ^ 24 ∧ (gapOf n d = 0 ∨ 2 ^ 23 ≤ sigOf n d) := by
  obtain ⟨h0, h1, h2⟩ := scaled_range n d hn hd
  set y : ℝ := (n : ℝ) / d * 2 ^ 149 / 2 ^ gapOf n d with hy
  constructor
  · have := (sigOf_nearest n d hd (2 ^ 24)).1
    rw [← hy, show ((2 ^ 24 : ℤ) : ℝ) = 2 ^ 24 by norm_num,
      abs_of_pos (show (0 : ℝ) < 2 ^ 24 - y by linarith)] at this
    have : (sigOf n d : ℝ) ≤ 2 ^ 24 := by linarith [le_abs_self ((sigOf n d : ℝ) - y)]
    exact_mod_cast this
  · rcases Nat.eq_zero_or_pos (gapOf n d) with h | h
    · exact .inl h
    · right
      have hyl := h2 h
      have := (sigOf_nearest n d hd (2 ^ 23)).1
      rw [← hy, show ((2 ^ 23 : ℤ) : ℝ) = 2 ^ 23 by norm_num,
        abs_of_nonpos (show (2 : ℝ) ^ 23 - y ≤ 0 by linarith)] at this
      have : (2 : ℝ) ^ 23 ≤ sigOf n d := by linarith [neg_abs_le ((sigOf n d : ℝ) - y)]
      exact_mod_cast this

/-- The magnitude is the nearest point of the grid, ties to even. -/
theorem grid_nearest (n d : Nat) (hn : 0 < n) (hd : 0 < d) (p : Nat) :
    let x : ℝ := (n : ℝ) / d * 2 ^ 149
    |((sigOf n d * 2 ^ gapOf n d : Nat) : ℝ) - x| ≤ |(gridOf p : ℝ) - x| ∧
      (|((sigOf n d * 2 ^ gapOf n d : Nat) : ℝ) - x| = |(gridOf p : ℝ) - x| →
        gridOf p ≠ sigOf n d * 2 ^ gapOf n d → sigOf n d % 2 = 0) := by
  intro x
  obtain ⟨h0, h1, h2⟩ := scaled_range n d hn hd
  have hpos : (0 : ℝ) < 2 ^ gapOf n d := by positivity
  set y : ℝ := (n : ℝ) / d * 2 ^ 149 / 2 ^ gapOf n d with hy
  have hx : x = y * 2 ^ gapOf n d := by rw [hy, div_mul_cancel₀ _ hpos.ne']
  have sc : ∀ v : ℝ, |v * 2 ^ gapOf n d - x| = |v - y| * 2 ^ gapOf n d := by
    intro v
    rw [hx, ← sub_mul, abs_mul, abs_of_pos hpos]
  have hm : ((sigOf n d * 2 ^ gapOf n d : Nat) : ℝ) = (sigOf n d : ℝ) * 2 ^ gapOf n d := by push_cast; rfl
  rw [hm, sc]
  rcases gridOf_cases p (gapOf n d) with ⟨j, hj⟩ | ⟨hE, hlow⟩
  · obtain ⟨a, b⟩ := sigOf_nearest n d hd j
    rw [← hy] at a b
    have hg : (gridOf p : ℝ) = (j : ℝ) * 2 ^ gapOf n d := by rw [hj]; push_cast; rfl
    rw [hg, sc, hj]
    refine ⟨mul_le_mul_of_nonneg_right (by simpa using a) hpos.le, fun heq hne => b ?_ ?_⟩
    · simpa using mul_right_cancel₀ hpos.ne' heq
    · intro hc
      exact hne (by rw [show j = sigOf n d by exact_mod_cast hc])
  · have hyl := h2 hE
    have a := (sigOf_nearest n d hd (2 ^ 23)).1
    rw [← hy, show ((2 ^ 23 : ℤ) : ℝ) = 2 ^ 23 by norm_num,
      abs_of_nonpos (show (2 : ℝ) ^ 23 - y ≤ 0 by linarith)] at a
    have hg : (gridOf p : ℝ) < 2 ^ 23 * 2 ^ gapOf n d := by
      rw [← pow_add]; exact_mod_cast hlow
    have hlt : |(sigOf n d : ℝ) - y| * 2 ^ gapOf n d < |(gridOf p : ℝ) - x| := by
      have e : |(gridOf p : ℝ) - x| = x - gridOf p := by
        rw [abs_of_neg, neg_sub]
        rw [hx]
        have : (2 : ℝ) ^ 23 * 2 ^ gapOf n d ≤ y * 2 ^ gapOf n d := mul_le_mul_of_nonneg_right hyl hpos.le
        linarith
      rw [e, hx]
      have : |(sigOf n d : ℝ) - y| * 2 ^ gapOf n d ≤ (y - 2 ^ 23) * 2 ^ gapOf n d :=
        mul_le_mul_of_nonneg_right (by linarith) hpos.le
      rw [sub_mul] at this
      linarith
    exact ⟨hlt.le, fun heq => absurd heq hlt.ne⟩

/-- The pattern of a magnitude below 2^127 is finite and stands for the rounded value. -/
theorem magnitude32_spec (n d : Nat) (hn : 0 < n) (hd : 0 < d) (hlt : (n : ℝ) / d < 2 ^ 127) :
    magnitude32 n d < 0x7F800000 ∧ gridOf (magnitude32 n d) = sigOf n d * 2 ^ gapOf n d ∧
      magnitude32 n d % 2 = sigOf n d % 2 := by
  obtain ⟨h1, h2⟩ := sigOf_range n d hn hd
  have he : expOf n d < 127 := by
    by_contra hc
    have := (expOf_spec n d hn hd).1
    have h3 : (2 : ℝ) ^ (127 : ℤ) ≤ (2 : ℝ) ^ expOf n d := zpow_le_zpow_right₀ (by norm_num) (by omega)
    rw [show (2 : ℝ) ^ (127 : ℤ) = 2 ^ 127 by norm_cast] at h3
    linarith
  have hE : gapOf n d ≤ 252 := by unfold gapOf; omega
  have hmag : magnitude32 n d = gapOf n d * 2 ^ 23 + sigOf n d := by
    rw [magnitude32_eq, min_eq_left]
    omega
  rw [hmag]
  refine ⟨by omega, gridOf_build _ _ h1 h2, by omega⟩

theorem magnitude32_large (n d : Nat) (hn : 0 < n) (hd : 0 < d) (hge : (2 : ℝ) ^ 127 ≤ (n : ℝ) / d) :
    254 * 2 ^ 23 ≤ magnitude32 n d := by
  obtain ⟨h1, h2⟩ := sigOf_range n d hn hd
  have he : 127 ≤ expOf n d := by
    by_contra hc
    have := (expOf_spec n d hn hd).2
    have h3 : (2 : ℝ) ^ (expOf n d + 1) ≤ (2 : ℝ) ^ (127 : ℤ) := zpow_le_zpow_right₀ (by norm_num) (by omega)
    rw [show (2 : ℝ) ^ (127 : ℤ) = 2 ^ 127 by norm_cast] at h3
    linarith
  have hE : 253 ≤ gapOf n d := by unfold gapOf; omega
  rw [magnitude32_eq]
  omega

theorem magnitude32_le (n d : Nat) : magnitude32 n d ≤ 0x7F800000 := by
  rw [magnitude32_eq]
  exact min_le_right _ _

/-! ## `rnd32` of a rational -/

theorem rnd32Rat_toNat {r : ℚ} (h0 : r ≠ 0) :
    (rnd32Rat r).toNat = (if r < 0 then 2 ^ 31 else 0) + magnitude32 r.num.natAbs r.den := by
  rw [rnd32Rat, if_neg h0, BitVec.toNat_ofNat]
  have := magnitude32_le r.num.natAbs r.den
  split <;> omega

theorem rnd32Rat_msb {r : ℚ} (h0 : r ≠ 0) : (rnd32Rat r).msb = decide (r < 0) := by
  rw [BitVec.msb_eq_decide, rnd32Rat_toNat h0]
  have := magnitude32_le r.num.natAbs r.den
  by_cases h : r < 0
  · simp [h]
  · simp [h]
    omega

theorem rnd32Rat_magnitude {r : ℚ} (h0 : r ≠ 0) :
    (rnd32Rat r).toNat % 2 ^ 31 = magnitude32 r.num.natAbs r.den := by
  rw [rnd32Rat_toNat h0]
  have := magnitude32_le r.num.natAbs r.den
  split <;> omega

theorem abs_eq_natAbs_div (r : ℚ) : |(r : ℝ)| = (r.num.natAbs : ℝ) / r.den := by
  have h : (r : ℝ) = (r.num : ℝ) / r.den := by exact_mod_cast (Rat.num_div_den r).symm
  rw [h, abs_div, Nat.abs_cast, Nat.cast_natAbs]
  push_cast
  rfl

/-- Distances on the grid, scaled back. -/
theorem dist_scaled (a x : ℝ) : |a / 2 ^ 149 - x| = |a - x * 2 ^ 149| / 2 ^ 149 := by
  have : (0 : ℝ) < 2 ^ 149 := by positivity
  rw [show a / 2 ^ 149 - x = (a - x * 2 ^ 149) / 2 ^ 149 by field_simp, abs_div, abs_of_pos this]

/-- `rnd32` of a rational below 2^127 in magnitude is the nearest element, ties to even. -/
theorem rnd32Rat_nearest (r : ℚ) (hr : |(r : ℝ)| < 2 ^ 127) : NearestEven (rnd32Rat r) (r : ℝ) := by
  by_cases h0 : r = 0
  · subst h0
    have hz : (rat32 (rnd32Rat 0) : ℝ) = 0 := by
      have : rat32 (rnd32Rat 0) = 0 := by decide +kernel
      rw [this]
      norm_num
    refine ⟨by decide +kernel, fun e _ hne => .inl ?_⟩
    rw [hz]
    simp only [Rat.cast_zero, sub_zero, abs_zero, abs_pos, ne_eq, Rat.cast_eq_zero]
    intro hc
    exact hne (by rw [hc]; decide +kernel)
  · have hn : 0 < r.num.natAbs := Int.natAbs_pos.mpr (Rat.num_ne_zero.mpr h0)
    have hd : 0 < r.den := r.den_pos
    have habs := abs_eq_natAbs_div r
    rw [habs] at hr
    obtain ⟨hfin, hgrid, hpar⟩ := magnitude32_spec _ _ hn hd hr
    have hw := rat32_eq (rnd32Rat r)
    rw [rnd32Rat_msb h0, rnd32Rat_magnitude h0, hgrid] at hw
    refine ⟨(isFinite32_iff _).mpr (by rw [rnd32Rat_magnitude h0]; exact hfin), fun e he hne => ?_⟩
    have hev := rat32_eq e
    generalize e.toNat % 2 ^ 31 = p at hev
    have hlsb : (rnd32Rat r).getLsbD 0 = decide (sigOf r.num.natAbs r.den % 2 = 1) := by
      rw [BitVec.getLsbD, Nat.testBit_zero, ← hpar, ← rnd32Rat_magnitude h0]
      congr 1
      rw [eq_iff_iff]
      omega
    obtain ⟨hle, heq⟩ := grid_nearest _ _ hn hd p
    have hle0 := (grid_nearest _ _ hn hd 0).1
    rw [← habs] at hle heq hle0
    have hzero : gridOf 0 = 0 := by decide
    rw [hzero] at hle0
    generalize hS : sigOf r.num.natAbs r.den * 2 ^ gapOf r.num.natAbs r.den = S at *
    generalize gridOf p = g at *
    have h149 : (0 : ℝ) < 2 ^ 149 := by positivity
    have hrpos : (0 : ℝ) < |(r : ℝ)| := abs_pos.mpr (by exact_mod_cast h0)
    set σ : ℝ := if r < 0 then -1 else 1 with hσ
    have hsig : (r : ℝ) = σ * |(r : ℝ)| := by
      rcases lt_trichotomy r 0 with h | h | h
      · have : (r : ℝ) < 0 := by exact_mod_cast h
        rw [hσ, if_pos h, abs_of_neg this]; ring
      · exact absurd h h0
      · have : (0 : ℝ) < r := by exact_mod_cast h
        rw [hσ, if_neg (not_lt.mpr h.le), abs_of_pos this]; ring
    have hσ2 : |σ| = 1 := by
      rw [hσ]; split <;> norm_num
    have hσσ : σ * σ = 1 := by
      rw [hσ]; split <;> norm_num
    have hw' : (rat32 (rnd32Rat r) : ℝ) = σ * ((S : ℝ) / 2 ^ 149) := by
      rw [hw, hσ]; simp
    have dist : ∀ v : ℝ, |σ * v - r| = |v - abs (r : ℝ)| := by
      intro v
      rw [show σ * v - (r : ℝ) = σ * (v - abs (r : ℝ)) by rw [mul_sub, ← hsig], abs_mul, hσ2, one_mul]
    have hτ : (rat32 e : ℝ) = σ * ((g : ℝ) / 2 ^ 149) ∨ (0 < g ∧ (rat32 e : ℝ) = σ * -((g : ℝ) / 2 ^ 149)) := by
      rcases Nat.eq_zero_or_pos g with hc | hc
      · left
        rw [hev, hc]
        simp
      · rw [hev, hσ]
        by_cases h1 : e.msb = true <;> by_cases h2 : r < 0 <;> simp [h1, h2, hc]
    rw [hw', dist, dist_scaled]
    rcases hτ with hτ | ⟨hg, hτ⟩
    · rw [hτ, dist, dist_scaled]
      rcases hle.lt_or_eq with h | h
      · left
        exact div_lt_div_of_pos_right h h149
      · right
        refine ⟨by rw [h], ?_⟩
        have hgne : g ≠ S := by
          intro hc
          apply hne
          have : (rat32 e : ℝ) = rat32 (rnd32Rat r) := by rw [hτ, hw', hc]
          exact_mod_cast this
        rw [hlsb, heq h hgne]
        rfl
    · rw [hτ, dist]
      left
      have : |(S : ℝ) - |(r : ℝ)| * 2 ^ 149| / 2 ^ 149 ≤ |(r : ℝ)| := by
        rw [div_le_iff₀ h149]
        refine hle0.trans ?_
        rw [Nat.cast_zero, zero_sub, abs_neg, abs_of_nonneg (by positivity)]
      refine lt_of_le_of_lt this ?_
      have hgr : (0 : ℝ) < (g : ℝ) / 2 ^ 149 := by
        have : (0 : ℝ) < g := by exact_mod_cast hg
        positivity
      rw [abs_of_neg (show -((g : ℝ) / 2 ^ 149) - |(r : ℝ)| < 0 by linarith)]
      linarith

/-- From 2^127 on the pattern is at least that of 2^127, or of infinity. -/
theorem rnd32Rat_large {r : ℚ} (hr : (2 : ℝ) ^ 127 ≤ |(r : ℝ)|) :
    254 * 2 ^ 23 ≤ (rnd32Rat r).toNat % 2 ^ 31 ∧ (rnd32Rat r).msb = decide (r < 0) := by
  have h0 : r ≠ 0 := by
    rintro rfl
    norm_num at hr
  rw [abs_eq_natAbs_div] at hr
  refine ⟨?_, rnd32Rat_msb h0⟩
  rw [rnd32Rat_magnitude h0]
  exact magnitude32_large _ _ (Int.natAbs_pos.mpr (Rat.num_ne_zero.mpr h0)) r.den_pos hr

/-! ## `NearestEven` holds on an interval -/

/-- An element that is nearest at both ends of an interval is nearest inside it. -/
theorem NearestEven.between {w : Word} {lo hi x : ℝ} (hlo : NearestEven w lo) (hhi : NearestEven w hi) (h1 : lo ≤ x)
    (h2 : x ≤ hi) : NearestEven w x := by
  refine ⟨hlo.1, fun e he hne => ?_⟩
  have a := hlo.2 e he hne
  have b := hhi.2 e he hne
  have hne' : (rat32 e : ℝ) ≠ rat32 w := by exact_mod_cast hne
  generalize (rat32 e : ℝ) = v at *
  generalize (rat32 w : ℝ) = u at *
  -- the distances compare as the square does: `(v - x)² - (u - x)² = (v - u) (v + u - 2 x)`
  have sq : ∀ y : ℝ, (|u - y| < |v - y| ↔ 0 < (v - u) * (v + u - 2 * y)) ∧
      (|u - y| = |v - y| ↔ (v - u) * (v + u - 2 * y) = 0) := by
    intro y
    rw [← sq_lt_sq, ← sq_eq_sq_iff_abs_eq_abs]
    constructor <;> constructor <;> intro h <;> nlinarith
  rw [(sq lo).1, (sq lo).2] at a
  rw [(sq hi).1, (sq hi).2] at b
  rw [(sq x).1, (sq x).2]
  have hl : 0 ≤ (v - u) * (v + u - 2 * lo) := by rcases a with a | a <;> [exact a.le; exact a.1.ge]
  have hh : 0 ≤ (v - u) * (v + u - 2 * hi) := by rcases b with b | b <;> [exact b.le; exact b.1.ge]
  rcases lt_or_gt_of_ne hne' with h | h
  · -- `v < u`: the value at `lo` is the least
    rcases a with a | a
    · left
      nlinarith
    · rcases eq_or_lt_of_le h1 with hx | hx
      · subst hx
        exact .inr a
      · left
        nlinarith
  · rcases b with b | b
    · left
      nlinarith
    · rcases eq_or_lt_of_le h2 with hx | hx
      · subst hx
        exact .inr b
      · left
        nlinarith

/-- The same for the rounding of rationals, with no bound on the ends. -/
theorem nearest_between {lo hi : ℚ} {x : ℝ} (h : rnd32Rat lo = rnd32Rat hi) (h1 : (lo : ℝ) ≤ x) (h2 : x ≤ hi)
    (hx : |x| < 2 ^ 126) : NearestEven (rnd32Rat lo) x := by
  rw [abs_lt] at hx
  -- an end beyond 2^127 would round to an element far from the other end
  have far : ∀ r : ℚ, |(r : ℝ)| < 2 ^ 127 → ∀ w : Word, NearestEven w r → 254 * 2 ^ 23 ≤ w.toNat % 2 ^ 31 →
      (w.msb = false → (2 : ℝ) ^ 126 ≤ r) ∧ (w.msb = true → (r : ℝ) ≤ -2 ^ 126) := by
    intro r hr w hw hbig
    have hval := rat32_eq w
    have hgrid : 2 ^ 127 * 2 ^ 149 ≤ gridOf (w.toNat % 2 ^ 31) := by
      unfold gridOf
      rw [if_neg (by omega)]
      calc 2 ^ 127 * 2 ^ 149 = 2 ^ 23 * 2 ^ 253 := by rw [← pow_add, ← pow_add]
        _ ≤ _ := Nat.mul_le_mul (by omega) (Nat.pow_le_pow_right (by norm_num) (by omega))
    have hg : (2 : ℝ) ^ 127 ≤ (gridOf (w.toNat % 2 ^ 31) : ℝ) / 2 ^ 149 := by
      rw [le_div_iff₀ (by positivity)]
      exact_mod_cast hgrid
    generalize (gridOf (w.toNat % 2 ^ 31) : ℝ) / 2 ^ 149 = g at *
    have hz := hw.2 0 (by decide +kernel)
    have hz0 : (rat32 (0 : Word) : ℝ) = 0 := by
      rw [show rat32 (0 : Word) = 0 by decide +kernel]
      norm_num
    have hp : (0 : ℝ) < 2 ^ 126 := by positivity
    have h127 : (2 : ℝ) ^ 127 = 2 ^ 126 + 2 ^ 126 := by rw [pow_succ]; ring
    constructor <;> intro hs <;> rw [hs] at hval
    · have hval : (rat32 w : ℝ) = g := by rw [hval]; simp
      have hne : rat32 (0 : Word) ≠ rat32 w := by
        intro hc
        have : (0 : ℝ) = g := by rw [← hval, ← hz0, hc]
        linarith
      have : |(rat32 w : ℝ) - r| ≤ |(rat32 (0 : Word) : ℝ) - r| := by
        rcases hz hne with h | h <;> [exact h.le; exact h.1.le]
      rw [hval, hz0, zero_sub, abs_neg] at this
      by_contra hc
      have h1 := le_abs_self (g - r)
      have h2 : |(r : ℝ)| < g - r := by rw [abs_lt]; constructor <;> linarith
      linarith
    · have hval : (rat32 w : ℝ) = -g := by rw [hval]; simp
      have hne : rat32 (0 : Word) ≠ rat32 w := by
        intro hc
        have : (0 : ℝ) = -g := by rw [← hval, ← hz0, hc]
        linarith
      have : |(rat32 w : ℝ) - r| ≤ |(rat32 (0 : Word) : ℝ) - r| := by
        rcases hz hne with h | h <;> [exact h.le; exact h.1.le]
      rw [hval, hz0, zero_sub, abs_neg] at this
      by_contra hc
      have h1 := neg_abs_le (-g - r)
      have h2 : |(r : ℝ)| < g + r := by rw [abs_lt]; constructor <;> linarith
      linarith
  have h127 : (2 : ℝ) ^ 127 = 2 ^ 126 + 2 ^ 126 := by rw [pow_succ]; ring
  have hp : (0 : ℝ) < 2 ^ 126 := by positivity
  by_cases hl : |(lo : ℝ)| < 2 ^ 127
  · by_cases hh : |(hi : ℝ)| < 2 ^ 127
    · exact NearestEven.between (rnd32Rat_nearest lo hl) (h ▸ rnd32Rat_nearest hi hh) h1 h2
    · exfalso
      have hh := not_lt.mp hh
      obtain ⟨hb, hs⟩ := rnd32Rat_large hh
      have hpos : 0 < (hi : ℝ) := by
        rcases le_abs.mp hh with hc | hc <;> linarith
      have hpos' : ¬hi < 0 := not_lt.mpr (by exact_mod_cast hpos.le)
      rw [← h] at hb hs
      have := (far lo hl _ (rnd32Rat_nearest lo hl) hb).1 (by rw [hs]; simpa using hpos')
      linarith
  · exfalso
    have hl := not_lt.mp hl
    obtain ⟨hb, hs⟩ := rnd32Rat_large hl
    have hneg : (lo : ℝ) ≤ -2 ^ 127 := by
      rcases le_abs.mp hl with hc | hc <;> linarith
    have hneg' : lo < 0 := by
      have : (lo : ℝ) < 0 := by linarith
      exact_mod_cast this
    have hs : (rnd32Rat lo).msb = true := by rw [hs]; simpa using hneg'
    by_cases hh : |(hi : ℝ)| < 2 ^ 127
    · rw [h] at hb hs
      have := (far hi hh _ (rnd32Rat_nearest hi hh) hb).2 hs
      linarith
    · have hh := not_lt.mp hh
      obtain ⟨-, hs'⟩ := rnd32Rat_large hh
      rw [h, hs'] at hs
      have : (hi : ℝ) < 0 := by exact_mod_cast of_decide_eq_true hs
      rcases le_abs.mp hh with hc | hc <;> linarith

/-! ## Boundaries -/

theorem gridOf_mono {p q : Nat} (h : p < q) : gridOf p < gridOf q := by
  unfold gridOf
  have hp := Nat.mod_lt p (Nat.two_pow_pos 23)
  have hq := Nat.mod_lt q (Nat.two_pow_pos 23)
  have dp := Nat.div_add_mod p (2 ^ 23)
  have dq := Nat.div_add_mod q (2 ^ 23)
  have hle : p / 2 ^ 23 ≤ q / 2 ^ 23 := Nat.div_le_div_right h.le
  generalize p / 2 ^ 23 = a at *
  generalize q / 2 ^ 23 = b at *
  generalize p % 2 ^ 23 = f at *
  generalize q % 2 ^ 23 = g at *
  rcases hle.lt_or_eq with hab | rfl
  · have hb : b ≠ 0 := by omega
    rw [if_neg hb, show max 1 b - 1 = b - 1 by omega]
    have hb1 : 2 ^ 23 * 2 ^ (b - 1) ≤ (2 ^ 23 + g) * 2 ^ (b - 1) := Nat.mul_le_mul_right _ (by omega)
    refine lt_of_lt_of_le ?_ hb1
    by_cases ha : a = 0
    · rw [if_pos ha, ha]
      calc f * 2 ^ (max 1 0 - 1) < 2 ^ 23 * 1 := by simpa using hp
        _ ≤ _ := Nat.mul_le_mul_left _ (Nat.two_pow_pos _)
    · rw [if_neg ha, show max 1 a - 1 = a - 1 by omega]
      calc (2 ^ 23 + f) * 2 ^ (a - 1) < 2 ^ 24 * 2 ^ (a - 1) := Nat.mul_lt_mul_of_pos_right (by omega) (Nat.two_pow_pos _)
        _ = 2 ^ 23 * 2 ^ (a - 1 + 1) := by rw [pow_succ]; ring
        _ ≤ _ := Nat.mul_le_mul_left _ (Nat.pow_le_pow_right (by norm_num) (by omega))
  · refine Nat.mul_lt_mul_of_pos_right ?_ (Nat.two_pow_pos _)
    split <;> omega

/-- Finite elements of one sign with one value are one element. -/
theorem eq_of_rat32_eq {w v : Word} (hm : w.msb = v.msb) (h : rat32 w = rat32 v) : w = v := by
  have hr : (rat32 w : ℝ) = rat32 v := by rw [h]
  rw [rat32_eq, rat32_eq, hm] at hr
  have hg : gridOf (w.toNat % 2 ^ 31) = gridOf (v.toNat % 2 ^ 31) := by
    have h149 : (0 : ℝ) < 2 ^ 149 := by positivity
    have : (gridOf (w.toNat % 2 ^ 31) : ℝ) = gridOf (v.toNat % 2 ^ 31) := by
      cases hv : v.msb <;> rw [hv] at hr <;> simp only [Bool.false_eq_true, if_false, if_true] at hr
      · rw [one_mul, one_mul] at hr
        exact (div_left_inj' h149.ne').mp hr
      · rw [neg_one_mul, neg_one_mul, neg_inj] at hr
        exact (div_left_inj' h149.ne').mp hr
    exact_mod_cast this
  have hlow : w.toNat % 2 ^ 31 = v.toNat % 2 ^ 31 := by
    rcases lt_trichotomy (w.toNat % 2 ^ 31) (v.toNat % 2 ^ 31) with hc | hc | hc
    · exact absurd hg (gridOf_mono hc).ne
    · exact hc
    · exact absurd hg (gridOf_mono hc).ne'
  rw [BitVec.msb_eq_decide, BitVec.msb_eq_decide, decide_eq_decide] at hm
  refine BitVec.eq_of_toNat_eq ?_
  have := w.isLt
  have := v.isLt
  omega

/-- A finite element is a multiple of 2^-149. -/
theorem rat32_grid (w : Word) : ∃ j : ℤ, (rat32 w : ℝ) = j / 2 ^ 149 := by
  rw [rat32_eq]
  cases w.msb
  · exact ⟨gridOf (w.toNat % 2 ^ 31), by simp⟩
  · exact ⟨-gridOf (w.toNat % 2 ^ 31), by push_cast; simp; ring⟩

theorem rnd32Rat_msb' (r : ℚ) : (rnd32Rat r).msb = decide (r < 0) := by
  by_cases h : r = 0
  · subst h
    rfl
  · exact rnd32Rat_msb h

/-- Two rationals that round to different elements have a multiple of 2^-150 between them. -/
theorem boundary_between {lo hi : ℚ} (hlh : lo ≤ hi) (hne : rnd32Rat lo ≠ rnd32Rat hi) (hl : |(lo : ℝ)| < 2 ^ 127)
    (hh : |(hi : ℝ)| < 2 ^ 127) : ∃ j : ℤ, (lo : ℝ) ≤ j / 2 ^ 150 ∧ (j : ℝ) / 2 ^ 150 ≤ hi := by
  by_cases hm : (rnd32Rat lo).msb = (rnd32Rat hi).msb
  · have huv : rat32 (rnd32Rat lo) ≠ rat32 (rnd32Rat hi) := fun hc => hne (eq_of_rat32_eq hm hc)
    have a := rnd32Rat_nearest lo hl
    have b := rnd32Rat_nearest hi hh
    have a' : |(rat32 (rnd32Rat lo) : ℝ) - lo| ≤ |(rat32 (rnd32Rat hi) : ℝ) - lo| := by
      rcases a.2 _ b.1 huv.symm with h | h <;> [exact h.le; exact h.1.le]
    have b' : |(rat32 (rnd32Rat hi) : ℝ) - hi| ≤ |(rat32 (rnd32Rat lo) : ℝ) - hi| := by
      rcases b.2 _ a.1 huv with h | h <;> [exact h.le; exact h.1.le]
    obtain ⟨i, hi'⟩ := rat32_grid (rnd32Rat lo)
    obtain ⟨j, hj⟩ := rat32_grid (rnd32Rat hi)
    have huv' : (rat32 (rnd32Rat lo) : ℝ) ≠ rat32 (rnd32Rat hi) := by exact_mod_cast huv
    have hlh' : (lo : ℝ) ≤ hi := by exact_mod_cast hlh
    have hmid : ((i + j : ℤ) : ℝ) / 2 ^ 150 = ((rat32 (rnd32Rat lo) : ℝ) + rat32 (rnd32Rat hi)) / 2 := by
      rw [hi', hj, pow_succ]
      push_cast
      field_simp
    refine ⟨i + j, ?_⟩
    rw [hmid]
    clear hmid hi' hj
    generalize (rat32 (rnd32Rat lo) : ℝ) = u at *
    generalize (rat32 (rnd32Rat hi) : ℝ) = v at *
    rw [← sq_le_sq] at a' b'
    rcases lt_or_gt_of_ne huv' with h | h
    · constructor <;> nlinarith
    · -- then both ends are the midpoint
      have h1 : (u + v) / 2 ≤ lo := by nlinarith
      have h2 : (hi : ℝ) ≤ (u + v) / 2 := by nlinarith
      constructor <;> linarith
  · rw [rnd32Rat_msb', rnd32Rat_msb', decide_eq_decide] at hm
    refine ⟨0, ?_⟩
    have : lo < 0 ∧ 0 ≤ hi := by
      rcases lt_or_ge lo 0 with h1 | h1 <;> rcases lt_or_ge hi 0 with h2 | h2
      · exact absurd (iff_of_true h1 h2) hm
      · exact ⟨h1, h2⟩
      · linarith
      · exact absurd (iff_of_false (not_lt.mpr h1) (not_lt.mpr h2)) hm
    have h1 : (lo : ℝ) < 0 := by exact_mod_cast this.1
    have h2 : (0 : ℝ) ≤ hi := by exact_mod_cast this.2
    simp only [Int.cast_zero, zero_div]
    exact ⟨h1.le, h2⟩

/-! ## `rnd32` of the number a register holds -/

namespace RNum

theorem toRat_value {a : RNum} {r : ℚ} (h : toRat? a = some r) : a.value = (r : ℝ) := by
  unfold toRat? at h
  rw [value_eq_termsValue]
  split at h
  · rename_i ht
    rw [ht]
    simp only [Option.some.injEq] at h
    simp [← h]
  · rename_i t ht
    split at h
    · rename_i h0
      simp only [Option.some.injEq] at h
      rw [ht]
      simp [h0, h]
    · cases h
  · cases h

/-- The bounds enclose the number. -/
theorem bounds_spec (p : Nat) (hp : 16 ≤ p) (a : RNum) :
    ((bounds p a).1 : ℝ) ≤ a.value ∧ a.value ≤ ((bounds p a).2 : ℝ) ∧
      ((bounds p a).2 : ℝ) - (bounds p a).1 = 2 * (weight (coefDen a) a * errUnits p) / (coefDen a * 2 ^ p) := by
  have h := approx_close p hp a
  have hd : (0 : ℝ) < coefDen a * 2 ^ p := by
    have := coefDen_pos a
    positivity
  have hr : ∀ v : Int, ((ratAt p (coefDen a) v : ℚ) : ℝ) = v / (coefDen a * 2 ^ p) := by
    intro v
    rw [ratAt, Rat.mkRat_eq_div]
    push_cast
    rfl
  rw [abs_le] at h
  unfold bounds
  simp only [hr]
  push_cast
  refine ⟨?_, ?_, ?_⟩
  · rw [div_le_iff₀ hd]
    linarith [h.2]
  · rw [le_div_iff₀ hd]
    linarith [h.1]
  · rw [← sub_div]
    congr 1
    ring

/-- At `tieBits` the bounds are closer than 2^-150. -/
theorem bounds_tieBits (a : RNum) :
    ((bounds (tieBits a) a).2 : ℝ) - (bounds (tieBits a) a).1 < 1 / 2 ^ 150 := by
  rw [(bounds_spec (tieBits a) (by unfold tieBits; omega) a).2.2]
  have hd : (1 : ℝ) ≤ coefDen a := by exact_mod_cast coefDen_pos a
  unfold tieBits errUnits
  set W := weight (coefDen a) a with hW
  set L := Nat.log2 (W + 1) with hL
  have hWL : W + 1 < 2 ^ (L + 1) := Nat.lt_log2_self
  have hLL : L + 1 ≤ 2 ^ L := Nat.lt_two_pow_self
  have key : W * (4 * (192 + 2 * L) + 64) * 2 * 2 ^ 150 < 2 ^ (192 + 2 * L) := by
    have h1 : W * (4 * (192 + 2 * L) + 64) ≤ 2 ^ (L + 1) * (832 * 2 ^ L) := Nat.mul_le_mul (by omega) (by omega)
    calc W * (4 * (192 + 2 * L) + 64) * 2 * 2 ^ 150 ≤ 2 ^ (L + 1) * (832 * 2 ^ L) * 2 * 2 ^ 150 := by
          exact Nat.mul_le_mul_right _ (Nat.mul_le_mul_right _ h1)
      _ = 832 * 2 ^ (2 * L + 152) := by
          rw [show 2 * L + 152 = (L + 1) + L + 1 + 150 by omega, pow_add _ (L + 1 + L + 1) 150, pow_succ _ (L + 1 + L),
            pow_add _ (L + 1) L]
          ring
      _ < 2 ^ 40 * 2 ^ (2 * L + 152) := Nat.mul_lt_mul_of_pos_right (by norm_num) (Nat.two_pow_pos _)
      _ = 2 ^ (192 + 2 * L) := by rw [← pow_add]; congr 1; omega
  have keyR : (W : ℝ) * (4 * (192 + 2 * L) + 64) * 2 * 2 ^ 150 < 2 ^ (192 + 2 * L) := by exact_mod_cast key
  push_cast
  rw [div_lt_div_iff₀ (by positivity) (by positivity), one_mul]
  have : (2 : ℝ) ^ (192 + 2 * L) ≤ coefDen a * 2 ^ (192 + 2 * L) := le_mul_of_one_le_left (by positivity) hd
  linarith

/-- The multiple of 2^-150 nearest to the middle of [`lo`, `hi`]. -/
theorem floor_boundary {lo hi : ℚ} {j : ℤ} (hwid : (hi : ℝ) - lo < 1 / 2 ^ 150) (hj1 : (lo : ℝ) ≤ j / 2 ^ 150)
    (hj2 : (j : ℝ) / 2 ^ 150 ≤ hi) : ((lo + hi) * 2 ^ 149 + 1 / 2).floor = j := by
  change ⌊(lo + hi) * 2 ^ 149 + 1 / 2⌋ = j
  rw [Int.floor_eq_iff]
  have h150 : (0 : ℝ) < 2 ^ 150 := by positivity
  rw [le_div_iff₀ h150] at hj1
  rw [div_le_iff₀ h150] at hj2
  rw [lt_div_iff₀ h150] at hwid
  have e : (2 : ℝ) ^ 150 = 2 ^ 149 * 2 := by rw [← pow_succ]
  rw [e] at hj1 hj2 hwid
  have g1 : (j : ℝ) ≤ ((lo : ℝ) + hi) * 2 ^ 149 + 1 / 2 := by linarith
  have g2 : ((lo : ℝ) + hi) * 2 ^ 149 + 1 / 2 < j + 1 := by linarith
  have hcast : (((lo + hi) * 2 ^ 149 + 1 / 2 : ℚ) : ℝ) = ((lo : ℝ) + hi) * 2 ^ 149 + 1 / 2 := by
    rw [Rat.cast_add, Rat.cast_mul, Rat.cast_add, Rat.cast_pow, Rat.cast_div, Rat.cast_ofNat, Rat.cast_one]
  rw [← hcast] at g1 g2
  generalize ((lo + hi) * 2 ^ 149 + 1 / 2 : ℚ) = x at g1 g2 ⊢
  exact ⟨by exact_mod_cast g1, by exact_mod_cast g2⟩

theorem cast_boundary (j : ℤ) : ((mkRat j (2 ^ 150) : ℚ) : ℝ) = j / 2 ^ 150 := by
  rw [Rat.mkRat_eq_div, Rat.cast_div, Rat.cast_intCast, Rat.cast_natCast, Nat.cast_pow, Nat.cast_ofNat]

/-- Between bounds that are close, rationals on one side of the boundary round alike. -/
theorem rounds_alike {lo hi m : ℚ} {j : ℤ} (hwid : (hi : ℝ) - lo < 1 / 2 ^ 150)
    (bound : ∀ x : ℝ, (lo : ℝ) ≤ x → x ≤ hi → |x| < 2 ^ 127) (hm : (m : ℝ) = j / 2 ^ 150) (h1 : (lo : ℝ) ≤ m)
    (h2 : (m : ℝ) ≤ hi) {c d : ℚ} (hc : (lo : ℝ) ≤ c) (hcd : c ≤ d) (hd : (d : ℝ) ≤ hi) (hor : m < c ∨ d < m) :
    rnd32Rat c = rnd32Rat d := by
  by_contra hcon
  have hcd' : (c : ℝ) ≤ d := by exact_mod_cast hcd
  obtain ⟨i, hi1, hi2⟩ := boundary_between hcd hcon (bound _ hc (hcd'.trans hd)) (bound _ (hc.trans hcd') hd)
  have h150 : (0 : ℝ) < 2 ^ 150 := by positivity
  have hij : |(i : ℝ) / 2 ^ 150 - m| < 1 / 2 ^ 150 := by
    rw [abs_lt]
    constructor <;> linarith
  rw [hm, ← sub_div, abs_div, abs_of_pos h150, div_lt_div_iff_of_pos_right h150] at hij
  have hieq : i = j := by
    have : |i - j| < 1 := by exact_mod_cast hij
    exact sub_eq_zero.mp (Int.abs_lt_one_iff.mp this)
  rw [hieq, ← hm] at hi1 hi2
  rcases hor with h | h
  · exact absurd (by exact_mod_cast hi1) (not_le.mpr h)
  · exact absurd (by exact_mod_cast hi2) (not_le.mpr h)

/-- The last stage of `rnd32`: the exact sign on the two sides of the boundary. -/
theorem rnd32_at_boundary {a : RNum} {lo hi m : ℚ} {j : ℤ} (ha : |a.value| < 2 ^ 126)
    (hwid : (hi : ℝ) - lo < 1 / 2 ^ 150)
    (bound : ∀ x : ℝ, (lo : ℝ) ≤ x → x ≤ hi → |x| < 2 ^ 127) (hm : (m : ℝ) = j / 2 ^ 150) (h1 : (lo : ℝ) ≤ m)
    (h2 : (m : ℝ) ≤ hi) (l1 : (lo : ℝ) ≤ a.value) (u1 : a.value ≤ hi) :
    NearestEven (bySide (sign (sub a (ofRat m))) (rnd32Rat lo) (rnd32Rat m) (rnd32Rat hi)) a.value := by
  have hs := sign_spec (sub a (ofRat m))
  rw [value_sub, value_ofRat] at hs
  generalize sign (sub a (ofRat m)) = o at hs
  unfold bySide
  split
  · have hlt : a.value < m := by linarith [hs.1.mp rfl]
    obtain ⟨c, hc1, hc2⟩ := exists_rat_btwn hlt
    have hc2' : c < m := by exact_mod_cast hc2
    have := rounds_alike hwid bound hm h1 h2 le_rfl (by exact_mod_cast l1.trans hc1.le) (by linarith) (.inr hc2')
    exact nearest_between this l1 hc1.le ha
  · have heq : a.value = m := by linarith [hs.2.1.mp rfl]
    rw [heq]
    exact rnd32Rat_nearest m (bound _ h1 h2)
  · have hlt : (m : ℝ) < a.value := by linarith [hs.2.2.mp rfl]
    obtain ⟨c, hc1, hc2⟩ := exists_rat_btwn hlt
    have hc1' : m < c := by exact_mod_cast hc1
    have := rounds_alike hwid bound hm h1 h2 (by linarith) (by exact_mod_cast hc2.le.trans u1) le_rfl (.inl hc1')
    rw [← this]
    exact nearest_between this hc2.le u1 ha

theorem rnd32Between_some {lo hi : ℚ} {w : Word} (h : rnd32Between lo hi = some w) :
    rnd32Rat lo = rnd32Rat hi ∧ w = rnd32Rat lo := by
  unfold rnd32Between at h
  split at h
  · exact ⟨by assumption, by simpa using h.symm⟩
  · cases h

theorem rnd32Between_none {lo hi : ℚ} (h : rnd32Between lo hi = none) : rnd32Rat lo ≠ rnd32Rat hi := by
  intro hc
  simp [rnd32Between, hc] at h

/-- The stages of `rnd32Bounds`. -/
theorem rnd32Bounds_stages (a : RNum) :
    (∃ p, 16 ≤ p ∧ rnd32Between (bounds p a).1 (bounds p a).2 = some (rnd32Bounds a)) ∨
      (rnd32Between (bounds (tieBits a) a).1 (bounds (tieBits a) a).2 = none ∧
        rnd32Bounds a = rnd32Near (bounds (tieBits a) a) a) := by
  have key : ∀ (x y : Option Word) (z : Word),
      x = some (x.getD (y.getD z)) ∨ y = some (x.getD (y.getD z)) ∨ (y = none ∧ x.getD (y.getD z) = z) := by
    rintro (_ | x) (_ | y) z <;> simp
  rcases key (rnd32Between (bounds 64 a).1 (bounds 64 a).2)
    (rnd32Between (bounds (tieBits a) a).1 (bounds (tieBits a) a).2) (rnd32Near (bounds (tieBits a) a) a) with h | h | h
  · exact .inl ⟨64, by norm_num, h⟩
  · exact .inl ⟨tieBits a, by unfold tieBits; omega, h⟩
  · exact .inr h

theorem rnd32_eq (a : RNum) : rnd32 a = (match toRat? a with
    | some r => rnd32Rat r
    | none => rnd32Bounds a) := rfl

/-- `rnd32` gives the nearest element, ties to even. -/
theorem rnd32_nearest (a : RNum) (ha : |a.value| < 2 ^ 126) : NearestEven a.rnd32 a.value := by
  have h127 : (2 : ℝ) ^ 126 + 1 ≤ 2 ^ 127 := by norm_num
  rw [rnd32_eq]
  cases hr : toRat? a with
  | some r =>
    rw [toRat_value hr] at ha ⊢
    exact rnd32Rat_nearest r (by linarith)
  | none =>
    simp only
    rcases rnd32Bounds_stages a with ⟨p, hp, he⟩ | ⟨hnone, he⟩
    · obtain ⟨l0, u0, -⟩ := bounds_spec p hp a
      obtain ⟨heq, he⟩ := rnd32Between_some he
      rw [he]
      exact nearest_between heq l0 u0 ha
    · rw [he, rnd32Near]
      clear he
      obtain ⟨l1, u1, -⟩ := bounds_spec (tieBits a) (by unfold tieBits; omega) a
      have hwid := bounds_tieBits a
      generalize bounds (tieBits a) a = b at *
      have hsmall : (1 : ℝ) / 2 ^ 150 ≤ 1 := by
        rw [div_le_one (by positivity)]
        exact one_le_pow₀ (by norm_num)
      have ha' := abs_lt.mp ha
      have bound : ∀ x : ℝ, (b.1 : ℝ) ≤ x → x ≤ b.2 → |x| < 2 ^ 127 := by
        intro x hx hx'
        rw [abs_lt]
        constructor <;> linarith
      have hlh : b.1 ≤ b.2 := by exact_mod_cast l1.trans u1
      obtain ⟨j, hj1, hj2⟩ := boundary_between hlh (rnd32Between_none hnone)
        (bound _ le_rfl (by exact_mod_cast hlh)) (bound _ (by exact_mod_cast hlh) le_rfl)
      have hm : (boundary b : ℝ) = j / 2 ^ 150 := by
        rw [boundary, floor_boundary hwid hj1 hj2, cast_boundary]
      rw [← hm] at hj1 hj2
      exact rnd32_at_boundary ha hwid bound hm hj1 hj2 l1 u1

end RNum

end Sys2Proof
end

