-- ==== Sys2Proof/Machine/Assembler.lean ====
section
/-! DEFINITION. The assembler syntax and the pseudo-instructions (`30_encoding.md` R107, R108). A line gives the
instructions of the block it stands for; a `HOST` line is a host action and no operation. -/

namespace Sys2Proof.Asm

open Sys2Proof.Machine

/-! ## Numbers -/

/-- The value of a digit in base `base`, 10 or 16; hexadecimal letters in either case (log entry 17). -/
def digitOf (base : Nat) (c : Char) : Option Nat :=
  let v : Option Nat :=
    if '0' ≤ c ∧ c ≤ '9' then some (c.toNat - 0x30)
    else if 'A' ≤ c ∧ c ≤ 'F' then some (c.toNat - 0x41 + 10)
    else if 'a' ≤ c ∧ c ≤ 'f' then some (c.toNat - 0x61 + 10)
    else none
  v.bind fun d => if d < base then some d else none

/-- A non-empty list of digits. -/
def digitsOf (base : Nat) (cs : List Char) : Option Nat :=
  if cs = [] then none
  else cs.foldl (fun acc c => acc.bind fun a => (digitOf base c).map fun d => a * base + d) (some 0)

/-- A decimal or `0x` hexadecimal unsigned integer (R107). -/
def natOf : List Char → Option Nat
  | '0' :: 'x' :: cs => digitsOf 16 cs
  | cs => digitsOf 10 cs

/-- An unsigned decimal real: digits, and perhaps a point and more digits (R107; that there is no exponent and no bare
point is log entry 17). -/
def unsignedReal (cs : List Char) : Option ℚ :=
  let whole := cs.takeWhile (· ≠ '.')
  match cs.dropWhile (· ≠ '.') with
  | [] => (digitsOf 10 whole).map fun a => (a : ℚ)
  | _ :: frac =>
    (digitsOf 10 whole).bind fun a => (digitsOf 10 frac).map fun b => mkRat (a * 10 ^ frac.length + b : Nat) (10 ^ frac.length)

/-- A decimal real, perhaps with a minus sign (R107, log entry 17). -/
def realOf : List Char → Option ℚ
  | '-' :: cs => (unsignedReal cs).map fun r => -r
  | cs => unsignedReal cs

/-- A 32-bit immediate; a larger number is rejected (log entry 17). -/
def imm32 (v : Nat) : Option Word := if v < 2 ^ 32 then some (BitVec.ofNat 32 v) else none

/-- The binary32 pattern of a real that is exactly representable; any other real is rejected (R107). -/
def binary32Of (r : ℚ) : Option Word :=
  let w := rnd32Rat r
  if isFinite32 w ∧ rat32 w = r then some w else none

/-! ## Pseudo-instructions (R108) -/

/-- A pseudo-instruction. -/
inductive Pseudo where
  | setup (fs f0 wpm n : Nat) (theta : ℚ)
  | setupDefault
  | loopback
  | framecheck
  deriving DecidableEq, Repr

/-- `SETUP fs, f0, wpm, n, theta`; rejected for `wpm`, `n` or `fs` = 0, and for values that do not fit their
immediates (R107, R108). -/
def expandSetup (fs f0 wpm n : Nat) (theta : ℚ) : Option (List Instr) :=
  if fs = 0 ∨ wpm = 0 ∨ n = 0 then none
  else do
    let bpu ← hostBpu fs wpm n
    let a ← imm32 fs
    let b ← imm32 f0
    let c ← imm32 wpm
    let d ← imm32 n
    let e ← binary32Of theta
    let f ← imm32 bpu
    some [.cfgw 0 a, .cfgw 1 b, .cfgw 2 c, .cfgw 3 d, .cfgw 4 e, .cfgw 5 f, .init]

/-- The expansion of a pseudo-instruction (R108). -/
def expand : Pseudo → Option (List Instr)
  | .setup fs f0 wpm n theta => expandSetup fs f0 wpm n theta
  | .setupDefault => expandSetup 44100 750 20 882 0
  | .loopback => some [.render, .decode]
  | .framecheck => some [.frame, .deframe]

/-! ## Lines (R107) -/

/-- The parts of `cs` between the characters `sep`. -/
def splitAtChar (sep : Char) : List Char → List (List Char)
  | [] => [[]]
  | c :: cs =>
    if c = sep then [] :: splitAtChar sep cs
    else match splitAtChar sep cs with
      | [] => [[c]]
      | p :: ps => (c :: p) :: ps

/-- A blank: a space or a tab (log entry 17). -/
def isBlank (c : Char) : Bool := decide (c = ' ') || decide (c = '\t')

/-- A line up to its comment. -/
def uncomment (cs : List Char) : List Char := cs.takeWhile (· ≠ ';')

/-- `cs` without the blanks at its two ends; blanks inside stay. -/
def trimBlanks (cs : List Char) : List Char :=
  ((cs.dropWhile isBlank).reverse.dropWhile isBlank).reverse

/-- The mnemonic and the operands of a line: the first word, then the rest split at commas. R107 does not speak of
blanks; the model's choice (DESIGN CHOICE, log entry 17) is that blanks before the mnemonic and around an operand mean
nothing, and that a blank inside an operand stays in it, so that the operand is no number and no register name and the line
is rejected. -/
def fieldsOf (cs : List Char) : List Char × List (List Char) :=
  let cs := trimBlanks (uncomment cs)
  let rest := trimBlanks (cs.dropWhile fun c => !isBlank c)
  (cs.takeWhile fun c => !isBlank c, if rest = [] then [] else (splitAtChar ',' rest).map trimBlanks)

/-- The selector of a register name (R102, R107). -/
def selectorOf : List Char → Option (BitVec 8)
  | ['F', 'S'] => some 0
  | ['F', '0'] => some 1
  | ['W', 'P', 'M'] => some 2
  | ['N'] => some 3
  | ['T', 'H', 'E', 'T', 'A'] => some 4
  | ['B', 'P', 'U'] => some 5
  | _ => none

/-- The immediate of a `CFGW`: a decimal real for `THETA` (no hexadecimal, log entry 17), an unsigned integer for the others
(R107). -/
def configImm (sel : BitVec 8) (v : List Char) : Option Word :=
  if sel = 4 then (realOf v).bind binary32Of else (natOf v).bind imm32

/-- The instructions a mnemonic with its operands stands for; `none` where the assembler rejects the line. -/
def assembleFields : List Char → List (List Char) → Option (List Instr)
  | [], [] => some []
  | ['C', 'F', 'G', 'W'], [r, v] =>
    (selectorOf r).bind fun sel => (configImm sel v).map fun imm => [.cfgw sel imm]
  | ['G', 'Z', 'M', 'A', 'G'], [b] => ((natOf b).bind imm32).map fun imm => [.gzmag imm]
  | ['I', 'N', 'I', 'T'], [] => some [.init]
  | ['R', 'E', 'N', 'D', 'E', 'R'], [] => some [.render]
  | ['D', 'E', 'T', 'E', 'C', 'T'], [] => some [.detect]
  | ['D', 'E', 'M', 'O', 'D'], [] => some [.demod]
  | ['C', 'R', 'C', '3', '2'], [] => some [.crc32]
  | ['E', 'N', 'C', 'C', 'R', 'C'], [] => some [.enccrc]
  | ['F', 'R', 'A', 'M', 'E'], [] => some [.frame]
  | ['D', 'E', 'F', 'R', 'A', 'M', 'E'], [] => some [.deframe]
  | ['D', 'E', 'C', 'O', 'D', 'E'], [] => some [.decode]
  | ['S', 'E', 'T', 'U', 'P'], [fs, f0, wpm, n, theta] => do
    let a ← natOf fs
    let b ← natOf f0
    let c ← natOf wpm
    let d ← natOf n
    let e ← realOf theta
    expandSetup a b c d e
  | ['S', 'E', 'T', 'U', 'P', '.', 'D', 'E', 'F', 'A', 'U', 'L', 'T'], [] => expand .setupDefault
  | ['L', 'O', 'O', 'P', 'B', 'A', 'C', 'K'], [] => expand .loopback
  | ['F', 'R', 'A', 'M', 'E', 'C', 'H', 'K'], [] => expand .framecheck
  | _, _ => none

/-- The instructions of one line. -/
def assemble (line : List Char) : Option (List Instr) :=
  assembleFields (fieldsOf line).1 (fieldsOf line).2

/-- The command words of one line. -/
def commandWords (line : List Char) : Option (List CmdWord) :=
  (assemble line).map fun is => is.map encode

end Sys2Proof.Asm
end

