-- ==== Sys2Proof/Tests/Slice0.lean ====
section
/-! SUPPORT. Tests: the smoke test of `WellFormed`, words written out from the opcode map, at most two vectors of
`95_test_vectors.md` for each instruction, and for every obligation with hypotheses a state that meets them. -/

namespace Sys2Proof.Tests

open Sys2Proof Sys2Proof.Machine

set_option Elab.async false

/-! ## Helpers -/

/-- One field of the next state. -/
def get {α : Type} (o : Result) (f : State → α) : Option α :=
  match o with
  | .next s => some (f s)
  | .fault _ => none
  | .refused _ => none

/-- Why the operation is refused, if it is. -/
def refusalOf (o : Result) : Option Refusal :=
  match o with
  | .next _ => none
  | .fault _ => none
  | .refused r => some r

/-- Does the operation answer a next state. -/
def completes (o : Result) : Bool := (get o fun _ => ()).isSome

/-- The configuration of vector V2 and program P2 before `INIT`, with `THETA` = 1. -/
def unbuilt : State :=
  { State.reset with fs := 4, f0 := 1, wpm := 1, n := 4, theta := RNum.ofRat 1, bpu := 1 }

/-- The block after `INIT` in that configuration. -/
def small : State := constructed unbuilt

/-- The ASCII characters of a string, as a text. -/
def chars (s : String) : List Byte := s.toList.map fun c => BitVec.ofNat 8 c.toNat

/-- `PAY` loaded. -/
def withPay (xs : List Byte) (s : State) : State := { s with pay := store ⟨[], 0⟩ xs, payLen := xs.length }

/-- `TXT` loaded. -/
def withTxt (xs : List Byte) (s : State) : State := { s with txt := store ⟨[], 0⟩ xs, txtLen := xs.length }

/-- `PCM` loaded. -/
def withPcm (xs : List Word) (s : State) : State := { s with pcm := store ⟨[], 0⟩ xs, pcmLen := xs.length }

/-- `BITS` loaded. -/
def withBits (xs : List Bool) (s : State) : State := { s with bits := store ⟨[], 0⟩ xs, bitsLen := xs.length }

/-- `TIM` loaded. -/
def withTim (xs : List Byte) (s : State) : State := { s with tim := store ⟨[], 0⟩ xs, timLen := xs.length }

/-- `count` tone bits of one value. -/
def run (b : Bool) (count : Nat) : List Bool := List.replicate count b

/-- Samples of vector V55: one period of tone of amplitude 1, one block of silence, one period, two samples over. -/
def v55 : List Word := [0, 0x3F800000, 0, 0xBF800000, 0, 0, 0, 0, 0, 0x3F800000, 0, 0xBF800000, 0, 0]

/-! ## WellFormed and decoding -/

/-- R105: selector 6 is the one ill-formed kind of instruction. -/
theorem test_wellFormed_refuses_selector_6 : ¬WellFormed (.cfgw 6 0) := by decide

theorem test_wellFormed_admits_selector_5 : WellFormed (.cfgw 5 0) := by decide

/-- R100, R104: op, sel, zero and imm written out bit by bit, `CFGW BPU, 3`. -/
theorem test_decode_cfgw :
    decode 0b0000000100000101000000000000000000000000000000000000000000000011 = some (.cfgw 5 3) := by decide

theorem test_decode_init :
    decode 0b0000001000000000000000000000000000000000000000000000000000000000 = some .init := by decide

theorem test_decode_render :
    decode 0b0001000000000000000000000000000000000000000000000000000000000000 = some .render := by decide

theorem test_decode_gzmag :
    decode 0b0010000000000000000000000000000010000000000000000000000000000001 = some (.gzmag 0x80000001) := by decide

theorem test_decode_detect :
    decode 0b0010000100000000000000000000000000000000000000000000000000000000 = some .detect := by decide

theorem test_decode_demod :
    decode 0b0011000000000000000000000000000000000000000000000000000000000000 = some .demod := by decide

theorem test_decode_crc32 :
    decode 0b0100000000000000000000000000000000000000000000000000000000000000 = some .crc32 := by decide

theorem test_decode_enccrc :
    decode 0b0100000100000000000000000000000000000000000000000000000000000000 = some .enccrc := by decide

theorem test_decode_frame :
    decode 0b0100001000000000000000000000000000000000000000000000000000000000 = some .frame := by decide

theorem test_decode_deframe :
    decode 0b0100001100000000000000000000000000000000000000000000000000000000 = some .deframe := by decide

theorem test_decode_decode :
    decode 0b0101000000000000000000000000000000000000000000000000000000000000 = some .decode := by decide

/-- Program P6 and R105: reserved words. -/
theorem test_decode_reserved :
    decode 0x6000000000000000 = none ∧ decode 0x1000000000000001 = none ∧ decode 0x0106000000000000 = none ∧
      decode 0x2001000000000000 = none ∧ decode 0x2000800000000000 = none := by decide

/-- R107, R108: two lines of program P2, and the reset configuration as `SETUP.DEFAULT`. -/
theorem test_assembler :
    Asm.commandWords "  CFGW THETA, 1.0 ; one".toList = some [0x010400003F800000] ∧
      Asm.commandWords "GZMAG 0x2".toList = some [0x2000000000000002] ∧
      (Asm.expand .setupDefault).map List.length = some 7 := by decide +kernel

/-- R107: an operand is one integer or one name, and commas separate operands; blanks around one are free (log entry 17). -/
theorem test_assembler_blanks :
    Asm.commandWords "GZMAG 1 2".toList = none ∧
      Asm.commandWords "CFGW N 882".toList = none ∧
      Asm.commandWords " CFGW\tN , 882 ".toList = some [0x0103000000000372] := by decide +kernel

/-! ## Steps -/

/-- The host's command is the very next step, from reset: program P1's first line. -/
theorem test_step_runs_fetch_word :
    get (step (State.reset.withFetchWord 64 0x0200000000000000)) (fun t => (t.k, t.spu, t.dotDash, t.wordGap, status t)) =
      some (15, 2646, 6, 15, 0x00000001) := by decide +kernel

/-- R48: `STATUS` after reset is 0, and a read changes nothing. -/
theorem test_step_read :
    status State.reset = 0 ∧
      get (step { State.reset with host := [.read .status] }) (fun t => decide (t = State.reset)) = some true := by
  decide +kernel

/-- V9, V10: an infinite threshold is refused; −0.0 gives the real 0. -/
theorem test_cfgw_theta :
    refusalOf (exec (.cfgw 4 0x7F800000) small) = some .nonFiniteThreshold ∧
      get (exec (.cfgw 4 0x80000000) small) (fun t => (t.theta, t.ready)) = some (RNum.zero, false) := by
  decide +kernel

/-- V11: writing the value that is there already still clears `READY`. -/
theorem test_cfgw_n : get (exec (.cfgw 3 4) small) (fun t => (t.n, t.ready)) = some (4, false) := by decide +kernel

/-- V2, and the 42 entries of V1. -/
theorem test_init_small :
    get (exec .init unbuilt) (fun t => ((t.k, t.c, t.omega, t.spu), t.dotDash, t.wordGap, t.rtab.length, t.ready)) =
      some ((1, RNum.zero, .turns 1 4, 4), 2, 5, 42, true) := by decide +kernel

/-- V4: `K` = 1/2 rounds up, and `C` = −2. -/
theorem test_init_tie :
    get (exec .init { unbuilt with n := 2 }) (fun t => (t.k, t.c)) = some (1, RNum.ofRat (-2)) := by decide +kernel

/-- V26: `TIM` = `+-+` at four samples for each unit. -/
theorem test_render_small :
    get (exec .render (withTim [1, 0xFF, 1] small)) (fun t => (contents t.pcm t.pcmLen, t.nidx)) =
      some ([0, 0x3F4CCCCD, 0, 0xBF4CCCCD, 0, 0, 0, 0, 0, 0x3F4CCCCD, 0, 0xBF4CCCCD], 12) := by decide +kernel

/-- Table of 2.2: the tone sample at n = 1, 2, 14, 30, 147 and 2645 in the reset configuration. -/
theorem test_tone_default :
    [1, 2, 14, 30, 147, 2645].map (tone NumOps.exact (.turns 750 44100)) =
      [0x3DAEBDC9, 0x3E2DBEA2, 0x3F4C3A33, 0xBD51F1FF, 0x00000000, 0xBDAEBDC9] := by decide +kernel

/-- V30: one period of tone. -/
theorem test_gzmag_tone :
    get (exec (.gzmag 0) (withPcm v55 small)) (fun t => (t.s1, t.s2, t.mag)) =
      some (RNum.ofRat (-2), RNum.zero, RNum.ofRat 4) := by decide +kernel

/-- V44: a block that is not wholly in the buffer. -/
theorem test_gzmag_out_of_range : 
    refusalOf (exec (.gzmag 3) (withPcm v55 small)) = some .blockOutOfRange := by decide +kernel

/-- V55: powers, thresholds and bits. -/
theorem test_detect_explicit :
    get (exec .detect (withPcm v55 { small with theta := RNum.ofRat 2 }))
      (fun t => (contents t.mags t.bitsLen, t.thon, t.thoff, contents t.bits t.bitsLen, t.st)) =
      some ([RNum.ofRat 4, RNum.zero, RNum.ofRat 4], RNum.ofRat 2, RNum.ofRat (7 / 5), [true, false, true], true) := by
  decide +kernel

/-- V58: a negative threshold selects auto; three times the median is above every power. -/
theorem test_detect_auto :
    get (exec .detect (withPcm v55 { small with theta := RNum.ofRat (-1) }))
      (fun t => (t.thon, contents t.bits t.bitsLen)) = some (RNum.ofRat 12, [false, false, false]) := by decide +kernel

/-- V50: on at exactly `THON`, off below `THOFF`, on again. -/
theorem test_hysteresis_scan :
    scanBits (RNum.ofRat 10) (RNum.ofRat 7) false
      ([0, 999 / 100, 10, 8, 7, 699 / 100, 9, 10].map RNum.ofRat) =
      [false, false, true, true, true, false, false, true] := by decide +kernel

/-- V84: a leading gap, an unknown pattern, a word gap. -/
theorem test_demod_unknown_pattern :
    demodText 6 15 (buildRtab Params.default)
      (rle (run false 9 ++ run true 3 ++ run false 3 ++ run true 9 ++ run false 9 ++
        (List.replicate 6 (run true 3 ++ run false 3)).flatten ++ run true 3 ++ run false 21 ++ run true 9)) =
      chars "A? T" := by decide +kernel

/-- V81 at one block for each unit: no leading space, the trailing space kept. -/
theorem test_demod_spaces :
    get (exec .demod (withBits (run false 7 ++ run true 1 ++ run false 7) small))
      (fun t => (contents t.txt t.txtLen, t.runsLen)) = some (chars "E ", 3) := by decide +kernel

/-- Table of 2.6: the CRC of "BTC". -/
theorem test_crc32_btc : get (exec .crc32 (withPay (chars "BTC") small)) (fun t => t.crc) = some 0xBD5D08C6 := by
  decide +kernel

/-- Table of 2.6: the text of that CRC, and of the CRC of "A", which has a letter and a digit in every place but one. -/
theorem test_enccrc :
    get (exec .enccrc { small with crc := 0xBD5D08C6 }) (fun t => t.crc4.toList) = some (chars "08C6") ∧
      get (exec .enccrc { small with crc := 0xD3D99E8B }) (fun t => t.crc4.toList) = some (chars "9E8B") := by
  decide +kernel

/-- Table of 2.6. -/
theorem test_frame_btc :
    get (exec .frame (withPay (chars "BTC") small)) (fun t => (contents t.txt t.txtLen, t.crc)) =
      some (chars "KKK BTC08C6 AR", 0xBD5D08C6) := by decide +kernel

/-- V100. -/
theorem test_deframe_valid :
    get (exec .deframe (withTxt (chars "KKK BTC08C6 AR") small))
      (fun t => (t.valid, t.err, contents t.pay t.payLen, errorString false t)) =
      some (true, .none, chars "BTC", "") := by decide +kernel

/-- V112, with the string of R302. -/
theorem test_deframe_mismatch :
    get (exec .deframe (withTxt (chars "KKK BTD08C6 AR") small))
      (fun t => (t.valid, contents t.pay t.payLen, errorString false t)) =
      some (false, chars "BTD", "CRC mismatch: expected 9D65, got 08C6") := by decide +kernel

/-- V120: the empty capture. -/
theorem test_decode_empty :
    get (exec .decode small) (fun t => (status t, errorString true t)) =
      some (0x00000111, "Goertzel: no blocks to analyze") := by decide +kernel

/-- The end of program P4 in small: a text of one character is too short. -/
theorem test_decode_short :
    get (exec .decode (withPcm (v55.take 4) small)) (fun t => (status t, contents t.txt t.txtLen, errorString true t)) =
      some (0x00000339, chars "E", "Deframe: frame too short") := by decide +kernel

/-! ## Witnesses: for each obligation with hypotheses, a state and operands that meet them

`witness_X` is about `Obligations.X`. -/

/-- The derived registers of `small` are those of its configuration, whatever the buffers hold. -/
theorem small_constructed {t : State} (h : t.fs = 4 ∧ t.f0 = 1 ∧ t.wpm = 1 ∧ t.n = 4 ∧ t.bpu = 1)
    (hp : t.params = Params.default)
    (hd : t.k = 1 ∧ t.c = RNum.zero ∧ t.omega = .turns 1 4 ∧ t.spu = 4 ∧ t.dotDash = 2 ∧ t.wordGap = 5)
    (hr : t.rtab = small.rtab) : Constructed t := by
  obtain ⟨h1, h2, h3, h4, h5⟩ := h
  obtain ⟨d1, d2, d3, d4, d5, d6⟩ := hd
  have hk : initK t = 1 := by
    simp only [initK, h1, h2, h4]
    decide
  refine ⟨?_, ?_, ?_, ?_, ?_, ?_, ?_, ?_, ?_, ?_⟩
  · rw [h1]; decide
  · rw [h3]; decide
  · rw [hp]; decide +kernel
  · rw [h1, h2, d3, hp]; rfl
  · rw [h1, h3, d4]; rfl
  · rw [h5, d5]; rfl
  · rw [h5, d6]; rfl
  · rw [hk, d1]
  · intro _
    rw [hk, d2, h4, hp]
    decide +kernel
  · rw [hr, hp]; rfl

/-- The hexadecimal digits are supported characters with a pattern. -/
theorem default_keyable : CrcTextKeyable Params.default := by
  have digit : ∀ d : BitVec 4, hexDigit d ∈ supportedChars ∧ (Params.default.pattern (hexDigit d)).isSome = true := by
    decide +kernel
  intro c x hx
  rw [show encodeCrc Params.default c = hex4 c from rfl] at hx
  simp only [hex4, Quad.toList, List.mem_cons, List.not_mem_nil, or_false] at hx
  rcases hx with rfl | rfl | rfl | rfl <;> exact digit _

/-- The invariant for the states of this file that are `small` with other buffers. -/
theorem small_inv {t : State} (h : t.fs = 4 ∧ t.f0 = 1 ∧ t.wpm = 1 ∧ t.n = 4 ∧ t.bpu = 1)
    (hp : t.params = Params.default)
    (hd : t.k = 1 ∧ t.c = RNum.zero ∧ t.omega = .turns 1 4 ∧ t.spu = 4 ∧ t.dotDash = 2 ∧ t.wordGap = 5)
    (hr : t.rtab = small.rtab) (hm : memWf t = true)
    (hx : t.busy = false ∧ t.pat = [] ∧ t.stage = .none ∧ t.err = .none)
    (hi : (indexRegisters t).all (fun v => decide (v < 2 ^ 64)) = true) : Inv t := by
  obtain ⟨x1, x2, x3, x4⟩ := hx
  refine ⟨hm, by rw [hp]; decide +kernel, hp ▸ default_keyable, x1, x2, ?_, by rw [x3]; decide, by rw [x4]; decide, fun _ => x4,
    fun _ => small_constructed h hp hd hr⟩
  intro v hv
  rw [hp]
  exact of_decide_eq_true (List.all_eq_true.mp hi v hv)

theorem inv_small : Inv small :=
  small_inv (by decide) rfl (by decide +kernel) rfl (by decide) (by decide) (by decide +kernel)

/-- `v55` at a positive threshold: three blocks, tone, silence, tone. -/
def toned : State := withPcm v55 small

theorem inv_toned : Inv toned :=
  small_inv (by decide) rfl (by decide +kernel) rfl (by decide +kernel) (by decide) (by decide +kernel)

/-- The samples of `toned` are finite. -/
theorem toned_finite : ∀ i, i < 14 → isFinite32 (readCell i toned.pcm) = true := by decide +kernel

/-! ### Command words, steps, the host -/

theorem witness_EncodeThenDecodeReturnsInstruction : WellFormed (.cfgw 5 0xFFFFFFFF) ∧ WellFormed (.cfgw 0 0) := by decide

theorem witness_DecodeThenEncodeReturnsWord : decode 0x01050000FFFFFFFF = some (.cfgw 5 0xFFFFFFFF) := by decide

/-- One word on each side of every bound of R105, and a state with a reserved word next. -/
theorem witness_LegalWordsExactlyByFields :
    decode 0x0105000000000000 ≠ none ∧ decode 0x0106000000000000 = none ∧ decode 0x0100000100000000 = none ∧
      decode 0x1001000000000000 = none ∧ decode 0x2100000000000001 = none ∧ decode 0x5100000000000000 = none ∧
      State.reset.busy = false := by decide

theorem witness_StepRunsDecodedCommand :
    decode 0x2000000000000002 = some (.gzmag 2) ∧ (issue 0x2000000000000002 toned).busy = false ∧
      (issue 0x2000000000000002 toned).host = [.command 0x2000000000000002] := by decide

/-- The last element of each space and the largest length; below a written length an element that is determined. -/
theorem witness_HostLoadsAreSeenByReads :
    memWf small = true ∧ small.busy = false ∧ 2 ^ 64 - 2 < small.params.timMax ∧ 2 ^ 64 - 2 < small.params.pcmMax ∧
      2 ^ 64 - 2 < small.params.bitsMax ∧ 2 ^ 64 - 2 < small.params.txtMax ∧ 2 ^ 64 - 2 < small.params.payMax ∧
      2 ^ 64 - 1 < 2 ^ small.params.idxW ∧
      lookupCell 3 toned.pcm.cells ≠ none ∧ lookupCell 14 toned.pcm.cells = none := by decide +kernel

theorem witness_HostReadsChangeNothing :
    ({ small with host := [.read (.pcmAt 3)] } : State).busy = false ∧
      ({ small with host := [.read (.pcmAt 3)] } : State).host = .read (.pcmAt 3) :: [] := by decide

/-- Reset in the middle of an operation. -/
theorem witness_ResetGivesTableValues :
    ({ small with busy := true, host := [.reset, .command 0] } : State).host = .reset :: [.command 0] := by decide

theorem witness_EveryStepKeepsInvariant :
    Inv toned ∧ ∃ t, step toned = .next t := ⟨inv_toned, toned, rfl⟩

theorem witness_NoStepChangesParameters : ∃ t, step { small with host := [.reset] } = .next t := ⟨_, rfl⟩

/-- A state for every reason of R311. -/
theorem witness_RefusedOnlyForListedReasons :
    [refusalOf (exec (.cfgw 6 0) small), refusalOf (exec (.cfgw 4 0x7F800000) small), refusalOf (exec .crc32 State.reset),
      refusalOf (exec .init { unbuilt with fs := 0 }), refusalOf (exec .init { unbuilt with wpm := 0 })] =
      [some .reservedSelector, some .nonFiniteThreshold, some .notConstructed, some .zeroSampleRate, some .zeroWpm] ∧
    [refusalOf (exec .init { unbuilt with params := { Params.default with morse := [(0x41, [.dot]), (0x42, [.dot])] } }),
      refusalOf (exec (.gzmag 0) { small with n := 0 }), refusalOf (exec (.gzmag 3) toned),
      refusalOf (exec .detect (withPcm [0, 0, 0, 0x7F800000] small)),
      refusalOf (exec .crc32 { small with payLen := 2 ^ 64 }),
      refusalOf (exec .detect
        (withPcm [0, 0, 0, 0] { small with theta := RNum.zero, params := { Params.default with autoZero := .refuse } }))] =
      [some .ambiguousTable, some .zeroBlockSize, some .blockOutOfRange, some .nonFiniteSample, some .capacity,
        some .contested] ∧
    memWf toned = true := by decide +kernel

/-- A state for every operation that the capacity reason reaches. -/
theorem witness_RefusedOnlyForListedReasons_capacity :
    let chip := fun p : Params => ({ toned with params := p, timLen := 1, bitsLen := 3, bits := store ⟨[], 0⟩ [true, false, true] } : State)
    [refusalOf (exec .init { unbuilt with fs := 0xFFFFFFFF, params := { Params.default with idxW := 32 } }),
      refusalOf (exec .render (chip { Params.default with timMax := 0 })),
      refusalOf (exec (.gzmag 0) (chip { Params.default with pcmMax := 13 })),
      refusalOf (exec .detect (chip { Params.default with bitsMax := 2 })),
      refusalOf (exec .demod (chip { Params.default with txtMax := 0 })),
      refusalOf (exec .crc32 { small with payLen := 2 ^ 64 }), refusalOf (exec .frame { small with payLen := 2 ^ 64 }),
      refusalOf (exec .deframe { small with txtLen := 2 ^ 64 }),
      refusalOf (exec .decode (chip { Params.default with txtMax := 0 }))] =
      List.replicate 9 (some .capacity) := by decide +kernel

/-- Every instruction answers a next state: what the statements about `exec i s = .next t` for every `i` assume
(`ConfigurationAndDerivedImmutable`, `FlagsWrittenOnlyAsListed`, `SpacesWrittenOnlyAsListed`). -/
theorem witness_every_instruction_completes :
    [Instr.cfgw 5 3, .init, .render, .gzmag 2, .detect, .demod, .crc32, .enccrc, .frame, .deframe, .decode].all
      (fun i => completes (exec i (withTim [1] (withTxt (chars "KKK 0000 AR") (withBits [true] toned))))) = true := by
  decide +kernel

theorem witness_NothingRunsUntilInit :
    State.reset.ready = false ∧ get (exec .init State.reset) (fun t => t.ready) = some true ∧
      completes (exec (.cfgw 0 8000) small) = true := by decide +kernel

/-! ### CFGW, INIT -/

/-- The last finite pattern, the first infinite one, the first reserved selector. -/
theorem witness_CfgwWritesSelectedRegister :
    (0x7F7FFFFF : Word).extractLsb' 23 8 ≠ (0xFF : BitVec 8) ∧ (0x7F800000 : Word).extractLsb' 23 8 = (0xFF : BitVec 8) ∧
      5 < (6 : BitVec 8).toNat := by decide

/-- The last subnormal, the first and the last normal pattern. -/
theorem witness_Val32IsBinary32Value :
    [0x007FFFFF, 0x00800000, 0x7F7FFFFF, 0xFF7FFFFF].all
      (fun w : Word => decide (w.extractLsb' 23 8 ≠ (0xFF : BitVec 8))) = true ∧
      ((0x007FFFFF : Word).extractLsb' 23 8).toNat = 0 ∧ ((0x00800000 : Word).extractLsb' 23 8).toNat = 1 := by decide

/-- The default table is injective. -/
theorem default_injective : ∀ c ∈ supportedChars, ∀ d ∈ supportedChars,
    Params.default.pattern c = Params.default.pattern d → Params.default.pattern c ≠ none → c = d := by decide +kernel

/-- A completing `INIT` with `N` ≠ 0 and with `N` = 0; a table with two equal patterns; `WORD_GAP` = 5 × (2^32 − 1),
`SPU` = 6 × (2^32 − 1) / 5 and `K` = (2^32 − 1)^2 on a chip of `IDX_W` = 32. -/
theorem witness_InitConstructsOrRefuses :
    unbuilt.fs ≠ 0 ∧ unbuilt.wpm ≠ 0 ∧ unbuilt.n ≠ 0 ∧
      ⌊((unbuilt.n.toNat * unbuilt.f0.toNat : ℕ) : ℚ) / (unbuilt.fs.toNat : ℚ) + 1 / 2⌋ < (2 : ℤ) ^ unbuilt.params.idxW ∧
      ⌊((6 * unbuilt.fs.toNat : ℕ) : ℚ) / ((5 * unbuilt.wpm.toNat : ℕ) : ℚ)⌋ < (2 : ℤ) ^ unbuilt.params.idxW ∧
      5 * unbuilt.bpu.toNat < 2 ^ unbuilt.params.idxW ∧ completes (exec .init { unbuilt with n := 0 }) = true ∧
      refusalOf (exec .init { unbuilt with bpu := 0xFFFFFFFF, params := { Params.default with idxW := 32 } }) =
        some .capacity ∧
      2 ^ 32 ≤ 5 * (0xFFFFFFFF : Word).toNat ∧
      (2 : ℤ) ^ 32 ≤ ⌊((6 * (0xFFFFFFFF : Word).toNat : ℕ) : ℚ) / ((5 * (1 : Word).toNat : ℕ) : ℚ)⌋ ∧
      (2 : ℤ) ^ 32 ≤ ⌊(((0xFFFFFFFF : Word).toNat * (0xFFFFFFFF : Word).toNat : ℕ) : ℚ) / ((1 : Word).toNat : ℚ) + 1 / 2⌋ ∧
      ([(0x41, [.dot]), (0x42, [.dot])] : List (Byte × Pattern)).lookup 0x41 =
        ([(0x41, [.dot]), (0x42, [.dot])] : List (Byte × Pattern)).lookup 0x42 ∧
      (0x41 : Byte) ∈ supportedChars ∧ (0x42 : Byte) ∈ supportedChars := by decide +kernel

/-- `K`, `N` of each special value of R146: 0 of 4, 1 of 6, 1 of 4, 1 of 3, 1 of 2. -/
theorem witness_InitReferenceValues :
    unbuilt.params.numerics = .exactReal ∧
      get (exec .init { unbuilt with f0 := 0 }) (fun t => t.k) = some 0 ∧
      get (exec .init { unbuilt with fs := 6, n := 6 }) (fun t => t.k) = some 1 ∧
      get (exec .init unbuilt) (fun t => t.k) = some 1 ∧
      get (exec .init { unbuilt with fs := 3, n := 3 }) (fun t => t.k) = some 1 ∧
      get (exec .init { unbuilt with n := 2 }) (fun t => t.k) = some 1 := by decide +kernel

theorem witness_InitIsIdempotent :
    completes (exec .init unbuilt) = true ∧ unbuilt.n ≠ 0 ∧ completes (exec .enccrc small) = true := by decide +kernel

/-! ### RENDER -/

/-- One unit fits; 2^62 units of four samples do not, nor do 2^64 elements. -/
theorem witness_RenderWritesSamples :
    memWf (withTim [1] small) = true ∧ small.ready = true ∧ (withTim [1] small).timLen ≤ small.params.timMax ∧
      (withTim [1] small).timLen * small.spu ≤ small.params.pcmMax ∧ small.params.pcmMax < 2 ^ 62 * small.spu ∧
      small.params.timMax < 2 ^ 64 ∧ small.params.pcmMax < 2 ^ 64 ∧ small.params.payMax < 2 ^ 64 ∧
      small.params.txtMax < 2 ^ 64 ∧
      State.reset.ready = false ∧ 3 < (withTim [1] small).timLen * small.spu := by decide +kernel

/-- An angle, and the index 0 at which the sample is 0. -/
theorem witness_ToneIsRoundedSine :
    0 < 44100 ∧ (0.8 : ℝ) * Real.sin ((NumOps.exact.omega 750 44100).value * (0 : ℕ)) = 0 := by
  simp

theorem witness_PhaseStepIsBounded : 0 < 44100 := by decide

/-- Two states that agree on the inputs and differ elsewhere. -/
theorem witness_RenderDependsOnInputsOnly :
    memWf (withTim [1] small) = true ∧ memWf (withPcm v55 (withTim [1] small)) = true ∧
      completes (exec .render (withTim [1] small)) = true ∧
      ∀ i, i < 1 → readCell i (withTim [1] small).tim = readCell i (withPcm v55 (withTim [1] small)).tim := by
  decide +kernel

/-! ### GZMAG, DETECT -/

/-- Block 2 is the last that fits in `toned`; block 3 does not; a block with an infinity. -/
theorem witness_GzmagRunsRecurrence :
    memWf toned = true ∧ toned.ready = true ∧ toned.n ≠ 0 ∧ toned.pcmLen ≤ toned.params.pcmMax ∧
      ((2 : Word).toNat + 1) * toned.n.toNat ≤ toned.pcmLen ∧ toned.pcmLen < ((3 : Word).toNat + 1) * toned.n.toNat ∧
      (∀ i, i < 4 → isFinite32 (readCell (2 * 4 + i) toned.pcm) = true) ∧
      isFinite32 (readCell (0 * 4 + 3) (withPcm [0, 0, 0, 0x7F800000] small).pcm) = false ∧
      ({ toned with n := 0 } : State).n = 0 := by decide +kernel

theorem witness_PowerIsSquaredDftModulus :
    Inv toned ∧ toned.params.numerics = .exactReal ∧ toned.ready = true ∧ toned.n ≠ 0 ∧
      toned.pcmLen ≤ toned.params.pcmMax ∧ ((2 : Word).toNat + 1) * toned.n.toNat ≤ toned.pcmLen ∧
      ∀ i, i < 4 → isFinite32 (readCell (2 * 4 + i) toned.pcm) = true :=
  ⟨inv_toned, rfl, rfl, by decide, by decide, by decide, by decide +kernel⟩

/-- Each way of having no block: no sample, no block size, one sample less than a block. -/
theorem witness_DetectReturnsEmpty :
    small.ready = true ∧ small.pcmLen = 0 ∧ ({ toned with n := 0 } : State).n = 0 ∧
      (withPcm [0, 0, 0] small).pcmLen < (withPcm [0, 0, 0] small).n.toNat ∧
      (withPcm [0, 0, 0] small).pcmLen ≤ small.params.pcmMax := by decide

theorem toned_theta : 0 < toned.theta.value := by
  rw [show toned.theta = RNum.ofRat 1 from rfl, RNum.value_ofRat]
  norm_num

/-- The literal reading, and a positive threshold; three whole blocks. -/
theorem witness_DetectClassifiesBlocks :
    memWf toned = true ∧ toned.ready = true ∧ toned.n ≠ 0 ∧ toned.n.toNat ≤ toned.pcmLen ∧
      toned.pcmLen ≤ toned.params.pcmMax ∧ toned.pcmLen / toned.n.toNat ≤ toned.params.bitsMax ∧
      (∀ i, i < toned.pcmLen / toned.n.toNat * toned.n.toNat → isFinite32 (readCell i toned.pcm) = true) ∧
      toned.params.autoZero = .literal ∧ 0 < toned.theta.value ∧ 1 + 1 < toned.pcmLen / toned.n.toNat :=
  ⟨by decide +kernel, rfl, by decide, by decide, by decide, by decide, by decide +kernel, rfl, toned_theta, by decide⟩

/-- The auto threshold with a median that is not 0: the powers 4, 0, 4 of `v55`. -/
theorem witness_DetectClassifiesBlocks_auto :
    ({ toned with theta := RNum.zero } : State).theta.value ≤ 0 ∧
      (medianOf toned.params ((List.range 3).map fun b =>
        blockPower toned.params.ops toned.c ((List.range 4).map fun i => readCell (b * 4 + i) toned.pcm))).value ≠ 0 := by
  refine ⟨by simp, ?_⟩
  rw [show medianOf toned.params ((List.range 3).map fun b =>
    blockPower toned.params.ops toned.c ((List.range 4).map fun i => readCell (b * 4 + i) toned.pcm)) = RNum.ofRat 4 by
      decide +kernel, RNum.value_ofRat]
  norm_num

/-- A chip that refuses the contested band, with a block of silence and the auto threshold. -/
def refusing : State :=
  withPcm [0, 0, 0, 0] { small with theta := RNum.zero, params := { Params.default with autoZero := .refuse } }

/-- One block too many for `BITS`, a sample that is not finite, and the contested band. -/
theorem witness_DetectRefusesByRule :
    memWf toned = true ∧ toned.ready = true ∧ toned.n ≠ 0 ∧ toned.n.toNat ≤ toned.pcmLen ∧
      ({ toned with params := { Params.default with bitsMax := 2 } } : State).params.bitsMax <
        toned.pcmLen / toned.n.toNat ∧
      isFinite32 (readCell 3 (withPcm [0, 0, 0, 0x7F800000] small).pcm) = false ∧
      memWf refusing = true ∧ refusing.params.autoZero = .refuse ∧
      (∀ i, i < 4 → isFinite32 (readCell i refusing.pcm) = true) := by decide +kernel

theorem witness_DetectRefusesByRule_contested :
    refusing.theta.value ≤ 0 ∧
      (medianOf refusing.params ((List.range 1).map fun b =>
        blockPower refusing.params.ops refusing.c
          ((List.range 4).map fun i => readCell (b * 4 + i) refusing.pcm))).value = 0 := by
  refine ⟨by simp [refusing, withPcm], ?_⟩
  rw [show medianOf refusing.params ((List.range 1).map fun b =>
    blockPower refusing.params.ops refusing.c ((List.range 4).map fun i => readCell (b * 4 + i) refusing.pcm)) =
      RNum.zero by decide +kernel, RNum.value_zero]

/-- V50: a power at each side of each threshold 10 and 7. -/
theorem witness_HysteresisTransitionTable :
    (RNum.ofRat (699 / 100)).value < (RNum.ofRat 7).value ∧ (RNum.ofRat 7).value ≤ (RNum.ofRat 7).value ∧
      (RNum.ofRat 10).value ≤ (RNum.ofRat 10).value ∧ (RNum.ofRat (999 / 100)).value < (RNum.ofRat 10).value := by
  simp only [RNum.value_ofRat]
  norm_num

/-- V51, V52: all powers at `THON`, all in the dead band. -/
theorem witness_HysteresisMonotonicity :
    (RNum.ofRat 7).value ≤ (RNum.ofRat 10).value ∧
      (∀ m ∈ [RNum.ofRat 10, RNum.ofRat 10], (RNum.ofRat 10).value ≤ m.value) ∧
      (∀ m ∈ [RNum.ofRat 9, RNum.ofRat 9], (RNum.ofRat 7).value ≤ m.value ∧ m.value < (RNum.ofRat 10).value) := by
  simp only [RNum.value_ofRat, List.mem_cons, List.not_mem_nil, or_false, or_self, forall_eq]
  norm_num

/-- The three rules on [0, 0, 8, 8] (2.4): 8, 0 and 4; an odd count. -/
theorem witness_MedianFollowsRule :
    let mags := [0, 8, 0, 8].map RNum.ofRat
    mags ≠ [] ∧ medianOf Params.default mags = RNum.ofRat 8 ∧
      medianOf { Params.default with medianRule := .lower } mags = RNum.zero ∧
      medianOf { Params.default with medianRule := .mean } mags = RNum.ofRat 4 ∧
      ([3, 1, 2].map RNum.ofRat).length % 2 = 1 := by decide +kernel

/-- V57 in one block: silence, the auto threshold, the literal reading. -/
def contested : State := withPcm [0, 0, 0, 0] { small with theta := RNum.zero }

theorem witness_ContestedBandIsAllOnes :
    Inv contested ∧ contested.params.numerics = .exactReal ∧ contested.params.autoZero = .literal ∧
      contested.ready = true ∧ contested.n ≠ 0 ∧ contested.n.toNat ≤ contested.pcmLen ∧
      contested.pcmLen ≤ contested.params.pcmMax ∧ 4 / 4 ≤ contested.params.bitsMax ∧
      (∀ i, i < 4 → isFinite32 (readCell i contested.pcm) = true) ∧ contested.theta.value ≤ 0 ∧
      (medianOf contested.params ((List.range 1).map fun b =>
        blockPower contested.params.ops contested.c
          ((List.range 4).map fun i => readCell (b * 4 + i) contested.pcm))).value = 0 := by
  refine ⟨small_inv (by decide) rfl (by decide +kernel) rfl (by decide +kernel) (by decide) (by decide +kernel), rfl, rfl,
    rfl, by decide, by decide, by decide, by decide, by decide +kernel, by simp [contested, withPcm], ?_⟩
  rw [show medianOf contested.params ((List.range 1).map fun b =>
    blockPower contested.params.ops contested.c ((List.range 4).map fun i => readCell (b * 4 + i) contested.pcm)) =
      RNum.zero by decide +kernel, RNum.value_zero]

/-! ### DEMOD -/

/-- Tone bits that fit; one bit more than `BITS_MAX`; a text longer than `TXT_MAX`. -/
theorem witness_DemodWritesRunsAndText :
    let s := withBits [true, false, true] small
    memWf s = true ∧ s.ready = true ∧ s.bitsLen ≤ s.params.bitsMax ∧
      (demodText s.dotDash s.wordGap s.rtab (rle [true, false, true])).length ≤ s.params.txtMax ∧
      ({ s with params := { Params.default with bitsMax := 2 } } : State).params.bitsMax < s.bitsLen ∧
      0 < (demodText s.dotDash s.wordGap s.rtab (rle [true, false, true])).length := by decide +kernel

/-- ON runs on both sides of `DOT_DASH` = 6, gaps up to 5. -/
theorem witness_DemodReadsOneCharacter :
    (∀ m ∈ [(5, 1), (6, 5)], 0 < m.1 ∧ 0 < m.2 ∧ m.2 < 6) ∧ 0 < 1 := by decide

/-- Gaps at `DOT_DASH` and at `WORD_GAP`. -/
theorem witness_DemodDividesAtGaps : 6 ≤ 15 ∧ 0 < 6 ∧ 6 ≤ 6 ∧ ¬15 ≤ 6 ∧ 15 ≤ 15 := by decide

theorem witness_DemodOutputAlphabet :
    Inv (withBits [true] small) ∧ get (exec .demod (withBits [true] small)) (fun t => t.txtLen) = some 1 :=
  ⟨small_inv (by decide) rfl (by decide +kernel) rfl (by decide +kernel) (by decide) (by decide +kernel),
    by decide +kernel⟩

theorem witness_DemodSpacesAreSingle : 2 ≤ 5 ∧ ∀ e ∈ small.rtab, e.2 ≠ 0x20 := by decide +kernel

/-- Two words; four blocks of silence after them, one less than 5 × `BPU`. -/
theorem witness_IdealKeyingDemodulatesToText :
    let words := [chars "AN", chars "T"]
    let bits := stretch 1 (messageUnits Params.default.pattern words) ++ List.replicate 4 false
    let s := withBits bits small
    Inv s ∧ s.ready = true ∧ 1 ≤ s.bpu.toNat ∧ Keyable s.params words ∧ 4 < 5 * s.bpu.toNat ∧ s.bitsLen = bits.length ∧
      (∀ b (h : b < bits.length), readCell b s.bits = bits[b]) ∧ s.bitsLen ≤ s.params.bitsMax ∧
      (messageText words).length ≤ s.params.txtMax := by
  refine ⟨small_inv (by decide) rfl (by decide +kernel) rfl (by decide +kernel) (by decide) (by decide +kernel), rfl,
    by decide, ⟨by decide, ?_⟩, by decide, rfl, ?_, by decide +kernel, by decide +kernel⟩
  · decide +kernel
  · intro b h
    rw [show (withBits (stretch 1 (messageUnits Params.default.pattern [chars "AN", chars "T"]) ++
      List.replicate 4 false) small).bits = store ⟨[], 0⟩ (stretch 1 (messageUnits Params.default.pattern
        [chars "AN", chars "T"]) ++ List.replicate 4 false) from rfl, readCell_store, dif_pos h]

/-! ### CRC32, ENCCRC, FRAME, DEFRAME -/

theorem witness_Crc32WritesChecksum :
    State.reset.ready = false ∧ memWf small = true ∧ small.ready = true ∧ (withPay [0x41] small).payLen ≤ small.params.payMax ∧
      Params.default.crcAlg = .ieee := by decide

theorem witness_EnccrcWritesHexDigits : State.reset.ready = false ∧ small.ready = true ∧ Params.default.crcText = .hex4 := by
  decide

/-- The largest payload that fits, and one character more. -/
theorem witness_FrameWritesEnvelope :
    let s := { withPay [0x41] small with params := { Params.default with txtMax := 12 } }
    memWf s = true ∧ s.ready = true ∧ s.payLen ≤ s.params.payMax ∧ s.payLen + 11 ≤ s.params.txtMax ∧
      s.params.txtMax < 2 + 11 := by decide

/-- A text for each clause: 10 characters, V106, V107, V110, V100, and a text longer than `PAY_MAX` + 11. -/
theorem witness_DeframeChecksInOrder :
    small.ready = true ∧ (chars "KKK 0000 A").length = 10 ∧
      (chars "XKK BTC0000 AX").take 4 ≠ [0x4B, 0x4B, 0x4B, 0x20] ∧
      (chars "KKK BTC0000 AX").take 4 = [0x4B, 0x4B, 0x4B, 0x20] ∧
      (chars "KKK BTC0000 AX").drop 11 ≠ [0x20, 0x41, 0x52] ∧
      (chars "KKK BTC0000 AR").take 4 = [0x4B, 0x4B, 0x4B, 0x20] ∧
      (chars "KKK BTC0000 AR").drop 11 = [0x20, 0x41, 0x52] ∧
      get (exec .deframe (withTxt (chars "KKK BTC0000 AR") small)) (fun t => decide (t.crc4 = t.got4)) = some false ∧
      get (exec .deframe (withTxt (chars "KKK BTC08C6 AR") small)) (fun t => decide (t.crc4 = t.got4)) = some true ∧
      refusalOf (exec .deframe { withTxt (chars "KKK BTC08C6 AR") small with params := { Params.default with payMax := 2 } }) =
        some .capacity ∧
      memWf (withTxt (chars "KKK BTC08C6 AR") small) = true := by decide +kernel

theorem witness_BodyShortUnreachable :
    completes (exec .deframe small) = true ∧ completes (exec .decode small) = true ∧ 11 ≤ (chars "KKK 0000 AR").length := by
  decide +kernel

theorem witness_FrameThenDeframeReturnsPayload :
    memWf (withPay (chars "BTC") small) = true ∧ small.ready = true ∧
      (withPay (chars "BTC") small).payLen ≤ small.params.payMax ∧
      (withPay (chars "BTC") small).payLen + 11 ≤ small.params.txtMax := by decide

/-- A valid text; characters 7 and 10 of `<crc4>` and characters 4 and 6 of the payload, all changed to `X`. -/
theorem witness_OneChangedCharacterIsCaught :
    let s := withTxt (chars "KKK BTC08C6 AR") small
    Inv s ∧ get (exec .deframe s) (fun t => t.valid) = some true ∧
      ([7, 10, 4, 6].all fun j => decide ((0x58 : Byte) ≠ readCell j s.txt)) = true ∧ s.txtLen - 7 = 7 ∧
      s.txtLen - 3 = 11 :=
  ⟨small_inv (by decide) rfl (by decide +kernel) rfl (by decide +kernel) (by decide) (by decide +kernel),
    by decide +kernel, by decide +kernel, rfl, rfl⟩

/-- Two payloads of one text under the default `ENCODE_CRC` (R245, R260): the 32-bit CRC tells them apart. -/
theorem witness_CrcSeesEverySingleChange : (0x44 : Byte) ≠ (chars "BTC")[2] := by decide

/-! ### DECODE -/

/-- A capture for each stage: none, silence under an explicit threshold, tone. -/
theorem witness_DecodeEndsInOneStage :
    get (exec .decode small) (fun t => t.stage) = some .goertzel ∧
      get (exec .decode (withPcm [0, 0, 0, 0] small)) (fun t => t.stage) = some .morseDecode ∧
      get (exec .decode toned) (fun t => t.stage) = some .deframe ∧
      memWf toned = true ∧ toned.ready = true ∧ toned.pcmLen ≤ toned.params.pcmMax ∧
      toned.pcmLen / toned.n.toNat ≤ toned.params.bitsMax ∧ toned.pcmLen / toned.n.toNat + 1 ≤ toned.params.txtMax ∧
      toned.pcmLen / toned.n.toNat + 1 ≤ toned.params.payMax + 11 ∧
      (∀ i, i < 3 * 4 → isFinite32 (readCell i toned.pcm) = true) ∧ toned.params.autoZero = .literal := by decide +kernel

theorem witness_DecodeOfEmptyCapture :
    small.ready = true ∧ small.pcmLen = 0 ∧ ({ toned with n := 0 } : State).n = 0 ∧
      (withPcm [0, 0, 0] small).pcmLen < (withPcm [0, 0, 0] small).n.toNat := by decide

/-- One block of silence at a threshold above 0. -/
theorem witness_DecodeOfSilentCapture :
    let s := withPcm [0, 0, 0, 0] small
    memWf s = true ∧ s.ready = true ∧ s.n ≠ 0 ∧ s.n.toNat ≤ s.pcmLen ∧ s.pcmLen ≤ s.params.pcmMax ∧
      s.pcmLen / s.n.toNat ≤ s.params.bitsMax ∧ (∀ i, i < 4 → isFinite32 (readCell i s.pcm) = true) ∧ 0 < s.theta.value ∧
      ∀ b, b < 1 →
        (blockPower s.params.ops s.c ((List.range 4).map fun i => readCell (b * 4 + i) s.pcm)).value < s.theta.value := by
  refine ⟨by decide +kernel, rfl, by decide, by decide, by decide, by decide, by decide +kernel, toned_theta, ?_⟩
  intro b hb
  obtain rfl : b = 0 := by omega
  rw [show blockPower (withPcm [0, 0, 0, 0] small).params.ops (withPcm [0, 0, 0, 0] small).c
    ((List.range 4).map fun i => readCell (0 * 4 + i) (withPcm [0, 0, 0, 0] small).pcm) = RNum.zero by decide +kernel,
    RNum.value_zero]
  exact toned_theta

/-- All three operations of the sequence complete on `toned`; and each of the two early ends. -/
theorem witness_DecodeIsTheStagedSequence :
    get (exec .detect toned) (fun a => (a.bitsLen, get (exec .demod a) fun b => (b.txtLen, completes (exec .deframe b)))) =
        some (3, some (1, true)) ∧
      get (exec .detect small) (fun a => a.bitsLen) = some 0 ∧
      get (exec .detect (withPcm [0, 0, 0, 0] small)) (fun a => (a.bitsLen, get (exec .demod a) fun b => b.txtLen)) =
        some (1, some 0) := by decide +kernel

/-- Two states with the same capture that differ in every result of earlier operations. -/
theorem witness_DecodeIsStateless :
    let s' := withTim [1] (withPay (chars "BTC") (withTxt (chars "KKK") { toned with crc := 1, stage := .deframe }))
    memWf toned = true ∧ memWf s' = true ∧ toned.ready = true ∧ s'.ready = true ∧ toned.params = s'.params ∧
      toned.n = s'.n ∧ toned.theta = s'.theta ∧ toned.c = s'.c ∧ toned.dotDash = s'.dotDash ∧
      toned.wordGap = s'.wordGap ∧ toned.rtab = s'.rtab ∧ toned.pcmLen = s'.pcmLen ∧
      (∀ i, i < toned.pcmLen → readCell i toned.pcm = readCell i s'.pcm) ∧ completes (exec .decode toned) = true := by
  decide +kernel

/-! ### The whole block -/

/-- Program P2 with an empty payload: the frame is "KKK 0000 AR", and the host's timing array for it. -/
theorem witness_LoopbackReturnsPayload :
    let words := [chars "KKK", chars "0000", chars "AR"]
    let units := messageUnits small.params.pattern words
    let loaded := withTim (units.map fun u => if u then 1 else 0xFF) (framed small)
    Inv small ∧ small.params.numerics = .exactReal ∧ small.ready = true ∧ 1 ≤ small.bpu.toNat ∧ small.n ≠ 0 ∧
      small.spu = small.bpu.toNat * small.n.toNat ∧ small.k * small.fs.toNat = small.n.toNat * small.f0.toNat ∧
      0 < small.k ∧ 2 * small.k < small.n.toNat ∧ 0 < small.theta.value ∧
      small.theta.value ≤ (0.4 * small.n.toNat - small.n.toNat / 2 ^ 25) ^ 2 ∧
      exec .frame small = .next (framed small) ∧ Keyable small.params words ∧
      messageText words = (List.range (framed small).txtLen).map (fun j => readCell j (framed small).txt) ∧
      units.length ≤ small.params.timMax ∧ units.length * small.spu ≤ small.params.pcmMax ∧
      units.length * small.bpu.toNat ≤ small.params.bitsMax ∧
      loaded = { framed small with tim := loaded.tim, timLen := units.length } ∧ memWf loaded = true ∧
      ∀ u (h : u < units.length), (0 < (readCell u loaded.tim).toInt ↔ units[u] = true) := by
  refine ⟨inv_small, rfl, rfl, by decide, by decide, by decide, by decide, by decide, by decide, toned_theta, ?_, rfl,
    ⟨by decide, by decide +kernel⟩, by decide +kernel, by decide +kernel, by decide +kernel, by decide +kernel, ?_,
    by decide +kernel, ?_⟩
  · rw [show small.theta = RNum.ofRat 1 from rfl, show small.n.toNat = 4 from rfl, RNum.value_ofRat]
    norm_num
  · simp [withTim]
  · intro u h
    have hl : u < ((messageUnits small.params.pattern [chars "KKK", chars "0000", chars "AR"]).map
        fun u => if u then (1 : Byte) else 0xFF).length := by simpa using h
    rw [show (withTim ((messageUnits small.params.pattern [chars "KKK", chars "0000", chars "AR"]).map
      fun u => if u then (1 : Byte) else 0xFF) (framed small)).tim = store ⟨[], 0⟩ ((messageUnits small.params.pattern
        [chars "KKK", chars "0000", chars "AR"]).map fun u => if u then (1 : Byte) else 0xFF) from rfl,
      readCell_store, dif_pos hl, List.getElem_map]
    cases (messageUnits small.params.pattern [chars "KKK", chars "0000", chars "AR"])[u] <;> decide

/-! ### The CRC text -/

theorem witness_CrcTextIsKeyable :
    CrcTextKeyable Params.default ∧ Params.default.crcText = .hex4 ∧ Params.default.morse = Morse.international ∧
      Inv small ∧ exec .frame small = .next (framed small) :=
  ⟨default_keyable, rfl, rfl, inv_small, rfl⟩

/-! ### Other numerics -/

/-- R148: a chip of another `NUM` completes `INIT`, and `OMEGA` is a number of that field. -/
theorem witness_OmegaAndToneInOtherNumerics :
    ∃ t, exec .init { unbuilt with params := { Params.default with numerics := .other 0 } } = .next t ∧
      t.omega = .held ((Config.numOther 0).omega 1 4) :=
  ⟨constructed { unbuilt with params := { Params.default with numerics := .other 0 } }, by
    simp only [exec, execInit_next, and_true]
    decide +kernel, rfl⟩

/-! ### Open elements -/

/-- R72: after a length of 2 the third sample is open and the second is still there. -/
theorem test_length_write_opens_the_rest :
    get (step { toned with host := [.writeLen .pcm 2] }) (fun t => (lookupCell 2 t.pcm.cells, readCell 1 t.pcm)) =
      some (none, 0x3F800000) := by decide +kernel

end Sys2Proof.Tests
end

section
/-! The scope statements (`00_scope.md`): a step on a command word, and the real value of a binary32 element. -/

namespace Sys2Proof.Machine

/-! ## A step on a command word (R6) -/

/-- A word given by its number is that word. -/
theorem withFetchWord_toNat (w : CmdWord) (s : State) : s.withFetchWord 64 w.toNat = issue w s := by
  rw [State.withFetchWord, Nat.mod_eq_of_lt w.isLt, BitVec.ofNat_toNat, BitVec.setWidth_eq]

/-- Taking the issued command from the moves again gives the idle state it was issued on. -/
theorem issue_takeMove {s : State} (hidle : s.busy = false) (w : CmdWord) :
    { issue w s with host := s.host } = s := by
  cases s
  cases hidle
  rfl

theorem step_command {s : State} {w : CmdWord} {rest : List HostMove} (hidle : s.busy = false)
    (hhost : s.host = .command w :: rest) : step s = runCommand w { s with host := rest } := by
  simp [step, hostStep, hhost, moveAllowed, hidle, hostMove]

theorem runCommand_of_decode {w : CmdWord} {i : Instr} (hw : decode w = some i) (s : State) :
    runCommand w s = exec i s := by
  rw [runCommand, hw]

/-- An idle block whose host issues a legal word runs the instruction the word decodes to. -/
theorem step_command_of_decode {s : State} {w : CmdWord} {i : Instr} {rest : List HostMove} (hw : decode w = some i)
    (hidle : s.busy = false) (hhost : s.host = .command w :: rest) : step s = exec i { s with host := rest } := by
  rw [step_command hidle hhost, runCommand_of_decode hw]

/-- Settles O5: the word stands next in the host's moves, or `withFetchWord` puts it there. -/
theorem stepRunsDecodedCommand : Obligations.StepRunsDecodedCommand := by
  intro s w i hidle hw
  constructor
  · exact fun rest hhost => step_command_of_decode hw hidle hhost
  · rw [withFetchWord_toNat, step_command_of_decode (s := issue w s) hw rfl rfl, issue_takeMove hidle]

end Sys2Proof.Machine

namespace Sys2Proof

/-! ## The real value of a binary32 element (R15, R101) -/

/-- The magnitude of a subnormal element: the fraction field counts units of 2^-149. -/
theorem gridOf_subnormal {w : Word} (he : expField w = 0) :
    (gridOf (w.toNat % 2 ^ 31) : ℝ) / 2 ^ 149 = fracField w * (2 : ℝ) ^ (-149 : ℤ) := by
  rw [gridOf, ← expField_eq, ← fracField_eq, he, zpow_neg, div_eq_mul_inv]
  norm_cast
  simp

/-- The magnitude of a normal element: a significand with the hidden bit, scaled by the biased exponent. -/
theorem gridOf_normal {w : Word} (he : expField w ≠ 0) :
    (gridOf (w.toNat % 2 ^ 31) : ℝ) / 2 ^ 149 =
      (1 + (fracField w : ℝ) / 2 ^ 23) * (2 : ℝ) ^ ((expField w : ℤ) - 127) := by
  have hexp : (2 : ℝ) ^ ((expField w : ℤ) - 127) = 2 ^ (expField w - 1) / 2 ^ 126 := by
    rw [← zpow_natCast, ← zpow_natCast, ← zpow_sub₀ two_ne_zero]
    congr 1
    omega
  rw [gridOf, ← expField_eq, ← fracField_eq, if_neg he, max_eq_right (Nat.pos_of_ne_zero he), hexp]
  push_cast
  ring

/-- Settles O18: the exact rational of the element, split at exponent field 0. -/
theorem val32IsBinary32Value : Obligations.Val32IsBinary32Value := by
  intro w _
  -- the statement in the names of the two fields
  change (RNum.ofRat (rat32 w)).value = (if w.getLsbD 31 then -1 else 1) *
    (if expField w = 0 then (fracField w : ℝ) * (2 : ℝ) ^ (-149 : ℤ)
    else (1 + (fracField w : ℝ) / 2 ^ 23) * (2 : ℝ) ^ ((expField w : ℤ) - 127))
  rw [RNum.value_ofRat, rat32_eq, BitVec.msb_eq_getLsbD_last]
  congr 1
  split
  case isTrue hsubnormal => exact gridOf_subnormal hsubnormal
  case isFalse hnormal => exact gridOf_normal hnormal

end Sys2Proof
end

section
/-! The state statements (`10_state.md`): the parameters, the configuration, the derived registers and the flags. All three
are read off one relation, `Leaves`, that says what each completing operation writes. -/

namespace Sys2Proof.Machine

/-! ## What a completing operation leaves -/

/-- The errors of the checks of `DEFRAME` that come before the text is cut (R255 checks 1 to 3). -/
abbrev earlyErrors : List Err := [.frameShort, .noPreamble, .noProsign]

/-- What a completing `DEFRAME` leaves, one constructor for each end of its checks (R255). -/
inductive Deframed (s : State) : State → Prop
  | early {e : Err} (he : e ∈ earlyErrors) : Deframed s { beginDeframe s with err := e }
  | mismatch : Deframed s { splitFrame (txtSeq s) (beginDeframe s) with err := .crcMismatch }
  | valid : Deframed s { splitFrame (txtSeq s) (beginDeframe s) with valid := true }

/-- `Leaves s i t`: where the operation `i` completes on `s` with `t`, `t` is one of the named updates of `s` that `i` can
end in (R141, R143, R163, R184, R185, R213, R241, R243, R250, R255, R281). -/
inductive Leaves (s : State) : Instr → State → Prop
  | cfgw (sel : BitVec 8) (imm : Word) : Leaves s (.cfgw sel imm) (clearReady (writeConfig sel imm s))
  | init : Leaves s .init (constructed s)
  | render : Leaves s .render (rendered s)
  | gzmag (b : Word) : Leaves s (.gzmag b) (measured b.toNat s)
  | detectNoBlocks : Leaves s .detect (noBlocksFound s)
  | detect : Leaves s .detect (detected s (blockPowers s))
  | demod : Leaves s .demod (demodulated s)
  | crc32 : Leaves s .crc32 { s with crc := crc32Of s.params (paySeq s) }
  | enccrc : Leaves s .enccrc { s with crc4 := encodeCrc s.params s.crc }
  | frame : Leaves s .frame (framed s)
  | deframe {t : State} (ht : Deframed s t) : Leaves s .deframe t
  | decodeNoBlocks : Leaves s .decode { noBlocksFound (atGoertzel s) with err := .noBlocks }
  | decodeNoText : Leaves s .decode { demodulated (atMorse s) with err := .noText }
  | decode {t : State} (ht : Deframed (atDeframe s) t) : Leaves s .decode t

theorem deframeChecks_deframed {s t : State} (h : deframeChecks (txtSeq s) (beginDeframe s) = .next t) :
    Deframed s t := by
  obtain ⟨e, he, rfl⟩ | ⟨_, _, rfl⟩ | ⟨_, _, rfl⟩ := deframeChecks_cases h
  · exact .early he
  · exact .mismatch
  · exact .valid

theorem execDetect_leaves {s t : State} (h : execDetect s = .next t) : Leaves s .detect t := by
  obtain ⟨_, h⟩ := execDetect_next.mp h
  obtain ⟨_, ⟨_, rfl⟩ | ⟨_, _, _, _, rfl⟩⟩ := detectBody_next.mp h
  · exact .detectNoBlocks
  · exact .detect

theorem execDeframe_leaves {s t : State} (h : execDeframe s = .next t) : Leaves s .deframe t := by
  obtain ⟨_, h⟩ := execDeframe_next.mp h
  obtain ⟨_, _, h⟩ := deframeBody_next.mp h
  exact .deframe (deframeChecks_deframed h)

theorem execDecode_leaves {s t : State} (h : execDecode s = .next t) : Leaves s .decode t := by
  obtain ⟨_, _, ⟨_, rfl⟩ | ⟨_, _, rfl⟩ | ⟨_, _, h⟩⟩ := execDecode_forms h
  · exact .decodeNoBlocks
  · exact .decodeNoText
  · exact .decode (deframeChecks_deframed h)

theorem exec_leaves {i : Instr} {s t : State} (h : exec i s = .next t) : Leaves s i t := by
  cases i with
  | cfgw sel imm =>
    obtain ⟨_, _, rfl⟩ := execCfgw_next.mp h
    exact .cfgw sel imm
  | init =>
    obtain ⟨_, _, _, _, rfl⟩ := execInit_next.mp h
    exact .init
  | render =>
    obtain ⟨_, _, _, rfl⟩ := execRender_next.mp h
    exact .render
  | gzmag b =>
    obtain ⟨_, _, _, _, _, rfl⟩ := execGzmag_next.mp h
    exact .gzmag b
  | detect => exact execDetect_leaves h
  | demod =>
    obtain ⟨_, h⟩ := execDemod_next.mp h
    obtain ⟨_, _, rfl⟩ := demodBody_next.mp h
    exact .demod
  | crc32 =>
    obtain ⟨_, _, rfl⟩ := execCrc32_next.mp h
    exact .crc32
  | enccrc =>
    obtain ⟨_, rfl⟩ := execEnccrc_next.mp h
    exact .enccrc
  | frame =>
    obtain ⟨_, _, _, rfl⟩ := execFrame_next.mp h
    exact .frame
  | deframe => exact execDeframe_leaves h
  | decode => exact execDecode_leaves h

/-! ## The parameters of the chip (R49) -/

theorem Leaves.params {s t : State} {i : Instr} (h : Leaves s i t) : t.params = s.params := by
  cases h with
  | deframe ht | decode ht => cases ht <;> simp
  | _ => simp

theorem refuseIf_next_state {c : Bool} {r : Refusal} {s t : State} (h : refuseIf c r (.next s) = .next t) : s = t := by
  obtain ⟨_, h⟩ := refuseIf_next.mp h
  exact Host.Outcome.next.inj h

theorem hostMove_params {m : HostMove} {s t : State} (h : hostMove m s = .next t) : t.params = s.params := by
  cases m with
  | command w =>
    obtain ⟨_, _, hexec⟩ := runCommand_next h
    exact (exec_leaves hexec).params
  | writeTim | writePcm | writeBits | writeTxt | writePay =>
    cases refuseIf_next_state h
    rfl
  | writeLen space len =>
    cases refuseIf_next_state h
    exact writeLength_params space len s
  | read | reset =>
    cases h
    rfl

/-- Settles O11: a step is one move of the host, and of the moves only a command runs an operation. -/
theorem noStepChangesParameters : Obligations.NoStepChangesParameters := by
  intro s t h
  obtain ⟨_, rfl⟩ | ⟨m, rest, _, _, hmove⟩ := step_next h
  · rfl
  · exact hostMove_params (s := { s with host := rest }) hmove

/-! ## The configuration and the derived registers (R22) -/

theorem Leaves.configuration {s t : State} {i : Instr} (h : Leaves s i t) (hcfgw : ∀ sel imm, i ≠ .cfgw sel imm) :
    t.fs = s.fs ∧ t.f0 = s.f0 ∧ t.wpm = s.wpm ∧ t.n = s.n ∧ t.theta = s.theta ∧ t.bpu = s.bpu := by
  cases h with
  | cfgw sel imm => exact absurd rfl (hcfgw sel imm)
  | deframe ht | decode ht => cases ht <;> simp
  | _ => simp

theorem Leaves.derived {s t : State} {i : Instr} (h : Leaves s i t) (hinit : i ≠ .init) :
    t.k = s.k ∧ t.c = s.c ∧ t.omega = s.omega ∧ t.spu = s.spu ∧ t.dotDash = s.dotDash ∧ t.wordGap = s.wordGap ∧
      t.rtab = s.rtab := by
  cases h with
  | init => exact absurd rfl hinit
  | deframe ht | decode ht => cases ht <;> simp
  | _ => simp

theorem Leaves.ready_of_cfgw {s t : State} {sel : BitVec 8} {imm : Word} (h : Leaves s (.cfgw sel imm) t) :
    t.ready = false := by
  cases h
  rfl

/-- Settles O13: the two frames of `Leaves`, and the end of `CFGW`. -/
theorem configurationAndDerivedImmutable : Obligations.ConfigurationAndDerivedImmutable := by
  intro i s t h
  have hleaves := exec_leaves h
  refine ⟨hleaves.configuration, hleaves.derived, ?_⟩
  rintro sel imm rfl
  exact hleaves.ready_of_cfgw

/-! ## The flags (R46) -/

theorem Leaves.st {s t : State} {i : Instr} (h : Leaves s i t) (hdetect : i ≠ .detect) (hdecode : i ≠ .decode) :
    t.st = s.st := by
  cases h with
  | detectNoBlocks | detect => exact absurd rfl hdetect
  | decodeNoBlocks | decodeNoText | decode => exact absurd rfl hdecode
  | deframe ht => cases ht <;> simp
  | _ => simp

theorem Leaves.verdict {s t : State} {i : Instr} (h : Leaves s i t) (hdeframe : i ≠ .deframe) (hdecode : i ≠ .decode) :
    t.valid = s.valid ∧ t.err = s.err := by
  cases h with
  | deframe => exact absurd rfl hdeframe
  | decodeNoBlocks | decodeNoText | decode => exact absurd rfl hdecode
  | _ => simp

theorem Leaves.stage {s t : State} {i : Instr} (h : Leaves s i t) (hdecode : i ≠ .decode) : t.stage = s.stage := by
  cases h with
  | decodeNoBlocks | decodeNoText | decode => exact absurd rfl hdecode
  | deframe ht => cases ht <;> simp
  | _ => simp

theorem Leaves.ready_of_init {s t : State} (h : Leaves s .init t) : t.ready = true := by
  cases h
  rfl

theorem Leaves.ready {s t : State} {i : Instr} (h : Leaves s i t) (hinit : i ≠ .init)
    (hcfgw : ∀ sel imm, i ≠ .cfgw sel imm) : t.ready = s.ready := by
  cases h with
  | cfgw sel imm => exact absurd rfl (hcfgw sel imm)
  | init => exact absurd rfl hinit
  | deframe ht | decode ht => cases ht <;> simp
  | _ => simp

theorem Leaves.busy {s t : State} {i : Instr} (h : Leaves s i t) : t.busy = s.busy := by
  cases h with
  | deframe ht | decode ht => cases ht <;> simp
  | _ => simp

/-- Settles O15: a lemma for each row of the table of flags. -/
theorem flagsWrittenOnlyAsListed : Obligations.FlagsWrittenOnlyAsListed := by
  intro i s t h
  have hleaves := exec_leaves h
  refine ⟨hleaves.st, hleaves.verdict, hleaves.stage, ?_, ?_, hleaves.ready, hleaves.busy⟩
  · rintro rfl
    exact hleaves.ready_of_init
  · rintro ⟨sel, imm, rfl⟩
    exact hleaves.ready_of_cfgw

end Sys2Proof.Machine
end

section
/-! The memory statements (`20_memory.md`): the host's loads and reads of the buffer spaces, and which operation writes which
space and which result register. -/

namespace Sys2Proof.Machine

/-! ## The host's moves on an idle block (R71, R77) -/

theorem step_idle {s : State} {m : HostMove} {rest : List HostMove} (hidle : s.busy = false) (hhost : s.host = m :: rest) :
    step s = hostMove m { s with host := rest } := by
  simp [step, hostStep, hhost, moveAllowed, hidle]

/-- Settles O7: on an idle block a read is allowed, and it leaves the state as it is. -/
theorem hostReadsChangeNothing : Obligations.HostReadsChangeNothing :=
  fun _ _ _ hidle hhost => step_idle hidle hhost

/-- A move that is refused only from the bound `cap` on goes through below it. -/
theorem step_of_lt_bound {s t : State} {m : HostMove} {rest : List HostMove} {cap i : Nat} (hidle : s.busy = false)
    (hhost : s.host = m :: rest)
    (hmove : hostMove m { s with host := rest } = refuseIf (decide (cap ≤ i)) .hostOutOfRange (.next t)) (hi : i < cap) :
    step s = .next t := by
  rw [step_idle hidle hhost, hmove, decide_eq_false (Nat.not_le.mpr hi), refuseIf_false]

/-- What reads see after a write of one element (R79). -/
theorem reads_writeCell {α : Type} [Inhabited α] (i : Nat) (v : α) (m : Space α) :
    readCell i (writeCell i v m) = v ∧ ∀ j, j ≠ i → readCell j (writeCell i v m) = readCell j m :=
  ⟨readCell_writeCell_same i v m, fun _ => readCell_writeCell_other v m⟩

/-- What a write of the length register leaves of its space (R72). -/
theorem cells_forget {α : Type} [Inhabited α] (len : Nat) (m : Space α) :
    (∀ j, len ≤ j → isOpen j (forget len m)) ∧
      ∀ j, j < len → ¬isOpen j m → readCell j (forget len m) = readCell j m :=
  ⟨fun _ => isOpen_forget m, fun _ => readCell_forget m⟩

/-- Settles O6: an element write is `writeCell` on its space, a length write is `forget` on the spaces of the length. -/
theorem hostLoadsAreSeenByReads : Obligations.HostLoadsAreSeenByReads := by
  intro s rest _ hidle
  refine ⟨fun i v hhost hi => ?tim, fun i v hhost hi => ?pcm, fun i v hhost hi => ?bits, fun i v hhost hi => ?txt,
    fun i v hhost hi => ?pay, fun len hlen => ⟨fun hhost => ?timLen, fun hhost => ?pcmLen, fun hhost => ?bitsLen,
      fun hhost => ?txtLen, fun hhost => ?payLen⟩⟩
  case tim => exact ⟨_, step_of_lt_bound hidle hhost rfl hi, rfl, reads_writeCell i v s.tim⟩
  case pcm => exact ⟨_, step_of_lt_bound hidle hhost rfl hi, rfl, reads_writeCell i v s.pcm⟩
  case bits => exact ⟨_, step_of_lt_bound hidle hhost rfl hi, rfl, reads_writeCell i v s.bits⟩
  case txt => exact ⟨_, step_of_lt_bound hidle hhost rfl hi, rfl, reads_writeCell i v s.txt⟩
  case pay => exact ⟨_, step_of_lt_bound hidle hhost rfl hi, rfl, reads_writeCell i v s.pay⟩
  case timLen => exact ⟨_, step_of_lt_bound hidle hhost rfl hlen, rfl, cells_forget len s.tim⟩
  case pcmLen => exact ⟨_, step_of_lt_bound hidle hhost rfl hlen, rfl, cells_forget len s.pcm⟩
  case bitsLen =>
    -- `BITS_LEN` is the length of `MAGS` too
    obtain ⟨hbitsOpen, hbitsKept⟩ := cells_forget len s.bits
    obtain ⟨hmagsOpen, hmagsKept⟩ := cells_forget len s.mags
    exact ⟨_, step_of_lt_bound hidle hhost rfl hlen, rfl, fun j hj => ⟨hbitsOpen j hj, hmagsOpen j hj⟩,
      fun j hj => ⟨hbitsKept j hj, hmagsKept j hj⟩⟩
  case txtLen => exact ⟨_, step_of_lt_bound hidle hhost rfl hlen, rfl, cells_forget len s.txt⟩
  case payLen => exact ⟨_, step_of_lt_bound hidle hhost rfl hlen, rfl, cells_forget len s.pay⟩

/-! ## The spaces and result registers an operation writes (R70, R74)

A lemma for each group of registers with one list of writers. -/

theorem Leaves.timing {s t : State} {i : Instr} (h : Leaves s i t) : t.tim = s.tim ∧ t.timLen = s.timLen := by
  cases h with
  | deframe ht | decode ht => cases ht <;> simp
  | _ => simp

theorem Leaves.samples {s t : State} {i : Instr} (h : Leaves s i t) (hrender : i ≠ .render) :
    t.pcm = s.pcm ∧ t.pcmLen = s.pcmLen ∧ t.nidx = s.nidx ∧ t.ru = s.ru ∧ t.rj = s.rj := by
  cases h with
  | render => exact absurd rfl hrender
  | deframe ht | decode ht => cases ht <;> simp
  | _ => simp

theorem Leaves.detection {s t : State} {i : Instr} (h : Leaves s i t) (hi : i ∉ [Instr.detect, .decode]) :
    t.mags = s.mags ∧ t.bits = s.bits ∧ t.bitsLen = s.bitsLen ∧ t.thon = s.thon ∧ t.thoff = s.thoff := by
  cases h with
  | detectNoBlocks | detect | decodeNoBlocks | decodeNoText | decode => simp at hi
  | deframe ht => cases ht <;> simp
  | _ => simp

theorem Leaves.recurrence {s t : State} {i : Instr} (h : Leaves s i t) (hi : i ∉ [Instr.detect, .decode])
    (hgzmag : ∀ b, i ≠ .gzmag b) : t.s1 = s.s1 ∧ t.s2 = s.s2 ∧ t.gb = s.gb ∧ t.gi = s.gi := by
  cases h with
  | gzmag b => exact absurd rfl (hgzmag b)
  | detectNoBlocks | detect | decodeNoBlocks | decodeNoText | decode => simp at hi
  | deframe ht => cases ht <;> simp
  | _ => simp

theorem Leaves.mag {s t : State} {i : Instr} (h : Leaves s i t) (hgzmag : ∀ b, i ≠ .gzmag b) : t.mag = s.mag := by
  cases h with
  | gzmag b => exact absurd rfl (hgzmag b)
  | deframe ht | decode ht => cases ht <;> simp
  | _ => simp

theorem Leaves.demodulation {s t : State} {i : Instr} (h : Leaves s i t) (hi : i ∉ [Instr.demod, .decode]) :
    t.runs = s.runs ∧ t.runsLen = s.runsLen ∧ t.pat = s.pat := by
  cases h with
  | demod | decodeNoBlocks | decodeNoText | decode => simp at hi
  | deframe ht => cases ht <;> simp
  | _ => simp

theorem Leaves.text {s t : State} {i : Instr} (h : Leaves s i t) (hi : i ∉ [Instr.demod, .frame, .decode]) :
    t.txt = s.txt ∧ t.txtLen = s.txtLen := by
  cases h with
  | demod | frame | decodeNoBlocks | decodeNoText | decode => simp at hi
  | deframe ht => cases ht <;> simp
  | _ => simp

theorem Leaves.payload {s t : State} {i : Instr} (h : Leaves s i t) (hi : i ∉ [Instr.deframe, .decode]) :
    t.pay = s.pay ∧ t.payLen = s.payLen ∧ t.got4 = s.got4 := by
  cases h with
  | deframe | decodeNoBlocks | decodeNoText | decode => simp at hi
  | _ => simp

theorem Leaves.crc {s t : State} {i : Instr} (h : Leaves s i t) (hi : i ∉ [Instr.crc32, .frame, .deframe, .decode]) :
    t.crc = s.crc := by
  cases h with
  | crc32 | frame | deframe | decodeNoBlocks | decodeNoText | decode => simp at hi
  | _ => simp

theorem Leaves.crc4 {s t : State} {i : Instr} (h : Leaves s i t) (hi : i ∉ [Instr.enccrc, .frame, .deframe, .decode]) :
    t.crc4 = s.crc4 := by
  cases h with
  | enccrc | frame | deframe | decodeNoBlocks | decodeNoText | decode => simp at hi
  | _ => simp

/-- Settles O16: one frame of `Leaves` for each list of writers. -/
theorem spacesWrittenOnlyAsListed : Obligations.SpacesWrittenOnlyAsListed := by
  intro i s t h
  have hleaves := exec_leaves h
  obtain ⟨htim, htimLen⟩ := hleaves.timing
  exact ⟨htim, htimLen, hleaves.samples, hleaves.detection, hleaves.recurrence, hleaves.mag, hleaves.demodulation,
    hleaves.text, hleaves.payload, hleaves.crc, hleaves.crc4⟩

end Sys2Proof.Machine
end

section
/-! The encoding statements (`30_encoding.md`): the command words, the layout of `STATUS`, and the default Morse table. -/

namespace Sys2Proof

/-! ## Decoding and encoding (R100, R104, R105) -/

/-- The operation code of an instruction selects it again, its operands read back from its own fields. -/
theorem byOpcode_opcode (i : Instr) : byOpcode (opcode i) (selOf i) (immOf i) = some i := by
  cases i <;> rfl

theorem decode_encode {i : Instr} (hi : WellFormed i) : decode (encode i) = some i := by
  obtain ⟨hop, hsel, -, himm, hlegal⟩ := Laws.Legal.of_encode i
  simp [decode, hop, hsel, himm, byOpcode_opcode, hlegal, hi]

/-- A word whose fields are those of `i` is the word of `i`. -/
theorem encode_of_fields {w : CmdWord} {i : Instr} (hop : opField w = opcode i) (hsel : selField w = selOf i)
    (hzero : zeroField w = 0) (himm : immField w = immOf i) : encode i = w := by
  rw [encode, ← hop, ← hsel, ← himm, packWord_fields w hzero]

/-- The decoder inverts the encoder: the two directions are the two round trips. -/
theorem decode_eq_some_iff {w : CmdWord} {i : Instr} : decode w = some i ↔ WellFormed i ∧ encode i = w := by
  constructor
  · intro hw
    obtain ⟨hby, hlegal⟩ := decode_some hw
    obtain ⟨hzero, hsel, himm, hwf⟩ := (legalFor_iff i w).mp hlegal
    exact ⟨hwf, encode_of_fields (byOpcode_some hby).1.symm hsel hzero himm⟩
  · rintro ⟨hwf, rfl⟩
    exact decode_encode hwf

/-- Settles O2: encoding packs the fields that decoding reads. -/
theorem encodeThenDecodeReturnsInstruction : Obligations.EncodeThenDecodeReturnsInstruction :=
  fun _ => decode_encode

/-- Settles O3: a legal word is the packing of its fields, and those are the fields of the instruction. -/
theorem decodeThenEncodeReturnsWord : Obligations.DecodeThenEncodeReturnsWord :=
  fun _ _ => decode_eq_some_iff.mp

/-! ## The legal words, field by field (R105) -/

/-- The eleven operation codes of the opcode map (R104). -/
abbrev opcodeMap : List (BitVec 8) := [0x01, 0x02, 0x10, 0x20, 0x21, 0x30, 0x40, 0x41, 0x42, 0x43, 0x50]

theorem opcode_mem_opcodeMap (i : Instr) : opcode i ∈ opcodeMap := by
  cases i <;> simp [opcode]

/-- Only `CFGW` has a selector. -/
theorem selOf_eq_zero {i : Instr} (h : opcode i ≠ 0x01) : selOf i = 0 := by
  cases i with
  | cfgw => exact absurd rfl h
  | _ => rfl

/-- Only `CFGW` and `GZMAG` have an immediate. -/
theorem immOf_eq_zero {i : Instr} (h : opcode i ∉ ([0x01, 0x20] : List (BitVec 8))) : immOf i = 0 := by
  cases i with
  | cfgw | gzmag => simp [opcode] at h
  | _ => rfl

theorem wellFormed_iff (i : Instr) : WellFormed i ↔ (opcode i = 0x01 → (selOf i).toNat ≤ 5) := by
  cases i <;> simp [WellFormed, Instr.wf, opcode, selOf]

/-- Every code of the map is the code of an instruction, which takes from the fields the operands its operation has. -/
theorem exists_instr_of_mem_opcodeMap {op : BitVec 8} (sel : BitVec 8) (imm : Word) (h : op ∈ opcodeMap) :
    ∃ i, opcode i = op ∧ (op = 0x01 → selOf i = sel) ∧
      (op ∈ ([0x01, 0x20] : List (BitVec 8)) → immOf i = imm) := by
  simp only [opcodeMap, List.mem_cons, List.not_mem_nil, or_false] at h
  rcases h with rfl | rfl | rfl | rfl | rfl | rfl | rfl | rfl | rfl | rfl | rfl
  · exact ⟨.cfgw sel imm, rfl, fun _ => rfl, fun _ => rfl⟩
  · exact ⟨.init, by simp [opcode]⟩
  · exact ⟨.render, by simp [opcode]⟩
  · exact ⟨.gzmag imm, by simp [opcode, immOf]⟩
  · exact ⟨.detect, by simp [opcode]⟩
  · exact ⟨.demod, by simp [opcode]⟩
  · exact ⟨.crc32, by simp [opcode]⟩
  · exact ⟨.enccrc, by simp [opcode]⟩
  · exact ⟨.frame, by simp [opcode]⟩
  · exact ⟨.deframe, by simp [opcode]⟩
  · exact ⟨.decode, by simp [opcode]⟩

/-- R105's definition of a legal word, in the names of the fields. -/
theorem decode_ne_none_iff (w : CmdWord) :
    decode w ≠ none ↔
      opField w ∈ opcodeMap ∧ zeroField w = 0 ∧ (opField w ≠ 0x01 → selField w = 0) ∧
        (opField w = 0x01 → (selField w).toNat ≤ 5) ∧
        (opField w ∉ ([0x01, 0x20] : List (BitVec 8)) → immField w = 0) := by
  simp only [ne_eq, Option.ne_none_iff_exists', decode_eq_some_iff]
  constructor
  · rintro ⟨i, hwf, rfl⟩
    obtain ⟨hop, hsel, hzero, himm, -⟩ := Laws.Legal.of_encode i
    rw [hop, hsel, himm]
    exact ⟨opcode_mem_opcodeMap i, hzero, selOf_eq_zero, (wellFormed_iff i).mp hwf, immOf_eq_zero⟩
  · rintro ⟨hmap, hzero, hsel, hbound, himm⟩
    obtain ⟨i, hop, hseli, himmi⟩ := exists_instr_of_mem_opcodeMap (selField w) (immField w) hmap
    have hselw : selField w = selOf i := by
      by_cases hcfgw : opField w = 0x01
      · exact (hseli hcfgw).symm
      · rw [hsel hcfgw, selOf_eq_zero (hop ▸ hcfgw)]
    have himmw : immField w = immOf i := by
      by_cases hoperand : opField w ∈ ([0x01, 0x20] : List (BitVec 8))
      · exact (himmi hoperand).symm
      · rw [himm hoperand, immOf_eq_zero (hop ▸ hoperand)]
    refine ⟨i, (wellFormed_iff i).mpr ?_, encode_of_fields hop.symm hselw hzero himmw⟩
    rw [hop, ← hselw]
    exact hbound

end Sys2Proof

namespace Sys2Proof.Machine

theorem runCommand_of_reserved {w : CmdWord} (hw : decode w = none) (s : State) :
    runCommand w s = .refused .reserved := by
  rw [runCommand, hw]

/-- Settles O4: the fields are those of an instruction, and a word that is no instruction's is refused when it is run. -/
theorem legalWordsExactlyByFields : Obligations.LegalWordsExactlyByFields := by
  intro w
  refine ⟨decode_ne_none_iff w, fun hw s rest hidle hhost => ?_⟩
  rw [step_command hidle hhost, runCommand_of_reserved hw]

/-- Settles O1: sixteen fixed words. -/
theorem opcodeMapWordsDecode : Obligations.OpcodeMapWordsDecode := by
  unfold Obligations.OpcodeMapWordsDecode
  decide

/-! ## The layout of `STATUS` (R130 to R132) -/

@[simp] theorem getElem_flagBit_zero (b : Bool) : (flagBit b)[0] = b := by
  cases b <;> rfl

/-- The bits of `STATUS` that are one field each: the four flags, and bit 7. -/
theorem status_single_bits (s : State) :
    (status s).getLsbD 0 = s.ready ∧ (status s).getLsbD 1 = s.busy ∧ (status s).getLsbD 2 = s.valid ∧
      (status s).getLsbD 3 = s.st ∧ (status s).getLsbD 7 = false := by
  simp only [status, BitVec.getLsbD_append]
  simp

theorem status_stage_bits (s : State) : (status s).extractLsb' 4 3 = BitVec.ofNat 3 s.stage.code := by
  ext j hj
  simp only [status, BitVec.getElem_extractLsb', BitVec.getLsbD_append]
  grind

theorem status_err_bits (s : State) : (status s).extractLsb' 8 4 = BitVec.ofNat 4 s.err.code := by
  ext j hj
  simp only [status, BitVec.getElem_extractLsb', BitVec.getLsbD_append]
  grind

theorem status_high_bits (s : State) : (status s).extractLsb' 12 20 = 0 := by
  ext j hj
  simp only [status, BitVec.getElem_extractLsb', BitVec.getLsbD_append]
  grind

theorem Stage.code_lt (g : Stage) : g.code < 2 ^ 3 := by
  cases g <;> decide

theorem Err.code_lt (e : Err) : e.code < 2 ^ 4 := by
  cases e <;> decide

/-- The `STAGE` field holds the whole code. -/
theorem status_stage_code (s : State) : ((status s).extractLsb' 4 3).toNat = s.stage.code := by
  rw [status_stage_bits, BitVec.toNat_ofNat, Nat.mod_eq_of_lt s.stage.code_lt]

/-- The `ERR` field holds the whole code. -/
theorem status_err_code (s : State) : ((status s).extractLsb' 8 4).toNat = s.err.code := by
  rw [status_err_bits, BitVec.toNat_ofNat, Nat.mod_eq_of_lt s.err.code_lt]

/-- Settles O56: `STATUS` field by field; the numbers of the codes are those of `Stage.code` and `Err.code`. -/
theorem statusLayout : Obligations.StatusLayout := by
  intro s
  obtain ⟨hready, hbusy, hvalid, hst, hzero⟩ := status_single_bits s
  exact ⟨hready, hbusy, hvalid, hst, status_stage_code s, hzero, status_err_code s, status_high_bits s⟩

/-! ## The default Morse table (R120, R121) -/

/-- The patterns of one length, in lexicographic order. -/
def patternsOfLength : Nat → List Pattern
  | 0 => [[]]
  | n + 1 => (patternsOfLength n).map (.dot :: ·) ++ (patternsOfLength n).map (.dash :: ·)

theorem mem_patternsOfLength {n : Nat} {pat : Pattern} : pat ∈ patternsOfLength n ↔ pat.length = n := by
  induction n generalizing pat with
  | zero => simp [patternsOfLength]
  | succ n ih =>
    cases pat with
    | nil => simp [patternsOfLength]
    | cons sym pat => cases sym <;> simp [patternsOfLength, ih]

theorem nodup_patternsOfLength (n : Nat) : (patternsOfLength n).Nodup := by
  induction n with
  | zero => simp [patternsOfLength]
  | succ n ih =>
    refine List.Nodup.append (ih.map (List.cons_injective)) (ih.map (List.cons_injective)) ?_
    simp [List.Disjoint]

theorem length_patternsOfLength (n : Nat) : (patternsOfLength n).length = 2 ^ n := by
  induction n with
  | zero => rfl
  | succ n ih => simp [patternsOfLength, ih, pow_succ, mul_two]

/-- The patterns of the lengths 1 to 6. -/
def shortPatterns : List Pattern := (List.range 6).flatMap fun n => patternsOfLength (n + 1)

theorem mem_shortPatterns {pat : Pattern} : pat ∈ shortPatterns ↔ 1 ≤ pat.length ∧ pat.length ≤ 6 := by
  simp only [shortPatterns, List.mem_flatMap, List.mem_range, mem_patternsOfLength]
  constructor
  · rintro ⟨n, hn, hlen⟩
    omega
  · rintro ⟨hpos, hle⟩
    exact ⟨pat.length - 1, by omega, by omega⟩

/-- Patterns of two lengths are never the same. -/
theorem nodup_shortPatterns : shortPatterns.Nodup := by
  refine List.nodup_flatMap.mpr ⟨fun n _ => nodup_patternsOfLength (n + 1), ?_⟩
  refine List.nodup_range.imp fun {m n} hmn pat hm hn => hmn ?_
  rw [mem_patternsOfLength] at hm hn
  omega

theorem length_shortPatterns : shortPatterns.length = 126 := by
  simp [shortPatterns, length_patternsOfLength, List.range_succ]

/-- A list without repetition is counted by filtering any such list that holds its members. -/
theorem length_filter_mem {α : Type} {all keys : List α} [DecidablePred (· ∈ keys)] (hall : all.Nodup) (hkeys : keys.Nodup)
    (hsub : ∀ x ∈ keys, x ∈ all) : (all.filter fun x => decide (x ∈ keys)).length = keys.length := by
  refine ((List.perm_ext_iff_of_nodup (hall.filter _) hkeys).mpr fun x => ?_).length_eq
  simpa using hsub x

/-- `RTAB` of the default table has the patterns of the 42 characters as its keys, in their order (R120, R151). -/
theorem keys_buildRtab_default :
    (buildRtab Params.default).map Prod.fst = (Morse.letters ++ Morse.digits ++ Morse.marks).map Morse.ofUnits := by
  decide +kernel

/-- Settles O57: the keys are the 42 patterns of the table, which are among the 126 short ones. -/
theorem defaultMorseTableProperties : Obligations.DefaultMorseTableProperties := by
  unfold Obligations.DefaultMorseTableProperties
  rw [keys_buildRtab_default]
  intro keys
  have hlength : keys.length = 42 := rfl
  have hnodup : keys.Nodup := by decide
  have hshort : ∀ pat ∈ keys, 1 ≤ pat.length ∧ pat.length ≤ 6 := by decide
  refine ⟨rfl, hlength, hnodup, hshort, by decide, by decide, shortPatterns, nodup_shortPatterns, length_shortPatterns,
    fun _ => mem_shortPatterns, ?_⟩
  rw [length_filter_mem nodup_shortPatterns hnodup fun pat hpat => mem_shortPatterns.mpr (hshort pat hpat), hlength]

end Sys2Proof.Machine
end

section
/-! The construction statements (`40_config.md`): `CFGW`, `INIT`, what runs before an `INIT`, and `OMEGA` under another
`NUM` (`41_render.md` R161). -/

namespace Sys2Proof.Machine

/-! ## CFGW (R141) -/

/-- A pattern is finite unless its exponent field, bits 30:23, is all ones (R101). -/
theorem isFinite32_iff_exponent (w : Word) : isFinite32 w = true ↔ w.extractLsb' 23 8 ≠ (0xFF : BitVec 8) := by
  simp [isFinite32, expField, ← BitVec.toNat_inj]

theorem execCfgw_of_accepted {sel : BitVec 8} {imm : Word} (hsel : sel.toNat ≤ 5)
    (hfinite : sel.toNat = 4 → isFinite32 imm = true) (s : State) :
    execCfgw sel imm s = .next (clearReady (writeConfig sel imm s)) :=
  execCfgw_next.mpr ⟨hsel, hfinite, rfl⟩

theorem execCfgw_of_reserved {sel : BitVec 8} (hsel : 5 < sel.toNat) (imm : Word) (s : State) :
    execCfgw sel imm s = .refused .reservedSelector := by
  rw [execCfgw, decide_eq_true hsel, refuseIf_true]

theorem execCfgw_of_nonFinite {imm : Word} (himm : isFinite32 imm = false) (s : State) :
    execCfgw 4 imm s = .refused .nonFiniteThreshold := by
  simp [execCfgw, himm]

/-- The threshold pattern −0 brings the real 0 into the numerics (R141). -/
theorem val32_negZero (ops : NumOps) : ops.val32 0x80000000 = ops.ofRat 0 :=
  congrArg ops.ofRat (by decide)

/-- Settles O17: a selector that is not refused ends in `writeConfig` with `READY` cleared. -/
theorem cfgwWritesSelectedRegister : Obligations.CfgwWritesSelectedRegister := by
  intro s imm
  refine ⟨?fs, ?f0, ?wpm, ?n, fun himm => ?theta, fun himm => ?nonFinite, ?negZero, ?bpu, fun sel hsel => ?reserved⟩
  case fs | f0 | wpm | n | bpu => exact execCfgw_of_accepted (by decide) (by simp) s
  case theta => exact execCfgw_of_accepted (by decide) (fun _ => (isFinite32_iff_exponent imm).mpr himm) s
  case nonFinite =>
    refine execCfgw_of_nonFinite ?_ s
    rw [← Bool.not_eq_true, isFinite32_iff_exponent]
    exact not_not_intro himm
  case negZero =>
    rw [← val32_negZero]
    exact execCfgw_of_accepted (by decide) (fun _ => by decide) s
  case reserved => exact execCfgw_of_reserved hsel imm s

/-! ## Before the first INIT (R142) -/

theorem exec_of_not_ready {i : Instr} {s : State} (hready : s.ready = false) (hcfgw : ∀ sel imm, i ≠ .cfgw sel imm)
    (hinit : i ≠ .init) : exec i s = .refused .notConstructed := by
  cases i with
  | cfgw sel imm => exact absurd rfl (hcfgw sel imm)
  | init => exact absurd rfl hinit
  | render | gzmag | detect | demod | crc32 | enccrc | frame | deframe | decode =>
    exact whenReady_of_not_ready hready _

/-- Settles O14: every operation but the two begins with the test of `READY`, and `CFGW` leaves it 0. -/
theorem nothingRunsUntilInit : Obligations.NothingRunsUntilInit := by
  intro i s hready
  refine ⟨exec_of_not_ready hready, fun t h ht => ?_, fun _ _ _ _ h => (exec_leaves h).ready_of_cfgw⟩
  by_contra hinit
  by_cases hcfgw : ∀ sel imm, i ≠ .cfgw sel imm
  · rw [exec_of_not_ready hready hcfgw hinit] at h
    cases h
  · push Not at hcfgw
    obtain ⟨sel, imm, rfl⟩ := hcfgw
    rw [(exec_leaves h).ready_of_cfgw] at ht
    cases ht

/-! ## INIT: the derived integers (R145, R147, R150) -/

theorem word_toNat_pos {w : Word} (hw : w ≠ 0) : 0 < w.toNat :=
  Nat.pos_of_ne_zero (BitVec.toNat_ne_iff_ne.mpr hw)

/-- For `N` = 0 the formula of R145 gives the 0 of R153 (a). -/
theorem initK_eq_binOf {s : State} (hfs : s.fs ≠ 0) : initK s = binOf s.n s.f0 s.fs := by
  unfold initK
  split
  case isTrue hn =>
    have hpos := word_toNat_pos hfs
    have hlt : 2 * ((0 : Word).toNat * s.f0.toNat) + s.fs.toNat < 2 * s.fs.toNat := by
      simpa using (by omega : s.fs.toNat < 2 * s.fs.toNat)
    rw [binOf, hn, roundHalfUp, Nat.div_eq_of_lt hlt]
  case isFalse => rfl

theorem initK_eq_floor {s : State} (hfs : s.fs ≠ 0) :
    (initK s : ℤ) = ⌊((s.n.toNat * s.f0.toNat : ℕ) : ℚ) / (s.fs.toNat : ℚ) + 1 / 2⌋ := by
  rw [initK_eq_binOf hfs, binOf]
  exact roundHalfUp_eq _ _ (word_toNat_pos hfs)

theorem samplesPerUnit_eq_floor (fs wpm : Word) :
    (samplesPerUnit fs wpm : ℤ) = ⌊((6 * fs.toNat : ℕ) : ℚ) / ((5 * wpm.toNat : ℕ) : ℚ)⌋ :=
  natDiv_eq_floor _ _

/-- The capacity test of `INIT`, in the roundings of R12. -/
theorem derivedFits_iff {s : State} (hfs : s.fs ≠ 0) :
    derivedFits s = true ↔
      ⌊((s.n.toNat * s.f0.toNat : ℕ) : ℚ) / (s.fs.toNat : ℚ) + 1 / 2⌋ < (2 : ℤ) ^ s.params.idxW ∧
        ⌊((6 * s.fs.toNat : ℕ) : ℚ) / ((5 * s.wpm.toNat : ℕ) : ℚ)⌋ < (2 : ℤ) ^ s.params.idxW ∧
        5 * s.bpu.toNat < 2 ^ s.params.idxW := by
  rw [← initK_eq_floor hfs, ← samplesPerUnit_eq_floor]
  norm_cast
  rw [derivedFits, Bool.and_eq_true, Bool.and_eq_true, decide_eq_true_eq, decide_eq_true_eq, decide_eq_true_eq, and_assoc]
  rfl

theorem initC_of_n_ne_zero {s : State} (hn : s.n ≠ 0) : initC s = s.params.ops.twoCos (initK s) s.n.toNat :=
  if_neg hn

theorem constructed_free_of_n_ne_zero {s : State} (hn : s.n ≠ 0) : (constructed s).free = s.free :=
  if_neg hn

/-! ## INIT: completion and refusals (R143) -/

/-- The refusals of `INIT` in their order. -/
theorem execInit_refused {s : State} {r : Refusal} :
    execInit s = .refused r ↔
      (s.fs = 0 ∧ r = .zeroSampleRate) ∨
        (s.fs ≠ 0 ∧ s.wpm = 0 ∧ r = .zeroWpm) ∨
        (s.fs ≠ 0 ∧ s.wpm ≠ 0 ∧ injectiveTable s.params = false ∧ r = .ambiguousTable) ∨
        (s.fs ≠ 0 ∧ s.wpm ≠ 0 ∧ injectiveTable s.params = true ∧ derivedFits s = false ∧ r = .capacity) := by
  simp only [execInit, refuseIf_refused, decide_eq_true_eq, decide_eq_false_iff_not, Bool.not_eq_true',
    Bool.not_eq_false', reduceCtorEq, and_false, or_false, and_or_left]

theorem injectiveTable_false_of_shared {p : Params}
    (h : ∃ c ∈ supportedChars, ∃ d ∈ supportedChars, c ≠ d ∧ p.pattern c = p.pattern d ∧ p.pattern c ≠ none) :
    injectiveTable p = false := by
  obtain ⟨c, hc, d, hd, hne, hsame, hsome⟩ := h
  rw [← Bool.not_eq_true, injectiveTable_iff]
  exact fun hinj => hne (hinj c hc d hd hsame hsome)

/-- Settles O19: the tests of `execInit` in the words of R143, and the fields of `constructed`. -/
theorem initConstructsOrRefuses : Obligations.InitConstructsOrRefuses := by
  intro s
  refine ⟨fun hfs => ?zeroRate, fun hfs hwpm => ?zeroSpeed, fun hfs hwpm hshared => ?ambiguous,
    fun hfs hwpm hinj => ⟨fun hlarge => ?capacity, fun hk hspu hbpu => ?completes⟩⟩
  case zeroRate => exact execInit_refused.mpr (.inl ⟨hfs, rfl⟩)
  case zeroSpeed => exact execInit_refused.mpr (.inr (.inl ⟨hfs, hwpm, rfl⟩))
  case ambiguous =>
    exact execInit_refused.mpr (.inr (.inr (.inl ⟨hfs, hwpm, injectiveTable_false_of_shared hshared, rfl⟩)))
  case capacity =>
    have hfits : derivedFits s = false := by
      rw [← Bool.not_eq_true, derivedFits_iff hfs]
      rintro ⟨hk, hspu, hbpu⟩
      rcases hlarge with hlarge | hlarge | hlarge
      · exact hlarge.not_gt hbpu
      · exact hlarge.not_gt hk
      · exact hlarge.not_gt hspu
    exact execInit_refused.mpr (.inr (.inr (.inr ⟨hfs, hwpm, (injectiveTable_iff _).mpr hinj, hfits, rfl⟩)))
  case completes =>
    have htable := (injectiveTable_iff s.params).mpr hinj
    have hnext := execInit_next.mpr ⟨hfs, hwpm, htable, (derivedFits_iff hfs).mpr ⟨hk, hspu, hbpu⟩, rfl⟩
    exact ⟨constructed s, hnext, rfl,
      fun hn => ⟨initK_eq_floor hfs, initC_of_n_ne_zero hn, constructed_free_of_n_ne_zero hn⟩, fun hn => if_pos hn, rfl,
      samplesPerUnit_eq_floor _ _, fun _ _ => buildRtab_lookup htable⟩

/-! ## INIT in the reference numerics (R146, R148) -/

theorem ops_of_exactReal {p : Params} (h : p.numerics = .exactReal) : p.ops = NumOps.exact := by
  rw [Params.ops, h]

/-- Where `N` is `d` times `K`, the coefficient's angle is the `d`-th part of a full turn. -/
theorem coefficient_angle_of_mul_eq {d k n : ℕ} (hn : n ≠ 0) (h : d * k = n) :
    2 * Real.pi * (k : ℝ) / (n : ℝ) = 2 * Real.pi / (d : ℝ) := by
  subst h
  obtain ⟨hd, hk⟩ := mul_ne_zero_iff.mp hn
  push_cast
  field_simp

/-- Where `K` is a multiple of `N`, the coefficient's angle is a whole number of turns. -/
theorem cos_coefficient_angle_of_dvd {k n : ℕ} (hn : n ≠ 0) (h : n ∣ k) :
    Real.cos (2 * Real.pi * (k : ℝ) / (n : ℝ)) = 1 := by
  obtain ⟨m, rfl⟩ := h
  have hturns : 2 * Real.pi * ((n * m : ℕ) : ℝ) / (n : ℝ) = m * (2 * Real.pi) := by
    push_cast
    field_simp
  rw [hturns, Real.cos_nat_mul_two_pi]

/-- Settles O20: `C` is twice a cosine, whose angle is a whole turn or a 6th, 4th, 3rd or half of one in the special
cases of R146. -/
theorem initReferenceValues : Obligations.InitReferenceValues := by
  intro s t hexact h
  obtain ⟨_, _, _, _, rfl⟩ := execInit_next.mp h
  have hops := ops_of_exactReal hexact
  refine ⟨?_, fun hn => ?_⟩
  · rw [constructed_omega, hops]
    rfl
  have hn0 := (word_toNat_pos hn).ne'
  have hc : (constructed s).c.value = 2 * Real.cos (2 * Real.pi * (initK s : ℝ) / (s.n.toNat : ℝ)) := by
    rw [constructed_c, initC_of_n_ne_zero hn, hops, RNum.value_twoCos]
  rw [hc, constructed_k]
  refine ⟨rfl, ?_, ?_, fun hdvd => ?whole, fun hk => ?sixth, fun hk => ?fourth, fun hk => ?third, fun hk => ?half⟩
  · linarith [Real.neg_one_le_cos (2 * Real.pi * (initK s : ℝ) / (s.n.toNat : ℝ))]
  · linarith [Real.cos_le_one (2 * Real.pi * (initK s : ℝ) / (s.n.toNat : ℝ))]
  case whole => rw [cos_coefficient_angle_of_dvd hn0 hdvd, mul_one]
  case sixth =>
    have hangle : 2 * Real.pi / ((6 : ℕ) : ℝ) = Real.pi / 3 := by push_cast; ring
    rw [coefficient_angle_of_mul_eq hn0 hk, hangle, Real.cos_pi_div_three]
    norm_num
  case fourth =>
    have hangle : 2 * Real.pi / ((4 : ℕ) : ℝ) = Real.pi / 2 := by push_cast; ring
    rw [coefficient_angle_of_mul_eq hn0 hk, hangle, Real.cos_pi_div_two, mul_zero]
  case third =>
    have hangle : 2 * Real.pi / ((3 : ℕ) : ℝ) = Real.pi - Real.pi / 3 := by push_cast; ring
    rw [coefficient_angle_of_mul_eq hn0 hk, hangle, Real.cos_pi_sub, Real.cos_pi_div_three]
    norm_num
  case half =>
    have hangle : 2 * Real.pi / ((2 : ℕ) : ℝ) = Real.pi := by push_cast; ring
    rw [coefficient_angle_of_mul_eq hn0 hk, hangle, Real.cos_pi]
    norm_num

/-! ## A second INIT (R144) -/

/-- What `INIT` tests and what it derives depend on fields that it leaves as they are. -/
theorem execInit_constructed {s t : State} (h : execInit s = .next t) :
    t = constructed s ∧ execInit t = .next (constructed t) := by
  obtain ⟨hfs, hwpm, htable, hfits, rfl⟩ := execInit_next.mp h
  exact ⟨rfl, execInit_next.mpr ⟨hfs, hwpm, htable, hfits, rfl⟩⟩

/-- A second construction draws at most a new free value for `C` (R153 (a)). -/
theorem constructed_constructed (s : State) :
    constructed (constructed s) =
      { constructed s with c := (constructed (constructed s)).c, free := (constructed (constructed s)).free } := rfl

theorem constructed_constructed_of_n_ne_zero {s : State} (hn : s.n ≠ 0) :
    constructed (constructed s) = constructed s := by
  have hc : (constructed (constructed s)).c = (constructed s).c := by
    rw [constructed_c, constructed_c, initC_of_n_ne_zero hn, initC_of_n_ne_zero (s := constructed s) hn]
    rfl
  have hfree : (constructed (constructed s)).free = (constructed s).free := constructed_free_of_n_ne_zero hn
  rw [constructed_constructed, hc, hfree]

/-- Settles O21: constructing twice, and the frame of the derived registers. -/
theorem initIsIdempotent : Obligations.InitIsIdempotent := by
  refine ⟨fun s t h => ?_, fun i s t hinit h => ?_⟩
  · obtain ⟨rfl, hagain⟩ := execInit_constructed h
    exact ⟨_, hagain, constructed_constructed_of_n_ne_zero, constructed_constructed s⟩
  · obtain ⟨_, _, _, _, _, _, hrtab⟩ := (exec_leaves h).derived hinit
    exact hrtab

/-! ## Another NUM (R148, R161) -/

theorem ops_of_other {p : Params} {id : Nat} (h : p.numerics = .other id) : p.ops = (Config.numOther id).ops := by
  rw [Params.ops, h]

/-- The tone of a field's own `OMEGA`: both products and the sine are the field's. -/
theorem tone_field (field : NumField) (omega : RNum) (n : Nat) :
    tone field.ops (.held omega) n =
      RNum.rnd32 (field.mul (field.ofRat (4 / 5)) (field.sin (field.mul omega (field.ofRat n)))) := rfl

/-- Settles O60: the operations of the chip are those of its field, for which an angle is one of its numbers. -/
theorem omegaAndToneInOtherNumerics : Obligations.OmegaAndToneInOtherNumerics := by
  intro s t id hother h field
  obtain ⟨_, _, _, _, rfl⟩ := execInit_next.mp h
  have hops : s.params.ops = field.ops := ops_of_other hother
  have homega : (constructed s).omega = .held (field.omega s.f0.toNat s.fs.toNat) := by
    rw [constructed_omega, hops]
    rfl
  refine ⟨_, rfl, homega, fun n => ?_⟩
  rw [homega, constructed_params, hops, tone_field]

end Sys2Proof.Machine
end

section
/-! The rendering statements (`41_render.md`): what `RENDER` writes, and the tone sample as a rounded sine. -/

namespace Sys2Proof.Machine

/-! ## RENDER (R163 to R169) -/

theorem execRender_of_accepted {s : State} (hready : s.ready = true) (htim : s.timLen ≤ s.params.timMax)
    (hpcm : s.timLen * s.spu ≤ s.params.pcmMax) : execRender s = .next (rendered s) :=
  execRender_next.mpr ⟨hready, htim, hpcm, rfl⟩

theorem execRender_of_too_long {s : State} (hready : s.ready = true)
    (hlong : s.params.timMax < s.timLen ∨ s.params.pcmMax < s.timLen * s.spu) :
    execRender s = .refused .capacity := by
  rw [execRender, whenReady_of_ready hready, refuseIf_refused, refuseIf_refused]
  simp only [decide_eq_true_eq, decide_eq_false_iff_not]
  tauto

theorem memWf_iff {s : State} :
    memWf s = true ↔
      spaceWf s.tim = true ∧ spaceWf s.pcm = true ∧ spaceWf s.mags = true ∧ spaceWf s.bits = true ∧
        spaceWf s.runs = true ∧ spaceWf s.txt = true ∧ spaceWf s.pay = true := by
  simp only [memWf, Bool.and_eq_true, and_assoc]

/-- A sample is the tone exactly where the element of its unit is positive (R165). -/
theorem sample_eq (ops : NumOps) (omega : Angle) (t : Byte) (n : Nat) :
    sample ops omega t n = if 0 < t.toInt then tone ops omega n else 0x00000000 := by
  simp [sample, isTone]

/-- Settles O22: the samples by `readCell_rendered`, the frame by the fields of `rendered`. -/
theorem renderWritesSamples : Obligations.RenderWritesSamples := by
  intro s
  refine ⟨fun hready => whenReady_of_not_ready hready _, execRender_of_too_long, fun hmem hready htim hpcm => ?_⟩
  obtain ⟨hwf, _⟩ := memWf_iff.mp hmem
  refine ⟨rendered s, execRender_of_accepted hready htim hpcm, rfl, fun n hn => ?_, fun n => isOpen_rendered_beyond⟩
  rw [readCell_rendered hwf hn, sample_eq]

/-- Settles O25: both capacity tests and every sample of `readCell_rendered` read only the shared inputs. -/
theorem renderDependsOnInputsOnly : Obligations.RenderDependsOnInputsOnly := by
  intro s s' t hmem hmem' hparams _ hready' hspu homega hlen htim h
  obtain ⟨_, hfits, hroom, rfl⟩ := execRender_next.mp h
  obtain ⟨hwf, _⟩ := memWf_iff.mp hmem
  obtain ⟨hwf', _⟩ := memWf_iff.mp hmem'
  refine ⟨rendered s', execRender_of_accepted hready' ?_ ?_, ?_, fun n hn => ?_⟩
  · rwa [← hparams, ← hlen]
  · rwa [← hparams, ← hlen, ← hspu]
  · rw [rendered_pcmLen, rendered_pcmLen, hlen, hspu]
  · rw [rendered_pcmLen] at hn
    have hunit : n / s.spu < s.timLen := Nat.div_lt_of_lt_mul (by rwa [Nat.mul_comm])
    rw [readCell_rendered hwf hn, readCell_rendered hwf' (by rwa [← hlen, ← hspu]), ← hparams, ← homega, ← hspu,
      htim _ hunit]

/-! ## Rounding to the nearest element (R15) -/

/-- The nearest element is at least as near as any other finite element. -/
theorem NearestEven.dist_le {w e : Word} {r : ℝ} (h : NearestEven w r) (he : isFinite32 e = true) :
    |(rat32 w : ℝ) - r| ≤ |(rat32 e : ℝ) - r| := by
  by_cases hsame : rat32 e = rat32 w
  · rw [hsame]
  · rcases h.2 e he hsame with hlt | ⟨heq, _⟩
    · exact hlt.le
    · exact heq.le

/-- Rounding does not cross a finite element whose negative is an element too. -/
theorem NearestEven.abs_rat32_le {w e e' : Word} {r : ℝ} (h : NearestEven w r) (he : isFinite32 e = true)
    (he' : isFinite32 e' = true) (hneg : rat32 e' = -rat32 e) (hr : |r| ≤ rat32 e) : |rat32 w| ≤ rat32 e := by
  obtain ⟨hlow, hhigh⟩ := abs_le.mp hr
  have hup := h.dist_le he
  have hdown := h.dist_le he'
  rw [hneg, Rat.cast_neg] at hdown
  have hcast : |(rat32 w : ℝ)| ≤ rat32 e := by
    rw [abs_of_nonneg (by linarith : 0 ≤ (rat32 e : ℝ) - r)] at hup
    rw [abs_of_nonpos (by linarith : -(rat32 e : ℝ) - r ≤ 0)] at hdown
    have hw := le_abs_self ((rat32 w : ℝ) - r)
    have hw' := neg_abs_le ((rat32 w : ℝ) - r)
    exact abs_le.mpr ⟨by linarith, by linarith⟩
  exact_mod_cast hcast

end Sys2Proof.Machine

namespace Sys2Proof.RNum

/-! ## Where a product with a cosine is the real 0 -/

theorem mul_zero_right (a : RNum) : mul a zero = zero := by
  change a.terms.foldr (fun _ acc => acc) zero = zero
  induction a.terms with
  | nil => rfl
  | cons t ts ih => exact ih

/-- A cosine that is the real 0 is held as the number 0: the folded turn is 1/4 (R146). -/
theorem cosTurn_eq_zero {q : ℚ} (h : Real.cos (2 * Real.pi * (q : ℝ)) = 0) : cosTurn q = zero := by
  obtain ⟨hlow, hhigh, hsign⟩ := foldTurn_range q
  have hcos : Real.cos (2 * Real.pi * ((foldTurn q).1 : ℝ)) = 0 := by
    have hs : ((foldTurn q).2 : ℝ) ≠ 0 := by rcases hsign with hs | hs <;> rw [hs] <;> norm_num
    exact (mul_eq_zero.mp ((cos_foldTurn q).trans h)).resolve_left hs
  have hquarter : (foldTurn q).1 = 1 / 4 := by
    by_contra hne
    have hlt : ((foldTurn q).1 : ℝ) < ((1 / 4 : ℚ) : ℝ) := by exact_mod_cast lt_of_le_of_ne hhigh hne
    push_cast at hlt
    have hnonneg : (0 : ℝ) ≤ (foldTurn q).1 := by exact_mod_cast hlow
    refine (Real.cos_pos_of_mem_Ioo ⟨?_, ?_⟩).ne' hcos
    · linarith [Real.pi_pos, mul_nonneg Real.pi_pos.le hnonneg]
    · linarith [mul_lt_mul_of_pos_left hlt Real.pi_pos]
  simp [cosTurn, hquarter]

end Sys2Proof.RNum

namespace Sys2Proof.Machine

/-! ## The tone sample (R161, R162) -/

/-- The number that the tone sample of index `n` is rounded from (R161). -/
abbrev unrounded (omega : Angle) (n : Nat) : RNum :=
  NumOps.exact.mul (NumOps.exact.ofRat (4 / 5)) (NumOps.exact.sin (NumOps.exact.times omega n))

theorem unrounded_value (f0 fs n : Nat) :
    (unrounded (NumOps.exact.omega f0 fs) n).value = 0.8 * Real.sin ((NumOps.exact.omega f0 fs).value * n) := by
  have hfactor : (NumOps.exact.ofRat (4 / 5)).value = 0.8 := by
    refine (RNum.value_ofRat _).trans ?_
    norm_num
  refine (RNum.value_mul _ _).trans ?_
  rw [hfactor, RNum.value_sin]

theorem abs_tone_sine_le (x : ℝ) : |0.8 * Real.sin x| ≤ 0.8 := by
  rw [abs_mul, abs_of_pos (by norm_num : (0 : ℝ) < 0.8)]
  linarith [Real.abs_sin_le_one x]

theorem tone_nearest (f0 fs n : Nat) :
    NearestEven (tone NumOps.exact (NumOps.exact.omega f0 fs) n)
      (0.8 * Real.sin ((NumOps.exact.omega f0 fs).value * n)) := by
  rw [← unrounded_value]
  refine RNum.rnd32_nearest _ ?_
  rw [unrounded_value]
  exact (abs_tone_sine_le _).trans_lt (by norm_num)

/-- Where the sine is the real 0, the number rounded is held as 0, so the sample is +0.0. -/
theorem tone_eq_zero {f0 fs n : Nat} (h : 0.8 * Real.sin ((NumOps.exact.omega f0 fs).value * n) = 0) :
    tone NumOps.exact (NumOps.exact.omega f0 fs) n = 0x00000000 := by
  have hsin := (mul_eq_zero.mp h).resolve_left (by norm_num)
  rw [← RNum.value_sin] at hsin
  have hzero : NumOps.exact.sin (NumOps.exact.times (NumOps.exact.omega f0 fs) n) = RNum.zero :=
    RNum.cosTurn_eq_zero ((RNum.value_cosTurn _).symm.trans hsin)
  have hproduct : unrounded (NumOps.exact.omega f0 fs) n = RNum.zero := by
    rw [unrounded, hzero]
    exact RNum.mul_zero_right _
  exact congrArg RNum.rnd32 hproduct

/-- Settles O23: `rnd32` is the nearest element, and 0x3F4CCCCD is an element above 0.8. -/
theorem toneIsRoundedSine : Obligations.ToneIsRoundedSine := by
  intro f0 fs n _ omega
  refine ⟨tone_nearest f0 fs n, tone_eq_zero, ?_⟩
  refine (tone_nearest f0 fs n).abs_rat32_le (e := 0x3F4CCCCD) (e' := 0xBF4CCCCD) rfl rfl (by decide +kernel) ?_
  have hbound : (4 / 5 : ℚ) ≤ rat32 0x3F4CCCCD := by decide +kernel
  calc |0.8 * Real.sin (omega.value * n)|
      ≤ 0.8 := abs_tone_sine_le _
    _ = ((4 / 5 : ℚ) : ℝ) := by norm_num
    _ ≤ rat32 0x3F4CCCCD := Rat.cast_le.mpr hbound

/-- Settles O24: the sine changes by at most the change of its angle, which is `OMEGA`. -/
theorem phaseStepIsBounded : Obligations.PhaseStepIsBounded := by
  intro f0 fs n _ omega sampleAt
  have hpos : 0 ≤ omega.value := by
    change 0 ≤ 2 * Real.pi * (f0 : ℝ) / (fs : ℝ)
    positivity
  have hstep : omega.value * ((n + 1 : ℕ) : ℝ) - omega.value * n = omega.value := by
    push_cast
    ring
  calc |sampleAt (n + 1) - sampleAt n|
      = 0.8 * |Real.sin (omega.value * ((n + 1 : ℕ) : ℝ)) - Real.sin (omega.value * n)| := by
        change |(unrounded omega (n + 1)).value - (unrounded omega n).value| = _
        rw [unrounded_value, unrounded_value, ← mul_sub, abs_mul, abs_of_pos (by norm_num : (0 : ℝ) < 0.8)]
    _ ≤ 0.8 * |omega.value * ((n + 1 : ℕ) : ℝ) - omega.value * n| := by
        exact mul_le_mul_of_nonneg_left (Real.abs_sin_sub_sin_le _ _) (by norm_num)
    _ = 0.8 * omega.value := by rw [hstep, abs_of_nonneg hpos]

end Sys2Proof.Machine
end

section
/-! The power that the detector measures (`42_goertzel.md` R182, R183, R193) for the blocks that the renderer writes: a tone
on the bin, each sample rounded, and silence. -/

namespace Sys2Proof

/-! ## How far rounding moves a number of at most 1 (R15) -/

/-- Every multiple of a power of two with a significand of 24 bits is on the grid of finite elements. -/
theorem exists_gridOf_eq (E m : Nat) (hm : m ≤ 2 ^ 24) : ∃ p ≤ E * 2 ^ 23 + 2 ^ 24, gridOf p = m * 2 ^ E := by
  induction E generalizing m with
  | zero => exact ⟨0 * 2 ^ 23 + m, by omega, gridOf_build 0 m hm (.inl rfl)⟩
  | succ E ih =>
    by_cases hnormal : 2 ^ 23 ≤ m
    · exact ⟨(E + 1) * 2 ^ 23 + m, by omega, gridOf_build (E + 1) m hm (.inr hnormal)⟩
    · obtain ⟨p, hp, hgrid⟩ := ih (2 * m) (by omega)
      exact ⟨p, hp.trans (by gcongr; exact Nat.le_succ E), by rw [hgrid]; ring⟩

/-- A word is its sign bit and its magnitude. -/
theorem exists_word_of_parts (sign : Bool) {p : Nat} (hp : p < 2 ^ 31) :
    ∃ w : Word, w.msb = sign ∧ w.toNat % 2 ^ 31 = p := by
  cases sign with
  | false => exact ⟨BitVec.ofNat 32 p, by simp [BitVec.msb_eq_decide]; omega, by simp; omega⟩
  | true => exact ⟨BitVec.ofNat 32 (2 ^ 31 + p), by simp [BitVec.msb_eq_decide]; omega, by simp; omega⟩

/-- Every multiple of 2^-24 between −1 and 1 is the value of a finite element. -/
theorem exists_rat32_eq (j : ℤ) (hj : |j| ≤ 2 ^ 24) : ∃ e : Word, isFinite32 e = true ∧ (rat32 e : ℝ) = j / 2 ^ 24 := by
  rw [Int.abs_eq_natAbs] at hj
  obtain ⟨p, hp, hgrid⟩ := exists_gridOf_eq 125 j.natAbs (by exact_mod_cast hj)
  obtain ⟨e, hsign, hmagnitude⟩ := exists_word_of_parts (decide (j < 0)) (show p < 2 ^ 31 by omega)
  refine ⟨e, ?_, ?_⟩
  · rw [isFinite32_iff, hmagnitude]
    omega
  · have habs : (if decide (j < 0) = true then (-1 : ℝ) else 1) * j.natAbs = j := by
      rw [Nat.cast_natAbs, Int.cast_abs]
      by_cases hneg : j < 0
      · have hneg' : (j : ℝ) < 0 := by exact_mod_cast hneg
        simp [hneg, abs_of_neg hneg']
      · have hpos : (0 : ℝ) ≤ j := by exact_mod_cast not_lt.mp hneg
        simp [hneg, abs_of_nonneg hpos]
    rw [rat32_eq, hmagnitude, hsign, hgrid, ← habs]
    push_cast
    ring

namespace Machine

/-- Rounding moves a number between −1 and 1 by at most half of the spacing 2^-24. -/
theorem NearestEven.close {w : Word} {r : ℝ} (h : NearestEven w r) (hr : |r| ≤ 1) : |(rat32 w : ℝ) - r| ≤ 1 / 2 ^ 25 := by
  obtain ⟨x, hx⟩ : ∃ x, x = r * 2 ^ 24 := ⟨_, rfl⟩
  have hhalf := abs_sub_round x
  have hscaled : |x| ≤ 2 ^ 24 := by
    rw [hx, abs_mul, abs_of_pos (by positivity : (0 : ℝ) < 2 ^ 24)]
    linarith
  have hround : |round x| ≤ 2 ^ 24 := by
    have hlt : |(round x : ℝ)| < 2 ^ 24 + 1 := by
      have htriangle := abs_sub_abs_le_abs_sub (round x : ℝ) x
      rw [abs_sub_comm] at htriangle
      linarith
    exact Int.lt_add_one_iff.mp (by exact_mod_cast hlt)
  obtain ⟨e, he, hvalue⟩ := exists_rat32_eq _ hround
  have hdist : (rat32 e : ℝ) - r = -(x - round x) / 2 ^ 24 := by
    rw [hvalue, hx]
    ring
  refine (h.dist_le he).trans ?_
  rw [hdist, abs_div, abs_neg, abs_of_pos (by positivity : (0 : ℝ) < 2 ^ 24)]
  linarith

/-! ## The DFT coefficient of a sequence -/

/-- The DFT coefficient at the angle `θ` of the first `n` numbers of a sequence. -/
noncomputable def dftAt (θ : ℝ) (x : ℕ → ℝ) (n : ℕ) : ℂ :=
  ∑ i ∈ Finset.range n, (x i : ℂ) * Complex.exp (-(θ * i : ℝ) * Complex.I)

theorem dftAt_succ (θ : ℝ) (x : ℕ → ℝ) (n : ℕ) :
    dftAt θ x (n + 1) = dftAt θ x n + (x n : ℂ) * Complex.exp (-(θ * n : ℝ) * Complex.I) :=
  Finset.sum_range_succ _ _

theorem dftAt_add (θ : ℝ) (x y : ℕ → ℝ) (n : ℕ) : dftAt θ (x + y) n = dftAt θ x n + dftAt θ y n := by
  simp [dftAt, add_mul, Finset.sum_add_distrib]

theorem dftAt_smul (θ a : ℝ) (x : ℕ → ℝ) (n : ℕ) : dftAt θ (fun i => a * x i) n = a * dftAt θ x n := by
  simp [dftAt, Finset.mul_sum, mul_assoc]

@[simp] theorem dftAt_zero (θ : ℝ) (n : ℕ) : dftAt θ (fun _ => 0) n = 0 := by simp [dftAt]

theorem norm_dftAt_le {θ ε : ℝ} {x : ℕ → ℝ} {n : ℕ} (h : ∀ i < n, |x i| ≤ ε) : ‖dftAt θ x n‖ ≤ n * ε := by
  have hterm : ∀ i ∈ Finset.range n, ‖(x i : ℂ) * Complex.exp (-(θ * i : ℝ) * Complex.I)‖ ≤ ε := by
    intro i hi
    rw [norm_mul, Complex.norm_real, ← Complex.ofReal_neg, Complex.norm_exp_ofReal_mul_I, mul_one]
    exact h i (Finset.mem_range.mp hi)
  calc ‖dftAt θ x n‖ ≤ ∑ _i ∈ Finset.range n, ε := norm_sum_le_of_le _ hterm
    _ = n * ε := by simp

/-! ## The recurrence computes the DFT coefficient (R193) -/

theorem goertzelRun_range_succ (ops : NumOps) (c : RNum) (f : ℕ → Word) (n : ℕ) :
    goertzelRun ops c ((List.range (n + 1)).map f) =
      goertzelStep ops c (goertzelRun ops c ((List.range n).map f)) (ops.val32 (f n)) := by
  simp [goertzelRun, List.range_succ]

/-- One iteration of R182 in the real numbers held. -/
theorem goertzelStep_value (c : RNum) (r : RNum × RNum) (w : Word) :
    (goertzelStep NumOps.exact c r (NumOps.exact.val32 w)).1.value = rat32 w + c.value * r.1.value - r.2.value ∧
      (goertzelStep NumOps.exact c r (NumOps.exact.val32 w)).2 = r.1 := by
  simp [goertzelStep, NumOps.exact, NumOps.val32]

theorem exp_mul_I_sum (θ : ℝ) :
    Complex.exp (θ * Complex.I) * (2 * Real.cos θ : ℝ) = Complex.exp (θ * Complex.I) ^ 2 + 1 := by
  have hinv : Complex.exp (θ * Complex.I) * Complex.exp (-θ * Complex.I) = 1 := by
    rw [← Complex.exp_add, ← add_mul, add_neg_cancel, zero_mul, Complex.exp_zero]
  rw [Complex.ofReal_mul, Complex.ofReal_cos, Complex.cos]
  push_cast
  linear_combination hinv

/-- With `C = 2 cos θ`, the two registers after `n` samples are the DFT coefficient, turned by `n` steps of `θ`. -/
theorem goertzelRun_dftAt {c : RNum} {θ : ℝ} (hc : c.value = 2 * Real.cos θ) (f : ℕ → Word) (n : ℕ) :
    Complex.exp (θ * Complex.I) * ((goertzelRun NumOps.exact c ((List.range n).map f)).1.value : ℂ) -
        ((goertzelRun NumOps.exact c ((List.range n).map f)).2.value : ℂ) =
      Complex.exp (θ * Complex.I) ^ n * dftAt θ (fun i => rat32 (f i)) n := by
  induction n with
  | zero => simp [goertzelRun, dftAt]
  | succ n ih =>
    obtain ⟨h1, h2⟩ := goertzelStep_value c (goertzelRun NumOps.exact c ((List.range n).map f)) (f n)
    have hturn : Complex.exp (θ * Complex.I) ^ n * Complex.exp (-(θ * n : ℝ) * Complex.I) = 1 := by
      rw [← Complex.exp_nat_mul, ← Complex.exp_add]
      push_cast
      ring_nf
      exact Complex.exp_zero
    have hsum := exp_mul_I_sum θ
    rw [goertzelRun_range_succ, h1, h2, dftAt_succ, hc]
    push_cast at hsum hturn ⊢
    linear_combination Complex.exp (θ * Complex.I) * ih +
      ((goertzelRun NumOps.exact c ((List.range n).map f)).1.value : ℂ) * hsum -
      Complex.exp (θ * Complex.I) * (rat32 (f n) : ℂ) * hturn

theorem normSq_exp_mul_sub (θ a b : ℝ) :
    Complex.normSq (Complex.exp (θ * Complex.I) * a - b) = a * a + b * b - 2 * Real.cos θ * a * b := by
  rw [Complex.normSq_apply]
  simp only [Complex.sub_re, Complex.sub_im, Complex.re_mul_ofReal, Complex.im_mul_ofReal, Complex.exp_ofReal_mul_I_re,
    Complex.exp_ofReal_mul_I_im, Complex.ofReal_re, Complex.ofReal_im, sub_zero]
  linear_combination a * a * Real.sin_sq_add_cos_sq θ

/-- The power of a block is the squared modulus of its DFT coefficient (R193). -/
theorem blockPower_value {c : RNum} {θ : ℝ} (hc : c.value = 2 * Real.cos θ) (f : ℕ → Word) (n : ℕ) :
    (blockPower NumOps.exact c ((List.range n).map f)).value = Complex.normSq (dftAt θ (fun i => rat32 (f i)) n) := by
  have hrun := congrArg Complex.normSq (goertzelRun_dftAt hc f n)
  have hunit : Complex.normSq (Complex.exp (θ * Complex.I)) = 1 := by
    rw [Complex.normSq_eq_norm_sq, Complex.norm_exp_ofReal_mul_I, one_pow]
  rw [normSq_exp_mul_sub, map_mul, map_pow, hunit, one_pow, one_mul] at hrun
  rw [← hrun, ← hc]
  simp [blockPower, powerOf, NumOps.exact]

/-! ## A tone on the bin -/

/-- The squares of the roots of unity of the bin `k` sum to 0 over a block: `2 k` is no multiple of `n`. -/
theorem geom_sum_double_bin {k n : ℕ} (hk : 0 < k) (hkn : 2 * k < n) :
    ∑ i ∈ Finset.range n, Complex.exp (-(2 * (2 * Real.pi * k / n) : ℝ) * Complex.I) ^ i = 0 := by
  have hn : (n : ℂ) ≠ 0 := by exact_mod_cast (by omega : n ≠ 0)
  have hpi : (Real.pi : ℂ) ≠ 0 := by exact_mod_cast Real.pi_ne_zero
  have hroot : Complex.exp (-(2 * (2 * Real.pi * k / n) : ℝ) * Complex.I) ^ n = 1 := by
    rw [← Complex.exp_nat_mul, Complex.exp_eq_one_iff]
    refine ⟨-(2 * k : ℕ), ?_⟩
    push_cast
    field_simp
  have hne : Complex.exp (-(2 * (2 * Real.pi * k / n) : ℝ) * Complex.I) ≠ 1 := by
    intro hone
    obtain ⟨m, hm⟩ := Complex.exp_eq_one_iff.mp hone
    have hint : -(2 * k : ℤ) = n * m := by
      push_cast at hm
      field_simp at hm
      exact_mod_cast hm
    have hdvd : (n : ℤ) ∣ (2 * k : ℕ) := ⟨-m, by push_cast; linarith⟩
    exact absurd (Nat.le_of_dvd (by omega) (Int.natCast_dvd_natCast.mp hdvd)) (by omega)
  rw [geom_sum_eq hne, hroot, sub_self, zero_div]

/-- A sine on the bin, at any phase, has a DFT coefficient of modulus `n / 2`. -/
theorem norm_dftAt_sine {k n : ℕ} (hk : 0 < k) (hkn : 2 * k < n) (m : ℕ) :
    ‖dftAt (2 * Real.pi * k / n) (fun i => Real.sin (2 * Real.pi * k / n * (m + i : ℕ))) n‖ = n / 2 := by
  have hgeom := geom_sum_double_bin hk hkn
  set θ : ℝ := 2 * Real.pi * k / n with hθ
  have hterm : ∀ i : ℕ, (Real.sin (θ * (m + i : ℕ)) : ℂ) * Complex.exp (-(θ * i : ℝ) * Complex.I) =
      Complex.I / 2 * Complex.exp (-(θ * m : ℝ) * Complex.I) * Complex.exp (-(2 * θ : ℝ) * Complex.I) ^ i -
        Complex.I / 2 * Complex.exp ((θ * m : ℝ) * Complex.I) := by
    intro i
    have hdown : Complex.exp (-(θ * (m + i)) * Complex.I) * Complex.exp (-(θ * i) * Complex.I) =
        Complex.exp (-(θ * m) * Complex.I) * Complex.exp (-(2 * θ) * Complex.I) ^ i := by
      rw [← Complex.exp_nat_mul, ← Complex.exp_add, ← Complex.exp_add]
      ring_nf
    have hup : Complex.exp (θ * (m + i) * Complex.I) * Complex.exp (-(θ * i) * Complex.I) =
        Complex.exp (θ * m * Complex.I) := by
      rw [← Complex.exp_add]
      ring_nf
    rw [Complex.ofReal_sin, Complex.sin]
    push_cast
    linear_combination Complex.I / 2 * hdown - Complex.I / 2 * hup
  have hsum : dftAt θ (fun i => Real.sin (θ * (m + i : ℕ))) n =
      -(n * (Complex.I / 2 * Complex.exp ((θ * m : ℝ) * Complex.I))) := by
    rw [dftAt, Finset.sum_congr rfl fun i _ => hterm i, Finset.sum_sub_distrib, ← Finset.mul_sum, hgeom, mul_zero,
      Finset.sum_const, Finset.card_range, nsmul_eq_mul, zero_sub]
  rw [hsum, norm_neg, norm_mul, norm_mul, Complex.norm_exp_ofReal_mul_I, norm_div, Complex.norm_I, Complex.norm_natCast]
  norm_num
  ring

end Machine

end Sys2Proof
end

section
/-! What the detector reads in a rendered timing array (`41_render.md` R171, `42_goertzel.md` R190): a tone on the bin is ON in
every block of its unit, silence is OFF. -/

namespace Sys2Proof.Machine

/-! ## The blocks of a rendered unit -/

/-- The alignment of R171 on a constructed block in the reference numerics: the unit is `BPU` whole blocks, and the tone sits
on the bin `K`, which is neither 0 nor `N` / 2. -/
structure OnBin (s : State) : Prop where
  constructed : Constructed s
  numerics : s.params.numerics = .exactReal
  blocks : 1 ≤ s.bpu.toNat
  size : s.n ≠ 0
  unit : s.spu = s.bpu.toNat * s.n.toNat
  bin : s.k * s.fs.toNat = s.n.toNat * s.f0.toNat
  low : 0 < s.k
  high : 2 * s.k < s.n.toNat

/-- What R171 leaves of the modulus 0.4 `N` of a tone, when rounding takes 2^-25 from it for each sample. -/
noncomputable abbrev toneModulus (s : State) : ℝ := 0.4 * (s.n.toNat : ℝ) - s.n.toNat / 2 ^ 25

/-- The samples of a tone on the bin from index `m` on, before rounding (R161). -/
noncomputable def pureTone (s : State) (m i : ℕ) : ℝ :=
  0.8 * Real.sin (2 * Real.pi * s.k / s.n.toNat * (m + i : ℕ))

/-- What rounding adds to each sample. -/
noncomputable def roundingError (s : State) (m i : ℕ) : ℝ :=
  rat32 (tone NumOps.exact s.omega (m + i)) - pureTone s m i

/-- The power of a block that begins at index `m` in a unit with the timing element `t`. -/
abbrev unitPower (s : State) (t : Byte) (m : ℕ) : RNum :=
  blockPower s.params.ops s.c ((List.range s.n.toNat).map fun i => sample s.params.ops s.omega t (m + i))

namespace OnBin

variable {s : State} (h : OnBin s)
include h

theorem ops : s.params.ops = NumOps.exact := ops_of_exactReal h.numerics

theorem omega : s.omega = NumOps.exact.omega s.f0.toNat s.fs.toNat := by rw [h.constructed.omega, h.ops]

/-- `OMEGA` is the angle of the bin. -/
theorem omega_value :
    (NumOps.exact.omega s.f0.toNat s.fs.toNat).value = 2 * Real.pi * (s.k : ℝ) / (s.n.toNat : ℝ) := by
  have hfs : (s.fs.toNat : ℝ) ≠ 0 := by exact_mod_cast (word_toNat_pos h.constructed.rate).ne'
  have hn : (s.n.toNat : ℝ) ≠ 0 := by exact_mod_cast (word_toNat_pos h.size).ne'
  have hbin : (s.k : ℝ) * s.fs.toNat = s.n.toNat * s.f0.toNat := by exact_mod_cast h.bin
  change 2 * Real.pi * (s.f0.toNat : ℝ) / (s.fs.toNat : ℝ) = _
  rw [div_eq_div_iff hfs hn]
  linear_combination -(2 * Real.pi) * hbin

theorem c_value : s.c.value = 2 * Real.cos (2 * Real.pi * (s.k : ℝ) / (s.n.toNat : ℝ)) := by
  rw [h.constructed.c h.size, h.ops, RNum.value_twoCos, ← h.constructed.k]

/-- Rounding takes at most 2^-25 for each sample from the modulus of a block of tone. -/
theorem norm_dftAt_tone (m : ℕ) :
    toneModulus s ≤
      ‖dftAt (2 * Real.pi * s.k / s.n.toNat) (fun i => rat32 (tone NumOps.exact s.omega (m + i))) s.n.toNat‖ := by
  have herror : ‖dftAt (2 * Real.pi * s.k / s.n.toNat) (roundingError s m) s.n.toNat‖ ≤ s.n.toNat * (1 / 2 ^ 25) := by
    refine norm_dftAt_le fun i _ => ?_
    have hnear := tone_nearest s.f0.toNat s.fs.toNat (m + i)
    rw [h.omega_value, ← h.omega] at hnear
    exact hnear.close ((abs_tone_sine_le _).trans (by norm_num))
  have hpure : ‖dftAt (2 * Real.pi * s.k / s.n.toNat) (pureTone s m) s.n.toNat‖ = 0.4 * s.n.toNat := by
    unfold pureTone
    rw [dftAt_smul, norm_mul, norm_dftAt_sine h.low h.high, Complex.norm_real, Real.norm_of_nonneg (by norm_num)]
    ring
  have hsplit : (fun i => (rat32 (tone NumOps.exact s.omega (m + i)) : ℝ)) = pureTone s m + roundingError s m := by
    funext i
    simp [roundingError]
  rw [hsplit, dftAt_add]
  refine le_trans ?_ (norm_sub_le_norm_add _ _)
  rw [hpure, toneModulus]
  linarith

/-- The power of a block of tone is at least the bound of R171. -/
theorem tone_block_power {t : Byte} (ht : isTone t = true) (m : ℕ) :
    toneModulus s ^ 2 ≤ (unitPower s t m).value := by
  have hpos : 0 ≤ toneModulus s := by
    have hn : (0 : ℝ) ≤ s.n.toNat := Nat.cast_nonneg _
    rw [toneModulus]
    linarith
  rw [unitPower, h.ops, blockPower_value h.c_value, Complex.normSq_eq_norm_sq]
  simp only [sample, ht, if_true]
  gcongr
  exact h.norm_dftAt_tone m

/-- A block of silence has no power. -/
theorem silent_block_power {t : Byte} (ht : isTone t = false) (m : ℕ) : (unitPower s t m).value = 0 := by
  have hzero : rat32 0#32 = 0 := by decide +kernel
  rw [unitPower, h.ops, blockPower_value h.c_value]
  simp [sample, ht, hzero]

theorem sample_finite (t : Byte) (m : ℕ) : isFinite32 (sample s.params.ops s.omega t m) = true := by
  unfold sample
  split
  · rw [h.ops, h.omega]
    exact (tone_nearest _ _ m).1
  · rfl

/-! ## The rendered buffer -/

/-- The buffer is `BPU` whole blocks for each unit. -/
theorem blockCount_rendered : blockCount (rendered s) = s.timLen * s.bpu.toNat := by
  rw [blockCount, rendered_pcmLen, rendered_n, h.unit, ← mul_assoc, Nat.mul_div_cancel _ (word_toNat_pos h.size)]

/-- Block `b` lies within unit `b / BPU`. -/
theorem samplesOf_rendered (hwf : spaceWf s.tim = true) {b : ℕ} (hb : b < s.timLen * s.bpu.toNat) :
    samplesOf (rendered s) b =
      (List.range s.n.toNat).map fun i =>
        sample s.params.ops s.omega (readCell (b / s.bpu.toNat) s.tim) (b * s.n.toNat + i) := by
  refine List.map_congr_left fun i hi => ?_
  have hi : i < s.n.toNat := List.mem_range.mp hi
  have hunit : (b * s.n.toNat + i) / s.spu = b / s.bpu.toNat := by
    rw [h.unit, mul_comm s.bpu.toNat, ← Nat.div_div_eq_div_mul, mul_comm b, Nat.mul_add_div (by omega),
      Nat.div_eq_of_lt hi, add_zero]
  have hbound : b * s.n.toNat + i < s.timLen * s.spu := by
    calc b * s.n.toNat + i < (b + 1) * s.n.toNat := by rw [Nat.succ_mul]; omega
      _ ≤ s.timLen * s.bpu.toNat * s.n.toNat := Nat.mul_le_mul_right _ hb
      _ = s.timLen * s.spu := by rw [h.unit, mul_assoc]
  rw [rendered_n, readCell_rendered hwf hbound, hunit]

theorem rendered_finite (hwf : spaceWf s.tim = true) : (detectInput (rendered s)).all isFinite32 = true := by
  rw [detectInput_finite_iff (store_wf _ _), h.blockCount_rendered, rendered_n, mul_assoc, ← h.unit]
  intro i hi
  rw [readCell_rendered hwf hi]
  exact h.sample_finite _ i

end OnBin

/-! ## The bits of a rendered buffer -/

/-- Where every power is at least `THON` or below `THOFF`, the scan only tells the two apart, in whatever state it began. -/
theorem scanBits_of_separated {β : Type} {thon thoff : RNum} (hmargin : thoff.value ≤ thon.value) (power : β → RNum)
    (on : β → Bool) (bs : List β) (st : Bool)
    (h : ∀ b ∈ bs, (on b = true → thon.value ≤ (power b).value) ∧ (on b = false → (power b).value < thoff.value)) :
    scanBits thon thoff st (bs.map power) = bs.map on := by
  induction bs generalizing st with
  | nil => rfl
  | cons b bs ih =>
    obtain ⟨hon, hoff⟩ := h b List.mem_cons_self
    have hbit : hysteresis thon thoff st (power b) = on b := by
      rw [Bool.eq_iff_iff, hysteresis_true_iff]
      cases hb : on b with
      | true => cases st <;> simp [hon hb, hmargin.trans (hon hb)]
      | false => cases st <;> simp [hoff hb, (hoff hb).trans_le hmargin]
    simp only [List.map_cons, scanBits, hbit, ih _ fun b' hb' => h b' (List.mem_cons_of_mem _ hb')]

/-- An explicit threshold is the ON threshold, and the OFF threshold is 0.7 of it (R186, R188). -/
theorem thresholds_of_explicit {p : Params} {theta : RNum} (hexact : p.numerics = .exactReal) (htheta : 0 < theta.value)
    (mags : List RNum) :
    thresholdOn p theta mags = theta ∧ (thresholdOff p theta).value = 7 / 10 * theta.value := by
  constructor
  · rw [thresholdOn, (isAuto_false_iff theta).mpr htheta]
    rfl
  · rw [thresholdOff, ops_of_exactReal hexact]
    simp [NumOps.exact]

theorem stretch_append (q : ℕ) (us vs : List Bool) : stretch q (us ++ vs) = stretch q us ++ stretch q vs :=
  List.flatMap_append

theorem stretch_singleton (q : ℕ) (u : Bool) : stretch q [u] = List.replicate q u := List.flatMap_singleton _ _

/-- A stretched sequence, element by element. -/
theorem stretch_range_map (q : ℕ) (f : ℕ → Bool) (len : ℕ) :
    stretch q ((List.range len).map f) = (List.range (len * q)).map fun b => f (b / q) := by
  induction len with
  | zero => simp [stretch]
  | succ len ih =>
    have hlast : ((List.range q).map fun i => f ((len * q + i) / q)) = List.replicate q (f len) := by
      refine List.eq_replicate_iff.mpr ⟨by simp, fun b hb => ?_⟩
      obtain ⟨i, hi, rfl⟩ := List.mem_map.mp hb
      have hi : i < q := List.mem_range.mp hi
      rw [mul_comm, Nat.mul_add_div (by omega), Nat.div_eq_of_lt hi, add_zero]
    rw [List.range_succ, List.map_append, List.map_singleton, stretch_append, stretch_singleton, ih, ← hlast,
      Nat.succ_mul, List.range_add, List.map_append, List.map_map]
    rfl

/-- The detector reads in a rendered buffer each unit of the timing array, stretched to its `BPU` blocks. -/
theorem OnBin.bitsFor_rendered {s : State} (h : OnBin s) (hwf : spaceWf s.tim = true) (htheta : 0 < s.theta.value)
    (hbound : s.theta.value ≤ toneModulus s ^ 2) :
    bitsFor (rendered s) (blockPowers (rendered s)) = stretch s.bpu.toNat ((timSeq s).map isTone) := by
  obtain ⟨hon, hoff⟩ := thresholds_of_explicit h.numerics htheta (blockPowers (rendered s))
  have hunits : (timSeq s).map isTone = (List.range s.timLen).map fun u => isTone (readCell u s.tim) := by
    rw [timSeq, contents_eq_map _ hwf, List.map_map]
    rfl
  rw [hunits, stretch_range_map, bitsFor, rendered_params, rendered_theta, hon, blockPowers_eq (store_wf _ _),
    h.blockCount_rendered]
  refine scanBits_of_separated (by linarith) _ _ _ _ fun b hb => ?_
  rw [rendered_params, rendered_c, h.samplesOf_rendered hwf (List.mem_range.mp hb)]
  constructor
  · intro ht
    exact hbound.trans (h.tone_block_power ht _)
  · intro ht
    rw [h.silent_block_power ht, hoff]
    linarith

end Sys2Proof.Machine
end

section
/-! What the demodulator reads in an ideal keying (`43_demod.md` R224): the words that were keyed, with one space between
them. -/

namespace Sys2Proof.Machine

/-! ## Sequences that begin and end with tone -/

/-- The sequence begins and ends with a 1. -/
def ToneEnds (bits : List Bool) : Prop := (∃ y, bits = true :: y) ∧ ∃ x, bits = x ++ [true]

theorem toneEnds_replicate {n : ℕ} (hn : 0 < n) : ToneEnds (List.replicate n true) := by
  obtain ⟨m, rfl⟩ := Nat.exists_eq_succ_of_ne_zero hn.ne'
  exact ⟨⟨_, List.replicate_succ⟩, ⟨_, List.replicate_succ'⟩⟩

theorem ToneEnds.join {x y : List Bool} (hx : ToneEnds x) (gap : List Bool) (hy : ToneEnds y) :
    ToneEnds (x ++ gap ++ y) := by
  obtain ⟨⟨x', rfl⟩, _⟩ := hx
  obtain ⟨_, y', rfl⟩ := hy
  exact ⟨⟨x' ++ gap ++ (y' ++ [true]), by simp⟩, ⟨true :: x' ++ gap ++ y', by simp⟩⟩

theorem ToneEnds.stretch {us : List Bool} (h : ToneEnds us) {q : ℕ} (hq : 0 < q) : ToneEnds (stretch q us) := by
  obtain ⟨m, rfl⟩ := Nat.exists_eq_succ_of_ne_zero hq.ne'
  obtain ⟨⟨y, hy⟩, x, hx⟩ := h
  refine ⟨⟨List.replicate m true ++ Machine.stretch (m + 1) y, ?_⟩, ⟨Machine.stretch (m + 1) x ++ List.replicate m true, ?_⟩⟩
  · rw [hy, ← List.singleton_append, stretch_append, stretch_singleton, List.replicate_succ, List.cons_append]
  · rw [hx, stretch_append, stretch_singleton, List.replicate_succ', List.append_assoc]

/-! ## A gap between two stretches of tone -/

/-- A gap between tone and tone is a run of its own (R211). -/
theorem rle_join {x y : List Bool} (hx : ToneEnds x) (hy : ToneEnds y) {gap : ℕ} (hgap : 0 < gap) :
    rle (x ++ List.replicate gap false ++ y) = rle x ++ ⟨false, gap⟩ :: rle y := by
  obtain ⟨_, x', rfl⟩ := hx
  obtain ⟨⟨y', rfl⟩, _⟩ := hy
  rw [← rle_replicate_append hgap (by decide)]
  obtain ⟨m, rfl⟩ := Nat.exists_eq_succ_of_ne_zero hgap.ne'
  rw [List.replicate_succ, List.append_assoc, List.cons_append, rle_append (by decide)]

/-- A gap of `dd` blocks or more divides the text, with a space from `wg` blocks on (R215, R217). -/
theorem demodText_join {dd wg : ℕ} {rtab : List (Pattern × Byte)} {x y : List Bool} (hx : ToneEnds x) (hy : ToneEnds y)
    {gap : ℕ} (hgap : 0 < gap) (hdd : dd ≤ gap) :
    demodText dd wg rtab (rle (x ++ List.replicate gap false ++ y)) =
      demodText dd wg rtab (rle x) ++ (if wg ≤ gap then [0x20] else []) ++ demodText dd wg rtab (rle y) := by
  rw [rle_join hx hy hgap]
  obtain ⟨_, x', rfl⟩ := hx
  obtain ⟨⟨y', rfl⟩, _⟩ := hy
  rw [demodText, List.foldl_append, List.foldl_cons, classify_gap_after_on dd wg rtab x' hdd, flush_foldl_from]

/-! ## One character -/

/-- How many units an element takes (R115). -/
def symUnits : Sym → ℕ
  | .dot => 1
  | .dash => 3

theorem symUnits_pos (x : Sym) : 0 < symUnits x := by cases x <;> decide

theorem elementUnits_eq (x : Sym) : elementUnits x = List.replicate (symUnits x) true := by cases x <;> rfl

theorem stretch_replicate (q n : ℕ) (b : Bool) : stretch q (List.replicate n b) = List.replicate (n * q) b := by
  induction n with
  | zero => simp [stretch]
  | succ n ih => rw [List.replicate_succ', stretch_append, ih, stretch_singleton, Nat.succ_mul, List.replicate_append_replicate]

/-- A keyed element is one ON run. -/
theorem rle_elementUnits {q : ℕ} (hq : 0 < q) (x : Sym) : rle (stretch q (elementUnits x)) = [⟨true, symUnits x * q⟩] := by
  obtain ⟨m, hm⟩ := Nat.exists_eq_succ_of_ne_zero (Nat.mul_pos (symUnits_pos x) hq).ne'
  rw [elementUnits_eq, stretch_replicate, hm]
  exact rle_replicate m true

/-- An element keyed at `q` blocks for each unit is read as itself: a dash is longer than two units, a dot is not. -/
theorem sym_of_stretched {q : ℕ} (hq : 0 < q) (x : Sym) :
    (if symUnits x * q < 2 * q then Sym.dot else Sym.dash) = x := by
  cases x with
  | dot => rw [symUnits, if_pos (by omega)]
  | dash => rw [symUnits, if_neg (by omega)]

theorem elementUnits_toneEnds (x : Sym) : ToneEnds (elementUnits x) := by
  rw [elementUnits_eq]
  exact toneEnds_replicate (symUnits_pos x)

theorem patternUnits_toneEnds (x : Sym) (xs : Pattern) : ToneEnds (patternUnits (x :: xs)) := by
  induction xs generalizing x with
  | nil => exact elementUnits_toneEnds x
  | cons y ys ih => exact (elementUnits_toneEnds x).join _ (ih y)

section
variable {q : ℕ} (hq : 0 < q) (wg : ℕ) (rtab : List (Pattern × Byte))
include hq

/-- A keyed pattern is read element by element: the gaps inside are one unit. -/
theorem foldl_classify_patternUnits (x : Sym) (xs : Pattern) (r : Reading) :
    (rle (stretch q (patternUnits (x :: xs)))).foldl (classify (2 * q) wg rtab) r = { r with pat := r.pat ++ x :: xs } := by
  induction xs generalizing x r with
  | nil => rw [patternUnits, rle_elementUnits hq, List.foldl_cons, List.foldl_nil, classify_on, sym_of_stretched hq]
  | cons y ys ih =>
    have hx := (elementUnits_toneEnds x).stretch hq
    have hys := (patternUnits_toneEnds y ys).stretch hq
    rw [patternUnits, stretch_append, stretch_append, stretch_replicate, one_mul, rle_join hx hys hq, rle_elementUnits hq,
      List.singleton_append, List.foldl_cons, List.foldl_cons, classify_on, classify_intra _ _ _ _ (by omega),
      sym_of_stretched hq, ih]
    simp

/-- A keyed pattern is read as its entry (R216, R219). -/
theorem demodText_patternUnits (x : Sym) (xs : Pattern) :
    demodText (2 * q) wg rtab (rle (stretch q (patternUnits (x :: xs)))) = [lookupPattern rtab (x :: xs)] := by
  rw [demodText, foldl_classify_patternUnits hq, flush_of_ne _ (by simp)]
  simp

end

/-! ## Words and messages -/

/-- The character has a pattern, which is not empty, and the table reads the pattern as the character. -/
def ReadsBack (fwd : Byte → Option Pattern) (rtab : List (Pattern × Byte)) (c : Byte) : Prop :=
  ∃ x xs, fwd c = some (x :: xs) ∧ rtab.lookup (x :: xs) = some c

section
variable {fwd : Byte → Option Pattern} {rtab : List (Pattern × Byte)}

theorem ReadsBack.toneEnds {c : Byte} (h : ReadsBack fwd rtab c) : ToneEnds (patternUnits ((fwd c).getD [])) := by
  obtain ⟨x, xs, hfwd, _⟩ := h
  rw [hfwd]
  exact patternUnits_toneEnds x xs

theorem ReadsBack.demodText {c : Byte} (h : ReadsBack fwd rtab c) {q : ℕ} (hq : 0 < q) (wg : ℕ) :
    Machine.demodText (2 * q) wg rtab (rle (stretch q (patternUnits ((fwd c).getD [])))) = [c] := by
  obtain ⟨x, xs, hfwd, hlookup⟩ := h
  rw [hfwd, Option.getD_some, demodText_patternUnits hq, lookupPattern, hlookup, Option.getD_some]

theorem wordUnits_toneEnds {c : Byte} {cs : List Byte} (h : ∀ d ∈ c :: cs, ReadsBack fwd rtab d) :
    ToneEnds (wordUnits fwd (c :: cs)) := by
  induction cs generalizing c with
  | nil => exact (h c List.mem_cons_self).toneEnds
  | cons d cs ih =>
    exact (h c List.mem_cons_self).toneEnds.join _ (ih fun e he => h e (List.mem_cons_of_mem _ he))

/-- A keyed word is read as itself: the gaps between its characters are three units. -/
theorem demodText_wordUnits {q : ℕ} (hq : 0 < q) {c : Byte} {cs : List Byte} (h : ∀ d ∈ c :: cs, ReadsBack fwd rtab d) :
    demodText (2 * q) (5 * q) rtab (rle (stretch q (wordUnits fwd (c :: cs)))) = c :: cs := by
  induction cs generalizing c with
  | nil => exact (h c List.mem_cons_self).demodText hq _
  | cons d cs ih =>
    have hc := h c List.mem_cons_self
    have hcs : ∀ e ∈ d :: cs, ReadsBack fwd rtab e := fun e he => h e (List.mem_cons_of_mem _ he)
    rw [wordUnits, stretch_append, stretch_append, stretch_replicate,
      demodText_join (hc.toneEnds.stretch hq) ((wordUnits_toneEnds hcs).stretch hq) (by omega) (by omega),
      hc.demodText hq, ih hcs, if_neg (by omega)]
    rfl

theorem messageUnits_toneEnds {w : List Byte} {ws : List (List Byte)}
    (h : ∀ v ∈ w :: ws, v ≠ [] ∧ ∀ c ∈ v, ReadsBack fwd rtab c) : ToneEnds (messageUnits fwd (w :: ws)) := by
  have hword : ToneEnds (wordUnits fwd w) := by
    obtain ⟨hw, hread⟩ := h w List.mem_cons_self
    obtain ⟨c, cs, rfl⟩ := List.exists_cons_of_ne_nil hw
    exact wordUnits_toneEnds hread
  induction ws generalizing w with
  | nil => exact hword
  | cons v ws ih =>
    have hws : ∀ u ∈ v :: ws, u ≠ [] ∧ ∀ c ∈ u, ReadsBack fwd rtab c := fun u hu => h u (List.mem_cons_of_mem _ hu)
    obtain ⟨hv, hread⟩ := hws v List.mem_cons_self
    obtain ⟨c, cs, rfl⟩ := List.exists_cons_of_ne_nil hv
    exact hword.join _ (ih hws (wordUnits_toneEnds hread))

/-- A keyed message is read as its words with one space between them: the gaps between words are seven units (R224). -/
theorem demodText_messageUnits {q : ℕ} (hq : 0 < q) {w : List Byte} {ws : List (List Byte)}
    (h : ∀ v ∈ w :: ws, v ≠ [] ∧ ∀ c ∈ v, ReadsBack fwd rtab c) :
    demodText (2 * q) (5 * q) rtab (rle (stretch q (messageUnits fwd (w :: ws)))) = messageText (w :: ws) := by
  induction ws generalizing w with
  | nil =>
    obtain ⟨hw, hread⟩ := h w List.mem_cons_self
    obtain ⟨c, cs, rfl⟩ := List.exists_cons_of_ne_nil hw
    exact demodText_wordUnits hq hread
  | cons v ws ih =>
    have hws : ∀ u ∈ v :: ws, u ≠ [] ∧ ∀ c ∈ u, ReadsBack fwd rtab c := fun u hu => h u (List.mem_cons_of_mem _ hu)
    obtain ⟨hw, hread⟩ := h w List.mem_cons_self
    obtain ⟨c, cs, rfl⟩ := List.exists_cons_of_ne_nil hw
    rw [messageUnits, stretch_append, stretch_append, stretch_replicate,
      demodText_join ((wordUnits_toneEnds hread).stretch hq) ((messageUnits_toneEnds hws).stretch hq) (by omega) (by omega),
      demodText_wordUnits hq hread, ih hws, if_pos (by omega)]
    rfl

end

/-! ## Keyable words on a constructed block -/

/-- A chip's patterns are not empty (R115). -/
theorem pattern_ne_nil {p : Params} (hp : p.wf = true) {c : Byte} {pat : Pattern} (h : p.pattern c = some pat) : pat ≠ [] := by
  simp only [Params.wf, Bool.and_eq_true, List.all_eq_true] at hp
  obtain ⟨l, l', hmorse, _⟩ := List.lookup_eq_some_iff.mp h
  have hmem : (c, pat) ∈ p.morse := by simp [hmorse]
  simpa using hp.2 _ hmem

/-- Every character that can be keyed is read back through the reverse table (R151). -/
theorem readsBack_of_supported {p : Params} (hp : p.wf = true) (htable : injectiveTable p = true) {c : Byte}
    (hc : c ∈ supportedChars) (hpat : (p.pattern c).isSome = true) : ReadsBack p.pattern (buildRtab p) c := by
  obtain ⟨pat, hpat⟩ := Option.isSome_iff_exists.mp hpat
  obtain ⟨x, xs, rfl⟩ := List.exists_cons_of_ne_nil (pattern_ne_nil hp hpat)
  exact ⟨x, xs, hpat, (buildRtab_lookup htable).mpr ⟨hc, hpat⟩⟩

/-- On a constructed block the ideal keying of words demodulates to the words (R224). -/
theorem Keyable.demodText {s : State} (hc : Constructed s) (hp : s.params.wf = true) (hbpu : 1 ≤ s.bpu.toNat)
    {words : List (List Byte)} (h : Keyable s.params words) :
    Machine.demodText s.dotDash s.wordGap s.rtab (rle (stretch s.bpu.toNat (messageUnits s.params.pattern words))) =
      messageText words := by
  obtain ⟨hne, hwords⟩ := h
  obtain ⟨w, ws, rfl⟩ := List.exists_cons_of_ne_nil hne
  rw [hc.dotDash, hc.wordGap, hc.rtab]
  refine demodText_messageUnits hbpu fun v hv => ?_
  obtain ⟨hv, hchars⟩ := hwords v hv
  exact ⟨hv, fun c hc' => readsBack_of_supported hp hc.table (hchars c hc').1 (hchars c hc').2⟩

end Sys2Proof.Machine
end

section
/-! The noiseless loopback (`41_render.md` R171): a framed payload that is keyed, rendered and decoded comes back valid. -/

namespace Sys2Proof.Machine

/-! ## A `DECODE` that reaches the deframer -/

theorem length_detected_bits (s : State) : (bitsFor s (blockPowers s)).length = blockCount s := by simp

/-- The demodulator of a `DECODE` reads the bits of its detection (R281). -/
theorem textOf_atMorse (s : State) :
    textOf (atMorse s) = demodText s.dotDash s.wordGap s.rtab (rle (bitsFor s (blockPowers s))) := by
  have hbits : bitsSeq (atMorse s) = bitsFor s (blockPowers s) := by
    have hstored := contents_store (freshResult s).bits (bitsFor s (blockPowers s))
    rwa [length_detected_bits] at hstored
  rw [textOf, runsOf, hbits]
  rfl

/-- The deframer of a `DECODE` reads the text of its demodulation (R281). -/
theorem txtSeq_atDeframe (s : State) : txtSeq (atDeframe s) = textOf (atMorse s) :=
  contents_store (atMorse s).txt (textOf (atMorse s))

theorem atDeframe_params (s : State) : (atDeframe s).params = s.params := by simp

/-- Without a block there is no bit, so text shows that there were blocks. -/
theorem not_noBlocks_of_text {s : State} (htext : textOf (atMorse s) ≠ []) : ¬noBlocks s := by
  intro hblocks
  have hcount : blockCount s = 0 := by
    rcases hblocks with hpcm | hn | hcount
    · rw [blockCount, hpcm, Nat.zero_div]
    · rw [blockCount, hn]
      exact Nat.div_zero _
    · exact hcount
  have hbits : bitsFor s (blockPowers s) = [] := List.length_eq_zero_iff.mp ((length_detected_bits s).trans hcount)
  rw [textOf_atMorse, hbits] at htext
  exact htext rfl

/-- A `DECODE` that finds text ends as the checks of its deframer end (R281). -/
theorem execDecode_of_text {s t : State} (hready : s.ready = true) (hpcm : s.pcmLen ≤ s.params.pcmMax)
    (hbits : blockCount s ≤ s.params.bitsMax) (hfinite : (detectInput s).all isFinite32 = true)
    (hband : inContestedBand s.params s.theta (blockPowers s) = false) (htext : textOf (atMorse s) ≠ [])
    (htxt : (textOf (atMorse s)).length ≤ s.params.txtMax) (hpay : (textOf (atMorse s)).length ≤ s.params.payMax + 11)
    (hchecks : deframeChecks (textOf (atMorse s)) (beginDeframe (atDeframe s)) = .next t) : execDecode s = .next t := by
  have hblocks := not_noBlocks_of_text htext
  have hdetect : detectBody (atGoertzel s) = .next (detected (atGoertzel s) (blockPowers (atGoertzel s))) := by
    refine detectBody_next.mpr ⟨hpcm, .inr ⟨hblocks, hbits, hfinite, fun hcontested => ?_, rfl⟩⟩
    exact absurd (hband.symm.trans hcontested.2) (by decide)
  have hlen : ¬(detected (atGoertzel s) (blockPowers (atGoertzel s))).bitsLen = 0 := fun h => hblocks (.inr (.inr h))
  have hdemod : demodBody (atMorse s) = .next (demodulated (atMorse s)) := demodBody_next.mpr ⟨hbits, htxt, rfl⟩
  have hlenText : ¬(demodulated (atMorse s)).txtLen = 0 := fun h => htext (List.length_eq_zero_iff.mp h)
  have hdeframe : deframeBody (atDeframe s) = .next t := by
    refine deframeBody_next.mpr ⟨htxt, hpay, ?_⟩
    rwa [txtSeq_atDeframe]
  rw [execDecode, whenReady_of_ready hready, stageGoertzel, hdetect, andThen_next_left, if_neg hlen, stageMorse, hdemod,
    andThen_next_left, if_neg hlenText]
  exact hdeframe

/-- What check 6 leaves where it passes (R255). -/
def acceptFrame (text : List Byte) (s : State) : State := { splitFrame text s with valid := true }

/-- A framed text passes every check (R251). -/
theorem deframeChecks_frameText {p : Params} {s : State} (hp : s.params = p) (payload : List Byte) :
    deframeChecks (frameText p payload) s = .next (acceptFrame (frameText p payload) s) := by
  subst hp
  have hlong : ¬(frameText s.params payload).length < 11 := by simp
  have hbody : ¬(bodyOf (frameText s.params payload)).length < 4 := by simp [length_bodyOf]
  have hcrc : payloadCrc4 s.params (payloadOf (frameText s.params payload)) = receivedCrc (frameText s.params payload) := by
    rw [payloadOf_frameText, receivedCrc_frameText]
  rw [deframeChecks, if_neg hlong, if_neg (not_not.mpr (preamble_frameText _ _)), if_neg (not_not.mpr (prosign_frameText _ _)),
    if_neg hbody, if_neg (not_not.mpr hcrc), acceptFrame]

/-! ## Keying, rendering, decoding -/

/-- The host loads a timing array of `len` units (R71). -/
def loadTiming (tim : Space Byte) (len : ℕ) (s : State) : State := { s with tim := tim, timLen := len }

/-- The state after a frame, a timing array and a rendering. -/
abbrev onAir (tim : Space Byte) (len : ℕ) (s : State) : State := rendered (loadTiming tim len (framed s))

/-- Framing and loading leave the configuration and the derived registers. -/
theorem OnBin.keyed {s : State} (h : OnBin s) (tim : Space Byte) (len : ℕ) : OnBin (loadTiming tim len (framed s)) := by
  obtain ⟨⟨hrate, hspeed, htable, homega, hspu, hdotDash, hwordGap, hk, hc, hrtab⟩, hexact, hblocks, hsize, hunit, hbin, hlow,
    hhigh⟩ := h
  exact ⟨⟨hrate, hspeed, htable, homega, hspu, hdotDash, hwordGap, hk, hc, hrtab⟩, hexact, hblocks, hsize, hunit, hbin, hlow,
    hhigh⟩

theorem onAir_params (tim : Space Byte) (len : ℕ) (s : State) : (onAir tim len s).params = s.params := rfl

/-- The text that a rendered keying of `words` decodes to. -/
theorem OnBin.textOf_onAir {s : State} (h : OnBin s) (hp : s.params.wf = true) {tim : Space Byte}
    (hwf : spaceWf tim = true) (htheta : 0 < s.theta.value)
    (hbound : s.theta.value ≤ toneModulus s ^ 2) {words : List (List Byte)}
    (hwords : Keyable s.params words) {len : ℕ}
    (hunits : (contents tim len).map isTone = messageUnits s.params.pattern words) :
    textOf (atMorse (onAir tim len s)) = messageText words := by
  have hbits : bitsFor (onAir tim len s) (blockPowers (onAir tim len s)) =
      stretch s.bpu.toNat ((contents tim len).map isTone) := (h.keyed tim len).bitsFor_rendered hwf htheta hbound
  rw [textOf_atMorse, hbits, hunits]
  exact hwords.demodText h.constructed hp h.blocks

theorem contents_map_isTone {tim : Space Byte} (hwf : spaceWf tim = true) {units : List Bool}
    (h : ∀ u (hu : u < units.length), (0 < (readCell u tim).toInt ↔ units[u] = true)) :
    (contents tim units.length).map isTone = units := by
  refine List.ext_getElem (by simp) fun u h₁ h₂ => ?_
  rw [List.getElem_map, getElem_contents hwf, Bool.eq_iff_iff, ← h u h₂, isTone, decide_eq_true_eq]

/-- What a `DECODE` of a rendered frame leaves: the payload of the frame, valid. -/
theorem OnBin.execDecode_onAir {s : State} (h : OnBin s) (hready : s.ready = true) {tim : Space Byte} (hwf : spaceWf tim = true)
    (htheta : 0 < s.theta.value) {len : ℕ} (hpcm : len * s.spu ≤ s.params.pcmMax)
    (hbits : len * s.bpu.toNat ≤ s.params.bitsMax) (hpay : s.payLen ≤ s.params.payMax)
    (htxt : s.payLen + 11 ≤ s.params.txtMax)
    (htext : textOf (atMorse (onAir tim len s)) = frameText s.params (paySeq s)) :
    execDecode (onAir tim len s) =
      .next (acceptFrame (frameText s.params (paySeq s)) (beginDeframe (atDeframe (onAir tim len s)))) := by
  have hlen : (textOf (atMorse (onAir tim len s))).length = s.payLen + 11 := by rw [htext, length_frameText, length_paySeq]
  have hkeyed := h.keyed tim len
  refine execDecode_of_text hready hpcm (hkeyed.blockCount_rendered.trans_le hbits) (hkeyed.rendered_finite hwf) ?_ ?_
    (hlen.trans_le htxt) (hlen.trans_le (Nat.add_le_add_right hpay 11)) ?_
  · rw [inContestedBand, (isAuto_false_iff (onAir tim len s).theta).mpr htheta, Bool.false_and]
  · exact List.ne_nil_of_length_pos (by omega)
  · rw [htext]
    refine deframeChecks_frameText ?_ (paySeq s)
    rw [beginDeframe_params, atDeframe_params, onAir_params]

/-- Settles O58: the bits are the stretched units, their text is the frame, and a frame deframes to its payload. -/
theorem loopbackReturnsPayload : Obligations.LoopbackReturnsPayload := by
  intro s f words hinv hexact hready hblocks hsize hunit hbin hlow hhigh htheta hbound hframe hwords hkeyed units htim hpcm hbits
    loaded hloaded hmem hload
  obtain ⟨_, hpay, htxt, rfl⟩ := execFrame_next.mp hframe
  obtain ⟨hwf, _⟩ := memWf_iff.mp hmem
  obtain ⟨_, _, _, _, _, _, hpaywf⟩ := memWf_iff.mp hinv.memory
  have honBin : OnBin s := ⟨hinv.ready hready, hexact, hblocks, hsize, hunit, hbin, hlow, hhigh⟩
  have hair : rendered loaded = onAir loaded.tim units.length s := congrArg rendered hloaded
  have hunits : (contents loaded.tim units.length).map isTone = units := contents_map_isTone hwf hload
  have htext : textOf (atMorse (onAir loaded.tim units.length s)) = frameText s.params (paySeq s) := by
    rw [honBin.textOf_onAir hinv.chip hwf htheta hbound hwords hunits, hkeyed, ← txtSeq_framed, txtSeq_eq (store_wf _ _)]
  refine ⟨onAir loaded.tim units.length s, _, ?_, honBin.execDecode_onAir hready hwf htheta hpcm hbits hpay htxt htext, rfl,
    rfl, rfl, ?_, fun i hi => ?_⟩
  · rw [← hair]
    refine execRender_of_accepted ?_ ?_ ?_ <;> rw [hloaded] <;> assumption
  · change (payloadOf (frameText s.params (paySeq s))).length = s.payLen
    rw [payloadOf_frameText, length_paySeq]
  · change readCell i (store _ (payloadOf (frameText s.params (paySeq s)))) = _
    rw [payloadOf_frameText, readCell_store, dif_pos (by rwa [length_paySeq])]
    exact getElem_contents hpaywf _

end Sys2Proof.Machine
end

section
/-! The detector statements (`42_goertzel.md`): the power of a block, the median, the thresholds and the hysteresis scan, and
what `GZMAG` and `DETECT` write and refuse. -/

namespace Sys2Proof.Machine

/-! ## The recurrence over a block (R182) -/

/-- The recurrence over block `b`, sample by sample, and its last pair. -/
theorem exists_recurrence (s : State) (b : ℕ) :
    ∃ r : ℕ → RNum × RNum, r 0 = (RNum.zero, RNum.zero) ∧
      (∀ i, i < s.n.toNat →
        r (i + 1) =
          goertzelStep s.params.ops s.c (r i) (s.params.ops.val32 (readCell (b * s.n.toNat + i) s.pcm))) ∧
      r s.n.toNat = goertzelRun s.params.ops s.c (samplesOf s b) := by
  have hlen : (samplesOf s b).length = s.n.toNat := by simp
  refine ⟨recurrenceAt s.params.ops s.c (samplesOf s b), recurrenceAt_zero _ _ _, fun i hi => ?_, ?_⟩
  · rw [recurrenceAt_succ _ _ _ (by rwa [hlen]), List.getElem_map, List.getElem_range]
  · rw [← hlen]
    exact recurrenceAt_length _ _ _

/-! ## GZMAG (R184) -/

/-- The refusals of `GZMAG` in their order. -/
theorem execGzmag_refused {b : Word} {s : State} {r : Refusal} :
    execGzmag b s = .refused r ↔
      (s.ready = false ∧ r = .notConstructed) ∨
        (s.ready = true ∧ s.params.pcmMax < s.pcmLen ∧ r = .capacity) ∨
        (s.ready = true ∧ s.pcmLen ≤ s.params.pcmMax ∧ s.n = 0 ∧ r = .zeroBlockSize) ∨
        (s.ready = true ∧ s.pcmLen ≤ s.params.pcmMax ∧ s.n ≠ 0 ∧ s.pcmLen < (b.toNat + 1) * s.n.toNat ∧
          r = .blockOutOfRange) ∨
        (s.ready = true ∧ s.pcmLen ≤ s.params.pcmMax ∧ s.n ≠ 0 ∧ (b.toNat + 1) * s.n.toNat ≤ s.pcmLen ∧
          (blockAt s b.toNat).all isFinite32 = false ∧ r = .nonFiniteSample) := by
  simp only [execGzmag, whenReady_refused, refuseIf_refused, decide_eq_true_eq, decide_eq_false_iff_not, Nat.not_lt,
    Bool.not_eq_true', Bool.not_eq_false', reduceCtorEq, and_false, or_false, and_or_left]

theorem blockAt_not_finite_iff {s : State} (hwf : spaceWf s.pcm = true) (b : ℕ) :
    (blockAt s b).all isFinite32 = false ↔
      ∃ i, i < s.n.toNat ∧ isFinite32 (readCell (b * s.n.toNat + i) s.pcm) = false := by
  rw [← Bool.not_eq_true, blockAt_finite_iff hwf]
  simp

/-- Settles O26: the refusals in their order, the fields of `measured`, and the recurrence over the samples of the block. -/
theorem gzmagRunsRecurrence : Obligations.GzmagRunsRecurrence := by
  intro s b hmem
  obtain ⟨_, hwf, _⟩ := memWf_iff.mp hmem
  refine ⟨fun hready => whenReady_of_not_ready hready _, fun hready hlong => ?capacity, fun hready hpcm hn => ?zeroSize,
    fun hready hpcm hn => ⟨fun hout => ?outOfRange, fun hin => ⟨fun hbad => ?nonFinite, fun hfinite => ?completes⟩⟩⟩
  case capacity => exact execGzmag_refused.mpr (.inr (.inl ⟨hready, hlong, rfl⟩))
  case zeroSize => exact execGzmag_refused.mpr (.inr (.inr (.inl ⟨hready, hpcm, hn, rfl⟩)))
  case outOfRange => exact execGzmag_refused.mpr (.inr (.inr (.inr (.inl ⟨hready, hpcm, hn, hout, rfl⟩))))
  case nonFinite =>
    have hblock := (blockAt_not_finite_iff hwf b.toNat).mpr hbad
    exact execGzmag_refused.mpr (.inr (.inr (.inr (.inr ⟨hready, hpcm, hn, hin, hblock, rfl⟩))))
  case completes =>
    have hblock := (blockAt_finite_iff hwf b.toNat).mpr hfinite
    obtain ⟨r, hzero, hsucc, hlast⟩ := exists_recurrence s b.toNat
    refine ⟨measured b.toNat s, r, execGzmag_next.mpr ⟨hready, hpcm, hn, hin, hblock, rfl⟩, rfl, hzero, hsucc, ?_, rfl⟩
    rw [hlast, ← blockAt_eq hwf]
    rfl

/-! ## The power in the reference numerics (R193) -/

theorem Constructed.c_value {s : State} (h : Constructed s) (hexact : s.params.numerics = .exactReal) (hn : s.n ≠ 0) :
    s.c.value = 2 * Real.cos (2 * Real.pi * s.k / s.n.toNat) := by
  rw [h.c hn, ops_of_exactReal hexact, RNum.value_twoCos, ← h.k]

/-- The power of block `b` is the squared modulus of its DFT coefficient at the bin `K`. -/
theorem Constructed.blockPower_value {s : State} (h : Constructed s) (hexact : s.params.numerics = .exactReal)
    (hn : s.n ≠ 0) (b : ℕ) :
    (blockPower s.params.ops s.c (samplesOf s b)).value =
      Complex.normSq (dftAt (2 * Real.pi * s.k / s.n.toNat)
        (fun i => rat32 (readCell (b * s.n.toNat + i) s.pcm)) s.n.toNat) := by
  rw [ops_of_exactReal hexact]
  exact Machine.blockPower_value (h.c_value hexact hn) _ _

/-- Settles O27: `MAG` is the power of block `b`, and `C` is twice the cosine of the angle of the bin. -/
theorem powerIsSquaredDftModulus : Obligations.PowerIsSquaredDftModulus := by
  intro s b hinv hexact hready hn hpcm hin hfinite
  obtain ⟨_, hwf, _⟩ := memWf_iff.mp hinv.memory
  have hblock := (blockAt_finite_iff hwf b.toNat).mpr hfinite
  refine ⟨measured b.toNat s, execGzmag_next.mpr ⟨hready, hpcm, hn, hin, hblock, rfl⟩, ?_⟩
  rw [measured_mag, blockAt_eq hwf, (hinv.ready hready).blockPower_value hexact hn]
  simp only [dftAt, div_mul_eq_mul_div]

/-! ## Hysteresis (R190 to R192) -/

/-- The rows of the table that answer OFF; `hysteresis_true_iff` has those that answer ON. -/
theorem hysteresis_false_iff (thon thoff m : RNum) (st : Bool) :
    hysteresis thon thoff st m = false ↔
      (st = true ∧ m.value < thoff.value) ∨ (st = false ∧ m.value < thon.value) := by
  rw [← Bool.not_eq_true, hysteresis_true_iff]
  cases st <;> simp

/-- Settles O31: the two rows that answer ON and the two that answer OFF. -/
theorem hysteresisTransitionTable : Obligations.HysteresisTransitionTable := by
  intro thon thoff m
  exact ⟨fun h => (hysteresis_false_iff ..).mpr (.inl ⟨rfl, h⟩), fun h => (hysteresis_true_iff ..).mpr (.inl ⟨rfl, h⟩),
    fun h => (hysteresis_true_iff ..).mpr (.inr ⟨rfl, h⟩), fun h => (hysteresis_false_iff ..).mpr (.inr ⟨rfl, h⟩)⟩

/-- Powers that set the state `v` from each state the scan can be in leave it `v` throughout. -/
theorem scanBits_eq_replicate {thon thoff : RNum} {st v : Bool} {mags : List RNum}
    (h : ∀ m ∈ mags, hysteresis thon thoff st m = v ∧ hysteresis thon thoff v m = v) :
    scanBits thon thoff st mags = List.replicate mags.length v := by
  induction mags generalizing st with
  | nil => rfl
  | cons m ms ih =>
    obtain ⟨hfirst, -⟩ := h m List.mem_cons_self
    have hrest : ∀ m' ∈ ms, hysteresis thon thoff v m' = v ∧ hysteresis thon thoff v m' = v :=
      fun m' hm' => and_self_iff.mpr (h m' (List.mem_cons_of_mem m hm')).2
    rw [scanBits, hfirst, ih hrest, List.length_cons, List.replicate_succ]

/-- Settles O32: a scan by what it does in the states it passes through. -/
theorem hysteresisMonotonicity : Obligations.HysteresisMonotonicity := by
  intro thon thoff mags hmargin
  refine ⟨fun habove => ?allOn, fun hbelow => ?allOff, fun st m hoff hon => ?deadBand⟩
  case allOn =>
    refine scanBits_eq_replicate fun m hm => ⟨?_, ?_⟩
    · exact (hysteresis_true_iff ..).mpr (.inr ⟨rfl, habove m hm⟩)
    · exact (hysteresis_true_iff ..).mpr (.inl ⟨rfl, hmargin.trans (habove m hm)⟩)
  case allOff =>
    exact scanBits_eq_replicate fun m hm => and_self_iff.mpr ((hysteresis_false_iff ..).mpr (.inr ⟨rfl, hbelow m hm⟩))
  case deadBand =>
    cases st with
    | true => exact (hysteresis_true_iff ..).mpr (.inl ⟨rfl, hoff⟩)
    | false => exact (hysteresis_false_iff ..).mpr (.inr ⟨rfl, hon⟩)

/-! ## The median (R189) -/

theorem length_sortNums (xs : List RNum) : (sortNums xs).length = xs.length := (sortNums_perm xs).length_eq

theorem getElem?_eq_numAt {xs : List RNum} {i : ℕ} (h : i < xs.length) : xs[i]? = some (numAt xs i) := by
  simp [numAt, h]

theorem medianOf_upper {p : Params} (h : p.medianRule = .upper) (mags : List RNum) :
    medianOf p mags = numAt (sortNums mags) (mags.length / 2) := by
  simp only [medianOf, h, length_sortNums]

theorem medianOf_lower {p : Params} (h : p.medianRule = .lower) (mags : List RNum) :
    medianOf p mags = numAt (sortNums mags) ((mags.length - 1) / 2) := by
  simp only [medianOf, h, length_sortNums]

theorem medianOf_mean {p : Params} (h : p.medianRule = .mean) (mags : List RNum) :
    medianOf p mags =
      p.ops.mul (p.ops.ofRat (1 / 2))
        (p.ops.add (numAt (sortNums mags) ((mags.length - 1) / 2)) (numAt (sortNums mags) (mags.length / 2))) := by
  simp only [medianOf, h, length_sortNums]

/-- Settles O33: the sorted list is `sortNums`, and `medianOf` reads it at the two middle indices. -/
theorem medianFollowsRule : Obligations.MedianFollowsRule := by
  intro p mags hne
  have hpos : 0 < mags.length := List.length_pos_iff.mpr hne
  refine ⟨sortNums mags, sortNums_perm mags, sortNums_sorted mags, numAt (sortNums mags) (mags.length / 2),
    numAt (sortNums mags) ((mags.length - 1) / 2), getElem?_eq_numAt ?_, getElem?_eq_numAt ?_,
    fun hrule => medianOf_upper hrule mags, fun hrule => medianOf_lower hrule mags, fun hrule hexact => ?mean,
    fun hodd => ?odd⟩
  · rw [length_sortNums]
    omega
  · rw [length_sortNums]
    omega
  case mean =>
    rw [medianOf_mean hrule, ops_of_exactReal hexact]
    simp only [NumOps.exact, RNum.value_mul, RNum.value_ofRat, RNum.value_add]
    push_cast
    ring
  case odd =>
    congr 1
    omega

/-! ## DETECT without a block (R185) -/

/-- There is no block exactly where the buffer holds less than one (R185 steps 1 and 2). -/
theorem noBlocks_iff (s : State) : noBlocks s ↔ s.pcmLen = 0 ∨ s.n = 0 ∨ s.pcmLen < s.n.toNat := by
  have hn : s.n.toNat = 0 ↔ s.n = 0 := BitVec.toNat_inj (y := 0)
  rw [noBlocks, blockCount, Nat.div_eq_zero_iff, hn]
  tauto

theorem not_noBlocks {s : State} (hn : s.n ≠ 0) (hfits : s.n.toNat ≤ s.pcmLen) : ¬noBlocks s := by
  have hpos := word_toNat_pos hn
  rw [noBlocks_iff]
  rintro (hpcm | hzero | hshort)
  · omega
  · exact hn hzero
  · omega

/-- Settles O28: the early return, and `BITS` emptied with its length. -/
theorem detectReturnsEmpty : Obligations.DetectReturnsEmpty := by
  intro s hready hpcm hempty
  have hnext := detectBody_next.mpr ⟨hpcm, .inl ⟨(noBlocks_iff s).mpr hempty, rfl⟩⟩
  exact ⟨noBlocksFound s, execDetect_next.mpr ⟨hready, hnext⟩, rfl, fun b => isOpen_forget s.bits b.zero_le⟩

/-! ## The refusals of DETECT (R185, R195) -/

theorem detectBody_of_blocks {s : State} (h : ¬noBlocks s) :
    detectBody s =
      refuseIf (decide (s.params.pcmMax < s.pcmLen)) .capacity
        (refuseIf (decide (s.params.bitsMax < blockCount s)) .capacity
          (refuseIf (!(detectInput s).all isFinite32) .nonFiniteSample
            (refuseIf (decide (s.params.autoZero = .refuse) && inContestedBand s.params s.theta (blockPowers s)) .contested
              (.next (detected s (blockPowers s)))))) := by
  obtain ⟨hpcm, hn, hcount⟩ : ¬s.pcmLen = 0 ∧ ¬s.n = 0 ∧ ¬blockCount s = 0 := by simpa only [not_or] using h
  rw [detectBody, if_neg (not_or.mpr ⟨hpcm, hn⟩), if_neg hcount]

/-- The refusals of a detection on at least one block, in their order. -/
theorem detectBody_refused {s : State} {r : Refusal} (h : ¬noBlocks s) :
    detectBody s = .refused r ↔
      (s.params.pcmMax < s.pcmLen ∧ r = .capacity) ∨
        (s.pcmLen ≤ s.params.pcmMax ∧ s.params.bitsMax < blockCount s ∧ r = .capacity) ∨
        (s.pcmLen ≤ s.params.pcmMax ∧ blockCount s ≤ s.params.bitsMax ∧ (detectInput s).all isFinite32 = false ∧
          r = .nonFiniteSample) ∨
        (s.pcmLen ≤ s.params.pcmMax ∧ blockCount s ≤ s.params.bitsMax ∧ (detectInput s).all isFinite32 = true ∧
          (s.params.autoZero = .refuse ∧ inContestedBand s.params s.theta (blockPowers s) = true) ∧ r = .contested) := by
  simp only [detectBody_of_blocks h, refuseIf_refused, decide_eq_true_eq, decide_eq_false_iff_not, Nat.not_lt,
    Bool.not_eq_true', Bool.not_eq_false', Bool.and_eq_true, reduceCtorEq, and_false, or_false, and_or_left]

theorem detectInput_not_finite_iff {s : State} (hwf : spaceWf s.pcm = true) :
    (detectInput s).all isFinite32 = false ↔
      ∃ i, i < blockCount s * s.n.toNat ∧ isFinite32 (readCell i s.pcm) = false := by
  rw [← Bool.not_eq_true, detectInput_finite_iff hwf]
  simp

/-- Settles O30: the refusals in their order, each condition in the words of R185 and R195. -/
theorem detectRefusesByRule : Obligations.DetectRefusesByRule := by
  intro s hmem
  obtain ⟨_, hwf, _⟩ := memWf_iff.mp hmem
  refine ⟨fun hready => whenReady_of_not_ready hready _, fun hready hlong => ?pcm, fun hready hn hfits hpcm =>
    ⟨fun hbits => ?bits, fun hbits hbad => ?nonFinite, fun hbits hfinite hrefuse htheta hmedian => ?contested⟩⟩
  case pcm =>
    rw [exec, execDetect, whenReady_of_ready hready, detectBody, decide_eq_true hlong, refuseIf_true]
  all_goals
    rw [exec, execDetect, whenReady_of_ready hready, detectBody_refused (not_noBlocks hn hfits)]
  case bits => exact .inr (.inl ⟨hpcm, hbits, rfl⟩)
  case nonFinite => exact .inr (.inr (.inl ⟨hpcm, hbits, (detectInput_not_finite_iff hwf).mpr hbad, rfl⟩))
  case contested =>
    have hband : inContestedBand s.params s.theta (blockPowers s) = true := by
      rw [inContestedBand_iff, blockPowers_eq hwf]
      exact ⟨htheta, hmedian⟩
    exact .inr (.inr (.inr ⟨hpcm, hbits, (detectInput_finite_iff hwf).mpr hfinite, ⟨hrefuse, hband⟩, rfl⟩))

/-! ## The detection (R185 to R191) -/

theorem thresholdOn_of_pos {theta : RNum} (h : 0 < theta.value) (p : Params) (mags : List RNum) :
    thresholdOn p theta mags = theta := by
  simp [thresholdOn, (isAuto_false_iff theta).mpr h]

theorem thresholdOn_of_nonpos {theta : RNum} (h : theta.value ≤ 0) (p : Params) (mags : List RNum) :
    thresholdOn p theta mags = p.ops.mul (p.ops.ofRat 3) (medianOf p mags) := by
  simp [thresholdOn, (isAuto_iff theta).mpr h]

section

variable {s : State} {ms : List RNum} {b : ℕ}

theorem readCell_mags_detected (hb : b < ms.length) : readCell b (detected s ms).mags = ms[b] := by
  rw [detected_mags, readCell_store, dif_pos hb]

theorem readCell_bits_detected (hb : b < ms.length) :
    readCell b (detected s ms).bits = (bitsFor s ms)[b]'(by rwa [length_scanBits]) := by
  rw [detected_bits, readCell_store, dif_pos]

/-- The first bit is the transition from OFF. -/
theorem readCell_bits_detected_zero (h : 0 < ms.length) :
    readCell 0 (detected s ms).bits = hysteresis (detected s ms).thon (detected s ms).thoff false ms[0] := by
  rw [readCell_bits_detected h, getElem_scanBits_zero]
  rfl

/-- Every other bit is the transition from the bit before it. -/
theorem readCell_bits_detected_succ (hb : b + 1 < ms.length) :
    readCell (b + 1) (detected s ms).bits =
      hysteresis (detected s ms).thon (detected s ms).thoff (readCell b (detected s ms).bits) ms[b + 1] := by
  rw [readCell_bits_detected hb, getElem_scanBits_succ, readCell_bits_detected (Nat.lt_of_succ_lt hb)]
  rfl

/-- `ST` ends as the last bit. -/
theorem detected_st_eq_readCell (h : 0 < ms.length) :
    (detected s ms).st = readCell (ms.length - 1) (detected s ms).bits := by
  rw [readCell_bits_detected (by omega), ← List.getD_eq_getElem _ false, List.getD_eq_getElem?_getD, detected_st,
    List.getLastD_eq_getLast?, List.getLast?_eq_getElem?, length_scanBits]

theorem isOpen_mags_detected (hb : ms.length ≤ b) : isOpen b (detected s ms).mags := isOpen_store _ hb

theorem isOpen_bits_detected (hb : ms.length ≤ b) : isOpen b (detected s ms).bits :=
  isOpen_store _ (by rwa [length_scanBits])

end

theorem getElem_blockPowers {s : State} (hwf : spaceWf s.pcm = true) {b : ℕ} (hb : b < (blockPowers s).length) :
    (blockPowers s)[b] = blockPower s.params.ops s.c (samplesOf s b) := by
  simp [blockPowers_eq hwf]

/-- A detection completes on at least one block of finite samples, outside a contested band that the chip refuses. -/
theorem execDetect_of_blocks {s : State} (hready : s.ready = true) (hn : s.n ≠ 0) (hfits : s.n.toNat ≤ s.pcmLen)
    (hpcm : s.pcmLen ≤ s.params.pcmMax) (hbits : blockCount s ≤ s.params.bitsMax)
    (hfinite : (detectInput s).all isFinite32 = true)
    (hband : s.params.autoZero = .literal ∨ 0 < s.theta.value ∨ (medianOf s.params (blockPowers s)).value ≠ 0) :
    execDetect s = .next (detected s (blockPowers s)) := by
  refine execDetect_next.mpr ⟨hready, detectBody_next.mpr ⟨hpcm, .inr ⟨not_noBlocks hn hfits, hbits, hfinite, ?_, rfl⟩⟩⟩
  rw [inContestedBand_iff]
  rintro ⟨hrefuse, htheta, hmedian⟩
  rcases hband with hliteral | hpos | hne
  · simp [hliteral] at hrefuse
  · exact htheta.not_gt hpos
  · exact hne hmedian

/-- Settles O29: the fields of `detected`, each power with its recurrence, each bit by `hysteresis_true_iff`. -/
theorem detectClassifiesBlocks : Obligations.DetectClassifiesBlocks := by
  intro s hmem hready hn hfits hpcm nb hbits hfinite power median hband
  obtain ⟨_, hwf, _⟩ := memWf_iff.mp hmem
  have hpowers : blockPowers s = (List.range nb).map power := blockPowers_eq hwf
  have hlen : (blockPowers s).length = nb := length_blockPowers s
  have hpos : 0 < (blockPowers s).length := hlen ▸ Nat.div_pos hfits (word_toNat_pos hn)
  have hpower : ∀ b (hb : b < (blockPowers s).length), (blockPowers s)[b] = power b := fun b hb => getElem_blockPowers hwf hb
  have hmedian : medianOf s.params (blockPowers s) = median := congrArg _ hpowers
  have hmags : ∀ b, b < nb → readCell b (detected s (blockPowers s)).mags = power b := fun b hb => by
    rw [readCell_mags_detected (by rwa [hlen]), hpower]
  refine ⟨detected s (blockPowers s), execDetect_of_blocks hready hn hfits hpcm hbits ((detectInput_finite_iff hwf).mpr hfinite)
    (by rwa [hmedian]), rfl, fun b hb => ⟨hmags b hb, ?recurrence⟩, fun b hb => ?beyond, fun htheta => ?explicit,
    fun htheta => ?auto, rfl, ?first, fun b hb => ?next, ?last⟩
  case recurrence =>
    obtain ⟨r, hzero, hsucc, hend⟩ := exists_recurrence s b
    refine ⟨r, hzero, hsucc, ?_⟩
    rw [hmags b hb, hend]
    rfl
  case beyond => exact ⟨isOpen_mags_detected (by rwa [hlen]), isOpen_bits_detected (by rwa [hlen])⟩
  case explicit => exact thresholdOn_of_pos htheta _ _
  case auto => rw [detected_thon, thresholdOn_of_nonpos htheta, hmedian]
  case first =>
    rw [readCell_bits_detected_zero hpos, hysteresis_true_iff, hpower]
    simp
  case next => rw [readCell_bits_detected_succ (by rwa [hlen]), hysteresis_true_iff, hpower]
  case last => rw [detected_st_eq_readCell hpos, hlen]

/-! ## The contested band under the literal reading (R195) -/

/-- Settles O34: `THON` and `THOFF` are multiples of the median 0, and no power is below 0, being a squared modulus. -/
theorem contestedBandIsAllOnes : Obligations.ContestedBandIsAllOnes := by
  intro s hinv hexact hliteral hready hn hfits hpcm nb hbits hfinite htheta hmedian
  obtain ⟨t, hnext, hframe, -, -, -, hauto, hthoff, hfirst, hstep, hlast⟩ :=
    detectClassifiesBlocks s hinv.memory hready hn hfits hpcm hbits hfinite (.inl hliteral)
  have hon : t.thon.value = 0 := by
    rw [hauto htheta, ops_of_exactReal hexact]
    simpa [NumOps.exact, ops_of_exactReal hexact] using hmedian
  have hoff : t.thoff.value = 0 := by
    rw [hthoff, ops_of_exactReal hexact]
    simp [NumOps.exact, hon]
  have hpower : ∀ b, 0 ≤ (blockPower s.params.ops s.c (samplesOf s b)).value := fun b => by
    rw [(hinv.ready hready).blockPower_value hexact hn]
    exact Complex.normSq_nonneg _
  have hones : ∀ b, b < nb → readCell b t.bits = true := by
    intro b hb
    induction b with
    | zero => exact hfirst.mpr (hon.trans_le (hpower 0))
    | succ b ih => exact (hstep b hb).mpr (.inl ⟨ih (by omega), hoff.trans_le (hpower (b + 1))⟩)
  refine ⟨t, hnext, hon, hoff, ?_, congrArg State.bitsLen hframe, hones⟩
  rw [hlast]
  exact hones _ (Nat.sub_lt (Nat.div_pos hfits (word_toNat_pos hn)) one_pos)

end Sys2Proof.Machine
end

section
/-! The demodulator statements (`43_demod.md`): the run-length encoding, what `DEMOD` writes and refuses, and the text of a
sequence of tone bits. -/

namespace Sys2Proof.Machine

/-! ## Run-length encoding (R211) -/

/-- Settles O35: a law of the encoding for each property; the first run by its shape. -/
theorem runLengthEncodingIsMaximalRuns : Obligations.RunLengthEncodingIsMaximalRuns := by
  intro bits
  refine ⟨fun r => rle_length_pos, rle_isChain bits, rle_length_sum bits, rle_flatMap bits, ?_⟩
  cases bits with
  | nil => rfl
  | cons b bits =>
    obtain ⟨n, rs, h⟩ := rle_cons_shape b bits
    rw [h]
    rfl

/-- A gap between tone and tone is a run of its own. -/
theorem rle_gap_between (x y : List Bool) {gap : ℕ} (hgap : 0 < gap) :
    rle ((x ++ [true]) ++ List.replicate gap false ++ (true :: y)) =
      rle (x ++ [true]) ++ ⟨false, gap⟩ :: rle (true :: y) := by
  rw [← rle_replicate_append hgap (by decide)]
  obtain ⟨m, rfl⟩ := Nat.exists_eq_succ_of_ne_zero hgap.ne'
  rw [List.replicate_succ, List.append_assoc, List.cons_append, rle_append (by decide)]

/-- Silence after the last tone is a run of its own. -/
theorem rle_gap_after (x : List Bool) {gap : ℕ} (hgap : 0 < gap) :
    rle ((x ++ [true]) ++ List.replicate gap false) = rle (x ++ [true]) ++ [⟨false, gap⟩] := by
  obtain ⟨m, rfl⟩ := Nat.exists_eq_succ_of_ne_zero hgap.ne'
  rw [← rle_replicate, List.replicate_succ, rle_append (by decide)]

/-! ## One more run (R214 to R219) -/

section
variable (dd wg : ℕ) (rtab : List (Pattern × Byte))

/-- The characters that a pattern can become: the values of the table, and `?` for a pattern it does not hold. -/
abbrev IsEntry (c : Byte) : Prop := c ∈ rtab.map Prod.snd ∨ c = 0x3F

theorem lookupPattern_isEntry (pat : Pattern) : IsEntry rtab (lookupPattern rtab pat) := by
  rw [lookupPattern]
  cases h : rtab.lookup pat with
  | none => exact .inr rfl
  | some c =>
    obtain ⟨l, l', rfl, -⟩ := List.lookup_eq_some_iff.mp h
    exact .inl (by simp)

theorem text_prefix_flush (r : Reading) : r.text <+: (flush rtab r).text := by
  unfold flush
  split
  · exact List.prefix_rfl
  · exact List.prefix_append _ _

theorem text_wordSpace (r : Reading) : (wordSpace r).text = r.text ++ if r.text = [] then [] else [0x20] := by
  unfold wordSpace
  split <;> simp

theorem flush_of_pat_nil {r : Reading} (h : r.pat = []) : flush rtab r = r := if_pos h

@[simp] theorem wordSpace_pat (r : Reading) : (wordSpace r).pat = r.pat := by
  unfold wordSpace
  split <;> rfl

@[simp] theorem demodText_nil : demodText dd wg rtab [] = [] := rfl

/-- One more ON run makes the text end with an entry; what stands before it was there already. -/
theorem demodText_concat_on (runs : List Run) (n : ℕ) :
    ∃ t c, demodText dd wg rtab (runs ++ [⟨true, n⟩]) = t ++ [c] ∧ t <+: demodText dd wg rtab runs ∧ IsEntry rtab c := by
  set r := runs.foldl (classify dd wg rtab) ⟨[], []⟩ with hr
  refine ⟨r.text, lookupPattern rtab (r.pat ++ [if n < dd then .dot else .dash]), ?_, text_prefix_flush rtab r,
    lookupPattern_isEntry rtab _⟩
  rw [demodText, List.foldl_append, ← hr, List.foldl_cons, List.foldl_nil, classify_on, flush_of_ne rtab (by simp)]

/-- One more OFF run adds a space to a text that is not empty, or nothing. -/
theorem demodText_concat_off (runs : List Run) (n : ℕ) :
    demodText dd wg rtab (runs ++ [⟨false, n⟩]) =
      demodText dd wg rtab runs ++ if dd ≤ n ∧ wg ≤ n ∧ demodText dd wg rtab runs ≠ [] then [0x20] else [] := by
  rw [demodText, demodText, List.foldl_append, List.foldl_cons, List.foldl_nil]
  generalize runs.foldl (classify dd wg rtab) ⟨[], []⟩ = r
  by_cases hdd : dd ≤ n
  · by_cases hwg : wg ≤ n
    · rw [classify_word dd wg rtab r hdd hwg, flush_of_pat_nil rtab (by simp), text_wordSpace]
      simp [hdd, hwg]
    · rw [classify_inter dd wg rtab r hdd (by omega), flush_of_pat_nil rtab (by simp)]
      simp [hwg]
  · rw [classify_intra dd wg rtab r (by omega)]
    simp [hdd]

/-- Each run adds at most one character. -/
theorem length_demodText_le (runs : List Run) : (demodText dd wg rtab runs).length ≤ runs.length := by
  induction runs using List.reverseRecOn with
  | nil => exact le_rfl
  | append_singleton runs run ih =>
    obtain ⟨on, n⟩ := run
    rw [List.length_append, List.length_singleton]
    cases on with
    | true =>
      obtain ⟨t, c, htext, hprefix, -⟩ := demodText_concat_on dd wg rtab runs n
      rw [htext, List.length_append, List.length_singleton]
      exact Nat.succ_le_succ (hprefix.length_le.trans ih)
    | false =>
      rw [demodText_concat_off, List.length_append]
      refine Nat.add_le_add ih ?_
      split <;> simp

/-- The text consists of entries and spaces (R222). -/
theorem mem_demodText (runs : List Run) : ∀ c ∈ demodText dd wg rtab runs, IsEntry rtab c ∨ c = 0x20 := by
  induction runs using List.reverseRecOn with
  | nil => exact fun c hc => absurd hc List.not_mem_nil
  | append_singleton runs run ih =>
    obtain ⟨on, n⟩ := run
    intro c hc
    cases on with
    | true =>
      obtain ⟨t, d, htext, hprefix, hentry⟩ := demodText_concat_on dd wg rtab runs n
      rw [htext, List.mem_append, List.mem_singleton] at hc
      rcases hc with hc | rfl
      · exact ih c (hprefix.mem hc)
      · exact .inl hentry
    | false =>
      rw [demodText_concat_off, List.mem_append] at hc
      rcases hc with hc | hc
      · exact ih c hc
      · split at hc
        · exact .inr (List.mem_singleton.mp hc)
        · exact absurd hc List.not_mem_nil

/-! ## Gaps (R215 to R217) -/

/-- Silence after the last tone: one space from `wg` blocks on. -/
theorem demodText_gap_after (hdw : dd ≤ wg) (x : List Bool) {gap : ℕ} (hgap : 0 < gap) :
    demodText dd wg rtab (rle ((x ++ [true]) ++ List.replicate gap false)) =
      demodText dd wg rtab (rle (x ++ [true])) ++ if wg ≤ gap then [0x20] else [] := by
  rw [rle_gap_after x hgap, demodText_concat_off]
  refine congrArg _ (if_congr ⟨fun h => h.2.1, fun h => ⟨hdw.trans h, h, demodText_on_ne_nil dd wg rtab x⟩⟩ rfl rfl)

/-- Silence before the first tone gives nothing. -/
theorem demodText_gap_before (y : List Bool) (gap : ℕ) :
    demodText dd wg rtab (rle (List.replicate gap false ++ (true :: y))) = demodText dd wg rtab (rle (true :: y)) := by
  obtain rfl | hgap := Nat.eq_zero_or_pos gap
  · rfl
  · have hnothing : classify dd wg rtab ⟨[], []⟩ ⟨false, gap⟩ = ⟨[], []⟩ := by
      simp [classify, flush, wordSpace]
    rw [rle_replicate_append hgap (by decide), demodText, List.foldl_cons, hnothing, demodText]

end

/-- Settles O38: the gap is a run of its own, and what it does depends on the text before it. -/
theorem demodDividesAtGaps : Obligations.DemodDividesAtGaps := by
  intro dd wg rtab x y gap hdw text
  refine ⟨fun hgap hdd => ?between, demodText_gap_before dd wg rtab y gap, demodText_gap_after dd wg rtab hdw x⟩
  change demodText dd wg rtab _ = _
  rw [rle_gap_between x y hgap, demodText, List.foldl_append, List.foldl_cons, classify_gap_after_on dd wg rtab x hdd,
    flush_foldl_from]

/-- Settles O37: the ON runs add up to the pattern, and the end of the input flushes it. -/
theorem demodReadsOneCharacter : Obligations.DemodReadsOneCharacter := by
  intro dd wg rtab marks last hmarks hlast
  rw [rle_marks marks last (fun m hm => ⟨(hmarks m hm).1, (hmarks m hm).2.1⟩) hlast, demodText,
    foldl_classify_marks dd wg rtab marks last _ fun m hm => (hmarks m hm).2.2, flush_of_ne rtab (by simp)]
  rfl

/-! ## Single spaces (R217) -/

/-- No space comes first, and none follows another. -/
structure SpacesApart (text : List Byte) : Prop where
  head : text.head? ≠ some 0x20
  chain : text.IsChain (fun a b => ¬(a = 0x20 ∧ b = 0x20))

theorem SpacesApart.of_prefix {t text : List Byte} (h : SpacesApart text) (ht : t <+: text) : SpacesApart t := by
  obtain ⟨rest, rfl⟩ := ht
  refine ⟨fun hhead => h.head ?_, h.chain.left_of_append⟩
  rw [List.head?_append, hhead, Option.some_or]

/-- A space may follow a text that does not end with one; any other character may follow in any case. -/
theorem SpacesApart.concat {text : List Byte} {c : Byte} (h : SpacesApart text)
    (hc : c = 0x20 → text ≠ [] ∧ text.getLast? ≠ some 0x20) : SpacesApart (text ++ [c]) := by
  refine ⟨?_, List.isChain_append.mpr ⟨h.chain, List.isChain_singleton c, ?_⟩⟩
  · cases text with
    | nil => exact fun hhead => (hc (Option.some.inj hhead)).1 rfl
    | cons a as => exact h.head
  · rintro a ha b hb ⟨rfl, rfl⟩
    exact (hc (Option.some.inj hb)).2 ha

/-- The last run is an OFF run of `wg` blocks or more. -/
abbrev EndsWithWordGap (wg : ℕ) (runs : List Run) : Prop :=
  ∃ r, runs.getLast? = some r ∧ r.on = false ∧ wg ≤ r.length

theorem endsWithWordGap_concat {wg : ℕ} {runs : List Run} {r : Run} :
    EndsWithWordGap wg (runs ++ [r]) ↔ r.on = false ∧ wg ≤ r.length := by
  simp [EndsWithWordGap]

section
variable {dd wg : ℕ} {rtab : List (Pattern × Byte)}

theorem IsEntry.ne_space (hrtab : ∀ e ∈ rtab, e.2 ≠ 0x20) {c : Byte} (h : IsEntry rtab c) : c ≠ 0x20 := by
  rcases h with h | rfl
  · obtain ⟨e, he, rfl⟩ := List.mem_map.mp h
    exact hrtab e he
  · decide

/-- Runs of alternating values: no two of their word gaps are neighbours, so a space is added only to a text that ends with
a character. -/
theorem spacesApart_demodText (hdw : dd ≤ wg) (hrtab : ∀ e ∈ rtab, e.2 ≠ 0x20) (runs : List Run)
    (hruns : runs.IsChain fun a b => a.on ≠ b.on) :
    SpacesApart (demodText dd wg rtab runs) ∧
      ((demodText dd wg rtab runs).getLast? = some 0x20 ↔ demodText dd wg rtab runs ≠ [] ∧ EndsWithWordGap wg runs) := by
  induction runs using List.reverseRecOn with
  | nil => exact ⟨⟨by simp, by simp⟩, by simp⟩
  | append_singleton runs run ih =>
    obtain ⟨hruns, -, halternate⟩ := List.isChain_append.mp hruns
    obtain ⟨hapart, hlast⟩ := ih hruns
    obtain ⟨on, n⟩ := run
    rw [endsWithWordGap_concat]
    cases on with
    | true =>
      obtain ⟨t, c, htext, hprefix, hentry⟩ := demodText_concat_on dd wg rtab runs n
      have hc := hentry.ne_space hrtab
      rw [htext]
      exact ⟨(hapart.of_prefix hprefix).concat fun h => absurd h hc, by simpa using hc⟩
    | false =>
      have hnoSpace : (demodText dd wg rtab runs).getLast? ≠ some 0x20 := by
        rw [Ne, hlast]
        rintro ⟨-, r, hr, hoff, -⟩
        exact halternate r hr _ rfl hoff
      rw [demodText_concat_off]
      by_cases hspace : wg ≤ n ∧ demodText dd wg rtab runs ≠ []
      · rw [if_pos ⟨hdw.trans hspace.1, hspace⟩]
        exact ⟨hapart.concat fun _ => ⟨hspace.2, hnoSpace⟩, by simp [hspace.1]⟩
      · rw [if_neg fun h => hspace h.2, List.append_nil]
        exact ⟨hapart, iff_of_false hnoSpace fun h => hspace ⟨h.2.2, h.1⟩⟩

end

/-- Settles O40: the runs of the tone bits alternate. -/
theorem demodSpacesAreSingle : Obligations.DemodSpacesAreSingle := by
  intro dd wg rtab bits hdw hrtab
  obtain ⟨⟨hhead, hchain⟩, hlast⟩ := spacesApart_demodText hdw hrtab (rle bits) (rle_isChain bits)
  exact ⟨hhead, hchain, hlast⟩

/-! ## DEMOD (R213) -/

theorem demodBody_refused {s : State} {r : Refusal} :
    demodBody s = .refused r ↔
      (s.params.bitsMax < s.bitsLen ∧ r = .capacity) ∨
        (s.bitsLen ≤ s.params.bitsMax ∧ s.params.txtMax < (textOf s).length ∧ r = .capacity) := by
  simp only [demodBody, refuseIf_refused, decide_eq_true_eq, decide_eq_false_iff_not, Nat.not_lt, reduceCtorEq, and_false,
    or_false]

theorem execDemod_of_fits {s : State} (hready : s.ready = true) (hbits : s.bitsLen ≤ s.params.bitsMax)
    (htxt : (textOf s).length ≤ s.params.txtMax) : execDemod s = .next (demodulated s) :=
  execDemod_next.mpr ⟨hready, demodBody_next.mpr ⟨hbits, htxt, rfl⟩⟩

theorem readCell_txt_demodulated {s : State} {j : ℕ} (hj : j < (textOf s).length) :
    readCell j (demodulated s).txt = (textOf s)[j] := by
  rw [demodulated_txt, readCell_store, dif_pos hj]

theorem length_textOf_le (s : State) : (textOf s).length ≤ s.bitsLen :=
  calc (textOf s).length ≤ (rle (bitsSeq s)).length := length_demodText_le _ _ _ _
    _ ≤ (bitsSeq s).length := length_rle_le _
    _ = s.bitsLen := length_contents _ _

/-- Settles O36: the fields of `demodulated`; the text is no longer than the runs, which are no more than the bits. -/
theorem demodWritesRunsAndText : Obligations.DemodWritesRunsAndText := by
  intro s hmem
  obtain ⟨_, _, _, hwf, _⟩ := memWf_iff.mp hmem
  refine ⟨fun hready => whenReady_of_not_ready hready _, fun hready hlong => ?bitsMax, fun hready hbits => ?fits⟩
  case bitsMax =>
    rw [exec, execDemod, whenReady_of_ready hready, demodBody_refused]
    exact .inl ⟨hlong, rfl⟩
  case fits =>
    intro bits text
    have hruns : runsOf s = rle bits := congrArg rle (contents_eq_map _ hwf)
    have htext : textOf s = text := congrArg _ hruns
    rw [← hruns, ← htext]
    refine ⟨fun hlong => ?txtMax, Nat.le_succ_of_le (length_textOf_le s), fun hfits =>
      ⟨demodulated s, execDemod_of_fits hready hbits hfits, rfl, ?runs, ?text, fun r => isOpen_store s.runs,
        fun j => isOpen_store s.txt⟩⟩
    case txtMax =>
      rw [exec, execDemod, whenReady_of_ready hready, demodBody_refused]
      exact .inr ⟨hbits, hlong, rfl⟩
    case runs => exact (contents_eq_map _ (store_wf _ _)).symm.trans (contents_store s.runs (runsOf s))
    case text => exact (contents_eq_map _ (store_wf _ _)).symm.trans (contents_store s.txt (textOf s))

/-! ## The alphabet of the output (R222) -/

/-- On a constructed block the entries are supported characters, `?` being one. -/
theorem Constructed.supported_of_isEntry {s : State} (h : Constructed s) {c : Byte} (hc : IsEntry s.rtab c) :
    c ∈ supportedChars := by
  rw [IsEntry, h.rtab, buildRtab_eq h.table] at hc
  rcases hc with hc | rfl
  · obtain ⟨⟨pat, c⟩, hmem, rfl⟩ := List.mem_map.mp hc
    exact (mem_reverseEntries.mp hmem).1
  · decide

theorem not_lowerCase_of_supported :
    ∀ c ∈ supportedChars ++ [0x20], ¬(0x61 ≤ c.toNat ∧ c.toNat ≤ 0x7A) := by decide

/-- Settles O39: the text consists of entries and spaces, and the entries of a constructed block are supported. -/
theorem demodOutputAlphabet : Obligations.DemodOutputAlphabet := by
  refine ⟨fun dd wg rtab bits c hc => or_assoc.mp (mem_demodText dd wg rtab (rle bits) c hc), fun s t hinv hnext j hj => ?_⟩
  obtain ⟨hready, hbody⟩ := execDemod_next.mp hnext
  obtain ⟨-, -, rfl⟩ := demodBody_next.mp hbody
  rw [readCell_txt_demodulated hj]
  have hchar : (textOf s)[j] ∈ supportedChars ∨ (textOf s)[j] = 0x20 :=
    (mem_demodText _ _ _ _ _ (List.getElem_mem hj)).imp_left (hinv.ready hready).supported_of_isEntry
  exact ⟨hchar, not_lowerCase_of_supported _ (by simpa using hchar)⟩

/-! ## Ideal keying (R224) -/

/-- The keying of words begins and ends with tone. -/
theorem Keyable.toneEnds {p : Params} (hp : p.wf = true) (htable : injectiveTable p = true) {words : List (List Byte)}
    (h : Keyable p words) : ToneEnds (messageUnits p.pattern words) := by
  obtain ⟨hne, hwords⟩ := h
  obtain ⟨w, ws, rfl⟩ := List.exists_cons_of_ne_nil hne
  refine messageUnits_toneEnds (rtab := buildRtab p) fun v hv => ?_
  obtain ⟨hv, hchars⟩ := hwords v hv
  refine ⟨hv, fun c hc => ?_⟩
  obtain ⟨hsupported, hpattern⟩ := hchars c hc
  exact readsBack_of_supported hp htable hsupported hpattern

/-- Silence of less than `wg` blocks after the last tone gives nothing. -/
theorem ToneEnds.demodText_silence {x : List Bool} (hx : ToneEnds x) {dd wg : ℕ} (hdw : dd ≤ wg)
    (rtab : List (Pattern × Byte)) {trail : ℕ} (htrail : trail < wg) :
    demodText dd wg rtab (rle (x ++ List.replicate trail false)) = demodText dd wg rtab (rle x) := by
  obtain ⟨-, x, rfl⟩ := hx
  obtain rfl | hpos := Nat.eq_zero_or_pos trail
  · rw [List.replicate_zero, List.append_nil]
  · rw [demodText_gap_after dd wg rtab hdw x hpos, if_neg (by omega), List.append_nil]

/-- Settles O42: silence below the word gap adds nothing to the text of the keying. -/
theorem idealKeyingDemodulatesToText : Obligations.IdealKeyingDemodulatesToText := by
  intro s words trail hinv hready hbpu hwords htrail bits hlen hread hfits htxt
  obtain ⟨_, _, _, hwf, _⟩ := memWf_iff.mp hinv.memory
  have hc := hinv.ready hready
  have hbits : bitsSeq s = bits := by
    refine List.ext_getElem ((length_contents _ _).trans hlen) fun b h₁ h₂ => ?_
    exact (getElem_contents hwf h₁).trans (hread b h₂)
  have hends : ToneEnds (stretch s.bpu.toNat (messageUnits s.params.pattern words)) :=
    (hwords.toneEnds hinv.chip hc.table).stretch hbpu
  have hgaps : s.dotDash ≤ s.wordGap := by
    rw [hc.dotDash, hc.wordGap]
    exact Nat.mul_le_mul_right _ (by decide)
  have htext : textOf s = messageText words := by
    rw [textOf, runsOf, hbits, hends.demodText_silence hgaps s.rtab (by rwa [hc.wordGap])]
    exact hwords.demodText hc hinv.chip hbpu
  rw [← htext] at htxt ⊢
  exact ⟨demodulated s, execDemod_of_fits hready hfits htxt, rfl, fun j hj => readCell_txt_demodulated hj⟩

end Sys2Proof.Machine
end

section
/-! The framer statements (`44_frame.md`): the checksum and its text, the framed text, the checks of `DEFRAME`, and what a
changed character does to them. -/

namespace Sys2Proof.Machine

/-! ## CRC32 (R241, R242) -/

theorem execCrc32_of_too_long {s : State} (hready : s.ready = true) (hlong : s.params.payMax < s.payLen) :
    execCrc32 s = .refused .capacity := by
  rw [execCrc32, whenReady_of_ready hready, decide_eq_true hlong, refuseIf_true]

/-- The register of R242 over the payload `xs`: before character `i` (`j` = 0), with that character xored in (`j` = 1), and
after each of its eight shifts (`j` = 2 to 9). -/
def crcRegister (xs : List Byte) (i : ℕ) : ℕ → Word
  | 0 => (xs.take i).foldl crcByte 0xFFFFFFFF
  | j + 1 => Nat.repeat crcShift j ((xs.take i).foldl crcByte 0xFFFFFFFF ^^^ (xs.getD i 0).setWidth 32)

theorem crcRegister_one {xs : List Byte} {i : ℕ} (hi : i < xs.length) :
    crcRegister xs i 1 = crcRegister xs i 0 ^^^ (xs[i]).setWidth 32 := by
  rw [← List.getD_eq_getElem xs 0 hi]
  rfl

theorem crcRegister_shift (xs : List Byte) (i : ℕ) {j : ℕ} (hj : 1 ≤ j) :
    crcRegister xs i (j + 1) = crcShift (crcRegister xs i j) := by
  obtain ⟨j, rfl⟩ := Nat.exists_eq_add_of_le' hj
  rfl

theorem crcRegister_next {xs : List Byte} {i : ℕ} (hi : i < xs.length) :
    crcRegister xs (i + 1) 0 = crcRegister xs i 9 := by
  rw [crcRegister, List.take_succ_eq_append_getElem hi, List.foldl_append, ← List.getD_eq_getElem xs 0 hi]
  rfl

theorem crc32Ieee_eq_crcRegister (xs : List Byte) : crc32Ieee xs = crcRegister xs xs.length 0 ^^^ 0xFFFFFFFF := by
  rw [crcRegister, List.take_length, crc32Ieee]

theorem crc32Of_ieee {p : Params} (hp : p.crcAlg = .ieee) (xs : List Byte) : crc32Of p xs = crc32Ieee xs := by
  rw [crc32Of, hp]

/-- Settles O43: the register of the default algorithm is `crcRegister`. -/
theorem crc32WritesChecksum : Obligations.Crc32WritesChecksum := by
  refine ⟨fun s => ⟨fun hready => whenReady_of_not_ready hready _, execCrc32_of_too_long, fun hmem hready hfits => ?writes⟩,
    fun p hp xs => ?register, ?checkValue⟩
  case writes =>
    obtain ⟨_, _, _, _, _, _, hwf⟩ := memWf_iff.mp hmem
    rw [← paySeq_eq hwf]
    exact execCrc32_next.mpr ⟨hready, hfits, rfl⟩
  case register =>
    refine ⟨crcRegister xs, rfl, fun i hi => (crcRegister_one hi).symm, fun i j _ hj _ => crcRegister_shift xs i hj,
      fun i => crcRegister_next, ?_⟩
    rw [crc32Of_ieee hp, crc32Ieee_eq_crcRegister]
  case checkValue => decide +kernel

/-! ## One changed character of a payload (R260) -/

/-- The characters that follow tell two registers apart. -/
theorem foldl_crcByte_injective {ys : List Byte} {a b : Word} (h : ys.foldl crcByte a = ys.foldl crcByte b) : a = b := by
  induction ys generalizing a b with
  | nil => exact h
  | cons y ys ih => exact (BitVec.xor_left_inj _).mp (crcByte_injective (ih h))

/-- One register tells two characters apart. -/
theorem crcByte_char_injective {a : Word} {x y : Byte} (h : crcByte a x = crcByte a y) : x = y := by
  have hwide : x.zeroExtend 32 = y.zeroExtend 32 := (BitVec.xor_right_inj _).mp (crcByte_injective h)
  simpa using congrArg (BitVec.setWidth 8) hwide

/-- Settles O50: the register is the same before the changed character, differs after it, and stays different. -/
theorem crcSeesEverySingleChange : Obligations.CrcSeesEverySingleChange := by
  intro xs i hi v hv heq
  have hset : xs.set i v = xs.take i ++ v :: xs.drop (i + 1) := List.set_eq_take_append_cons_drop.trans (if_pos hi)
  have hxs : xs = xs.take i ++ xs[i] :: xs.drop (i + 1) := by
    rw [← List.drop_eq_getElem_cons hi, List.take_append_drop]
  have hcrc : crc32Ieee (xs.take i ++ v :: xs.drop (i + 1)) = crc32Ieee (xs.take i ++ xs[i] :: xs.drop (i + 1)) := by
    rw [← hset, ← hxs, heq]
  rw [crc32Ieee_append, crc32Ieee_append, BitVec.xor_left_inj] at hcrc
  exact hv (crcByte_char_injective (foldl_crcByte_injective hcrc))

/-! ## ENCCRC (R243, R244) -/

theorem encodeCrc_hex4 {p : Params} (hp : p.crcText = .hex4) (c : Word) : encodeCrc p c = hex4 c := by
  rw [encodeCrc, hp]

theorem hexDigit_toNat :
    ∀ d : BitVec 4, (hexDigit d).toNat = if d.toNat < 10 then 0x30 + d.toNat else 0x41 + (d.toNat - 10) := by decide

/-- Settles O44: the four digits are those of the nibbles of bits 15:0. -/
theorem enccrcWritesHexDigits : Obligations.EnccrcWritesHexDigits := by
  refine ⟨fun s => ⟨fun hready => whenReady_of_not_ready hready _, fun hready => whenReady_of_ready hready _⟩, ?_⟩
  intro p c hp digit
  have hnibble (k : ℕ) : (hexDigit (c.extractLsb' k 4)).toNat = digit (c.toNat / 2 ^ k % 16) := by
    rw [hexDigit_toNat, BitVec.extractLsb'_toNat, Nat.shiftRight_eq_div_pow]
  rw [encodeCrc_hex4 hp, hex4, Quad.toList]
  simp [hnibble]

/-! ## FRAME (R250) -/

theorem execFrame_of_accepted {s : State} (hready : s.ready = true) (hpay : s.payLen ≤ s.params.payMax)
    (htxt : s.payLen + 11 ≤ s.params.txtMax) : execFrame s = .next (framed s) :=
  execFrame_next.mpr ⟨hready, hpay, htxt, rfl⟩

theorem refuseIf_of_or {a b : Prop} [Decidable a] [Decidable b] (h : a ∨ b) (r : Refusal) (k : Result) :
    refuseIf (decide a) r (refuseIf (decide b) r k) = .refused r := by
  by_cases ha : a
  · rw [decide_eq_true ha, refuseIf_true]
  · rw [decide_eq_false ha, refuseIf_false, decide_eq_true (h.resolve_left ha), refuseIf_true]

theorem execFrame_of_too_long {s : State} (hready : s.ready = true)
    (hlong : s.params.payMax < s.payLen ∨ s.params.txtMax < s.payLen + 11) : execFrame s = .refused .capacity := by
  rw [execFrame, whenReady_of_ready hready, refuseIf_of_or hlong]

/-- Settles O45: the text in `TXT` is the framed text of the payload. -/
theorem frameWritesEnvelope : Obligations.FrameWritesEnvelope := by
  intro s hmem
  obtain ⟨_, _, _, _, _, _, hwf⟩ := memWf_iff.mp hmem
  refine ⟨fun hready => whenReady_of_not_ready hready _, execFrame_of_too_long, fun hready hpay htxt => ?_⟩
  rw [← paySeq_eq hwf]
  refine ⟨framed s, execFrame_of_accepted hready hpay htxt, rfl, ?_, fun j hj => isOpen_store _ ?_⟩
  · rw [← txtSeq_eq (store_wf _ _), txtSeq_framed]
    rfl
  · rwa [length_frameText, length_paySeq]

/-! ## The checks of DEFRAME (R255) -/

/-- A text that passes checks 1 to 3: long enough, with the preamble in front and the prosign at the end. -/
structure Enveloped (text : List Byte) : Prop where
  long : 11 ≤ text.length
  preamble : text.take 4 = preamble
  prosign : text.drop (text.length - 3) = prosign

/-- What `DEFRAME` leaves of a state whose text passes checks 1 to 3: the parts of the text and the verdict of check 6. -/
def judged (text : List Byte) (s : State) : State :=
  { splitFrame text (beginDeframe s) with
    valid := decide (payloadCrc4 s.params (payloadOf text) = receivedCrc text)
    err := if payloadCrc4 s.params (payloadOf text) = receivedCrc text then .none else .crcMismatch }

theorem judged_verdict (text : List Byte) (s : State) :
    ((judged text s).crc4 = (judged text s).got4 → (judged text s).valid = true ∧ (judged text s).err = .none) ∧
      ((judged text s).crc4 ≠ (judged text s).got4 →
        (judged text s).valid = false ∧ (judged text s).err = .crcMismatch) := by
  constructor
  · exact fun h => ⟨decide_eq_true h, if_pos h⟩
  · exact fun h => ⟨decide_eq_false h, if_neg h⟩

theorem deframeChecks_of_short {text : List Byte} (h : text.length < 11) (s : State) :
    deframeChecks text s = .next { s with err := .frameShort } := by
  rw [deframeChecks, if_pos h, raise]

theorem deframeChecks_of_noPreamble {text : List Byte} (hlong : 11 ≤ text.length) (h : text.take 4 ≠ preamble) (s : State) :
    deframeChecks text s = .next { s with err := .noPreamble } := by
  rw [deframeChecks, if_neg (Nat.not_lt.mpr hlong), if_pos h, raise]

theorem deframeChecks_of_noProsign {text : List Byte} (hlong : 11 ≤ text.length) (hpre : text.take 4 = preamble)
    (h : text.drop (text.length - 3) ≠ prosign) (s : State) :
    deframeChecks text s = .next { s with err := .noProsign } := by
  rw [deframeChecks, if_neg (Nat.not_lt.mpr hlong), if_neg (not_not_intro hpre), if_pos h, raise]

theorem four_le_length_bodyOf {text : List Byte} (h : 11 ≤ text.length) : 4 ≤ (bodyOf text).length := by
  rw [length_bodyOf]
  omega

theorem Enveloped.deframeChecks {text : List Byte} (h : Enveloped text) (s : State) :
    deframeChecks text (beginDeframe s) = .next (judged text s) := by
  rw [Machine.deframeChecks, if_neg (Nat.not_lt.mpr h.long), if_neg (not_not_intro h.preamble),
    if_neg (not_not_intro h.prosign), if_neg (Nat.not_lt.mpr (four_le_length_bodyOf h.long)), beginDeframe_params, judged]
  split
  case isTrue hne => simp [raise, hne]
  case isFalse heq => simp [not_not.mp heq]

/-- Only a text with its envelope deframes as valid, and then its CRC text is the one received. -/
theorem enveloped_of_valid {text : List Byte} {s t : State}
    (h : deframeChecks text (beginDeframe s) = .next t) (hvalid : t.valid = true) :
    Enveloped text ∧ payloadCrc4 s.params (payloadOf text) = receivedCrc text ∧ t = judged text s := by
  rcases Nat.lt_or_ge text.length 11 with hshort | hlong
  · rw [deframeChecks_of_short hshort] at h
    cases h
    cases hvalid
  by_cases hpre : text.take 4 = preamble
  case neg =>
    rw [deframeChecks_of_noPreamble hlong hpre] at h
    cases h
    cases hvalid
  by_cases hpro : text.drop (text.length - 3) = prosign
  case neg =>
    rw [deframeChecks_of_noProsign hlong hpre hpro] at h
    cases h
    cases hvalid
  have henv : Enveloped text := ⟨hlong, hpre, hpro⟩
  rw [henv.deframeChecks] at h
  cases h
  exact ⟨henv, of_decide_eq_true hvalid, rfl⟩

/-! ## DEFRAME (R255, R256) -/

theorem execDeframe_of_too_long {s : State} (hready : s.ready = true)
    (hlong : s.params.txtMax < s.txtLen ∨ s.params.payMax + 11 < s.txtLen) : execDeframe s = .refused .capacity := by
  rw [execDeframe, whenReady_of_ready hready, deframeBody, refuseIf_of_or hlong]

/-- A `DEFRAME` that no capacity refuses ends as its checks end. -/
theorem execDeframe_of_fits {s t : State} (hready : s.ready = true) (htxt : s.txtLen ≤ s.params.txtMax)
    (hpay : s.txtLen ≤ s.params.payMax + 11) (h : deframeChecks (txtSeq s) (beginDeframe s) = .next t) :
    execDeframe s = .next t :=
  execDeframe_next.mpr ⟨hready, deframeBody_next.mpr ⟨htxt, hpay, h⟩⟩

theorem readCells_pay_judged (text : List Byte) (s : State) :
    ((List.range (text.length - 11)).map fun i => readCell i (judged text s).pay) = payloadOf text := by
  rw [← length_payloadOf]
  exact (contents_eq_map _ (store_wf _ _)).symm.trans (contents_store _ _)

/-- Settles O46: one lemma for each end of the checks. -/
theorem deframeChecksInOrder : Obligations.DeframeChecksInOrder := by
  intro s hmem len text
  obtain ⟨_, _, _, _, _, hwf, _⟩ := memWf_iff.mp hmem
  have htext : txtSeq s = text := txtSeq_eq hwf
  have hlen : text.length = len := htext ▸ length_txtSeq s
  refine ⟨fun hready => whenReady_of_not_ready hready _, execDeframe_of_too_long, fun hready htxt hpay => ?_⟩
  have hends {t : State} (h : deframeChecks text (beginDeframe s) = .next t) : exec .deframe s = .next t :=
    execDeframe_of_fits hready htxt hpay (htext ▸ h)
  intro endsEarly
  have hearly {e : Err} (h : deframeChecks text (beginDeframe s) = .next { beginDeframe s with err := e }) : endsEarly e :=
    ⟨_, hends h, rfl, fun i => isOpen_forget s.pay (Nat.zero_le i)⟩
  rw [← hlen]
  refine ⟨fun hshort => hearly (deframeChecks_of_short hshort _),
    fun hlong hpre => hearly (deframeChecks_of_noPreamble hlong hpre _),
    fun hlong hpre hpro => hearly (deframeChecks_of_noProsign hlong hpre hpro _), fun hlong hpre hpro => ?_⟩
  rw [← payloadOf_eq]
  exact ⟨judged text s, hends (Enveloped.deframeChecks ⟨hlong, hpre, hpro⟩ s), by rw [← length_payloadOf]; rfl,
    receivedCrc_toList hlong, readCells_pay_judged text s,
    fun i hi => isOpen_store _ (by rwa [length_payloadOf]), judged_verdict text s⟩

/-! ## The unreachable error (R257) -/

theorem Deframed.err_ne_bodyShort {s t : State} (h : Deframed s t) : t.err ≠ .bodyShort := by
  cases h with
  | early he =>
    rintro rfl
    simp at he
  | mismatch | valid => simp

theorem Leaves.err_ne_bodyShort {s t : State} {i : Instr} (h : Leaves s i t) (hi : i = .deframe ∨ i = .decode) :
    t.err ≠ .bodyShort := by
  cases h with
  | deframe ht | decode ht => exact ht.err_ne_bodyShort
  | decodeNoBlocks | decodeNoText => simp
  | _ => simp at hi

/-- Settles O47: no end of the checks leaves this error. -/
theorem bodyShortUnreachable : Obligations.BodyShortUnreachable :=
  ⟨fun _ _ _ hi h => (exec_leaves h).err_ne_bodyShort hi, fun text h => ⟨length_bodyOf text, four_le_length_bodyOf h⟩⟩

/-! ## Framing and deframing (R251) -/

/-- Settles O48: a framed text passes every check, and its parts are the payload and the payload's CRC text. -/
theorem frameThenDeframeReturnsPayload : Obligations.FrameThenDeframeReturnsPayload := by
  intro s hmem hready hpay htxt
  obtain ⟨_, _, _, _, _, _, hwf⟩ := memWf_iff.mp hmem
  let text := frameText s.params (paySeq s)
  have hpayload : payloadOf text = paySeq s := payloadOf_frameText _ _
  have hchecks : deframeChecks (txtSeq (framed s)) (beginDeframe (framed s)) =
      .next (acceptFrame text (beginDeframe (framed s))) := by
    rw [txtSeq_framed]
    exact deframeChecks_frameText (s := beginDeframe (framed s)) rfl _
  refine ⟨framed s, _, execFrame_of_accepted hready hpay htxt,
    execDeframe_of_fits hready htxt (Nat.add_le_add_right hpay 11) hchecks, rfl, rfl, ?payLen, receivedCrc_frameText _ _,
    congrArg (payloadCrc4 s.params) hpayload, fun i hi => ?pay⟩
  case payLen => exact (congrArg List.length hpayload).trans (length_paySeq s)
  case pay =>
    change readCell i (store _ (payloadOf text)) = _
    rw [hpayload, readCell_store, dif_pos (by rwa [length_paySeq])]
    exact getElem_contents hwf _

/-! ## One changed character of a framed text (R260) -/

/-- Between preamble and prosign a changed character leaves the envelope. -/
theorem Enveloped.set {text : List Byte} (h : Enveloped text) {j : ℕ} (hj : 4 ≤ j) (hj' : j < text.length - 3) (v : Byte) :
    Enveloped (text.set j v) where
  long := by simpa using h.long
  preamble := by rw [List.take_set_of_le hj, h.preamble]
  prosign := by rw [List.length_set, List.drop_set_of_lt hj', h.prosign]

/-- A change behind the payload leaves the payload. -/
theorem payloadOf_set {text : List Byte} {j : ℕ} (hj : text.length - 7 ≤ j) (v : Byte) :
    payloadOf (text.set j v) = payloadOf text := by
  rw [payloadOf_eq, payloadOf_eq, List.length_set, List.take_set_of_le hj]

/-- A change before the received CRC leaves the received CRC. -/
theorem receivedCrc_set {text : List Byte} (hlong : 11 ≤ text.length) {j : ℕ} (hj : j < text.length - 7) (v : Byte) :
    receivedCrc (text.set j v) = receivedCrc text := by
  refine toList_inj ?_
  rw [receivedCrc_toList (by simpa using hlong), receivedCrc_toList hlong, List.length_set, List.take_set,
    List.drop_set_of_lt hj]

/-- A change in the received CRC is seen there. -/
theorem receivedCrc_set_ne {text : List Byte} (hlong : 11 ≤ text.length) {j : ℕ} (hj : text.length - 7 ≤ j)
    (hj' : j < text.length - 3) {v : Byte} (hv : v ≠ text[j]) : receivedCrc (text.set j v) ≠ receivedCrc text := by
  intro heq
  have hlists := congrArg Quad.toList heq
  rw [receivedCrc_toList (by simpa using hlong), receivedCrc_toList hlong, List.length_set] at hlists
  have hchar := congrArg (fun xs : List Byte => xs[j - (text.length - 7)]?) hlists
  simp only [List.getElem?_drop, Nat.add_sub_cancel' hj, List.getElem?_take_of_lt hj'] at hchar
  rw [List.getElem?_set_self (by omega), List.getElem?_eq_getElem (by omega)] at hchar
  exact hv (Option.some.inj hchar)

/-- The host changes character `j` of `TXT` (R71). -/
def changeTxt (j : ℕ) (v : Byte) (s : State) : State := { s with txt := writeCell j v s.txt }

theorem txtSeq_changeTxt {s : State} (hwf : spaceWf s.txt = true) (j : ℕ) (v : Byte) :
    txtSeq (changeTxt j v s) = (txtSeq s).set j v := by
  have hwf' : spaceWf (changeTxt j v s).txt = true := writeCell_wf j v hwf
  refine List.ext_getElem (by simp [changeTxt]) fun k h₁ h₂ => ?_
  rw [List.getElem_set]
  refine (getElem_contents hwf' h₁).trans ?_
  split
  case isTrue heq =>
    subst heq
    exact readCell_writeCell_same _ v s.txt
  case isFalse hne =>
    refine (readCell_writeCell_other v s.txt (Ne.symm hne)).trans ?_
    exact (getElem_contents hwf _).symm

/-- Settles O49: the changed text keeps its envelope, and of payload and received CRC only one is changed. -/
theorem oneChangedCharacterIsCaught : Obligations.OneChangedCharacterIsCaught := by
  intro s t j v hinv hexec hvalid hv s'
  obtain ⟨_, _, _, _, _, hwf, _⟩ := memWf_iff.mp hinv.memory
  obtain ⟨hready, hbody⟩ := execDeframe_next.mp hexec
  obtain ⟨htxt, hpay, hchecks⟩ := deframeBody_next.mp hbody
  obtain ⟨henv, hcrc, rfl⟩ := enveloped_of_valid hchecks hvalid
  have hlen : (txtSeq s).length = s.txtLen := length_txtSeq s
  have hends (hj : 4 ≤ j) (hj' : j < s.txtLen - 3) :
      exec .deframe s' = .next (judged ((txtSeq s).set j v) s') := by
    refine execDeframe_of_fits hready htxt hpay ?_
    rw [show txtSeq s' = _ from txtSeq_changeTxt hwf j v]
    exact (henv.set hj (by rwa [hlen]) v).deframeChecks s'
  have hlong := henv.long
  rw [hlen] at hlong
  refine ⟨fun hj hj' => ?crcText, fun hj hj' => ?payload⟩
  case crcText =>
    have hne : v ≠ (txtSeq s)[j] := fun h => hv (h.trans (getElem_contents hwf _))
    have hpayload : payloadOf ((txtSeq s).set j v) = payloadOf (txtSeq s) := payloadOf_set (by rwa [hlen]) v
    have hreceived := receivedCrc_set_ne henv.long (by rwa [hlen]) (by rwa [hlen]) hne
    have hcrc4 : (judged ((txtSeq s).set j v) s').crc4 = (judged (txtSeq s) s).crc4 :=
      congrArg (payloadCrc4 s.params) hpayload
    obtain ⟨hinvalid, herr⟩ := (judged_verdict ((txtSeq s).set j v) s').2 fun h =>
      hreceived (h.symm.trans (hcrc4.trans hcrc))
    refine ⟨_, hends (by omega) hj', hinvalid, herr, hcrc4, congrArg List.length hpayload, fun i _ => ?_⟩
    exact congrArg (fun xs => readCell i (store (forget 0 s.pay) xs)) hpayload
  case payload =>
    have hgot : (judged ((txtSeq s).set j v) s').got4 = (judged (txtSeq s) s).got4 :=
      receivedCrc_set henv.long (by rwa [hlen]) v
    have hsame : (judged (txtSeq s) s).crc4 = (judged ((txtSeq s).set j v) s').got4 := hcrc.trans hgot.symm
    obtain ⟨haccept, hreject⟩ := judged_verdict ((txtSeq s).set j v) s'
    rw [← hsame] at haccept hreject
    exact ⟨_, hends hj (by omega), hgot, hreject, haccept⟩

/-! ## The CRC text (R245, R126) -/

theorem hexDigit_keyable :
    ∀ d : BitVec 4, hexDigit d ∈ supportedChars ∧ (Morse.international.lookup (hexDigit d)).isSome = true := by decide

theorem crcTextKeyable_hex4 {p : Params} (htext : p.crcText = .hex4) (hmorse : p.morse = Morse.international) :
    CrcTextKeyable p := by
  intro c x hx
  rw [encodeCrc_hex4 htext, hex4, Quad.toList] at hx
  rw [Params.pattern, hmorse]
  simp only [List.mem_cons, List.not_mem_nil, or_false] at hx
  obtain rfl | rfl | rfl | rfl := hx <;> exact hexDigit_keyable _

/-- The texts of four characters of `cs`. -/
def quadsOver (cs : List Byte) : List Quad :=
  ((cs ×ˢ cs) ×ˢ (cs ×ˢ cs)).map fun x => ⟨x.1.1, x.1.2, x.2.1, x.2.2⟩

theorem length_quadsOver (cs : List Byte) : (quadsOver cs).length = cs.length ^ 4 := by
  rw [quadsOver, List.length_map, List.length_product, List.length_product]
  ring

theorem mem_quadsOver {cs : List Byte} {q : Quad} (h : ∀ x ∈ q.toList, x ∈ cs) : q ∈ quadsOver cs := by
  simp only [Quad.toList, List.forall_mem_cons] at h
  obtain ⟨h0, h1, h2, h3, -⟩ := h
  refine List.mem_map.mpr ⟨((q.c0, q.c1), (q.c2, q.c3)), ?_, rfl⟩
  exact List.mem_product.mpr ⟨List.mem_product.mpr ⟨h0, h1⟩, List.mem_product.mpr ⟨h2, h3⟩⟩

/-- With fewer texts than checksums, two checksums share a text. -/
theorem exists_encodeCrc_eq {p : Params} {texts : List Quad} (hfew : texts.length < 2 ^ 32)
    (hmem : ∀ c, encodeCrc p c ∈ texts) : ∃ c d, c ≠ d ∧ encodeCrc p c = encodeCrc p d := by
  have hcard : texts.toFinset.card < (Finset.univ : Finset (Fin (2 ^ 32))).card := by
    rw [Finset.card_univ, Fintype.card_fin]
    exact (List.toFinset_card_le texts).trans_lt hfew
  obtain ⟨a, _, b, _, hab, heq⟩ := Finset.exists_ne_map_eq_of_card_lt_of_maps_to
    (f := fun a => encodeCrc p (BitVec.ofFin a)) hcard fun a _ => List.mem_toFinset.mpr (hmem _)
  exact ⟨_, _, fun h => hab (congrArg BitVec.toFin h), heq⟩

/-- Settles O59: the digits are supported characters, and 42^4 texts are fewer than 2^32 checksums. -/
theorem crcTextIsKeyable : Obligations.CrcTextIsKeyable := by
  refine ⟨fun p => crcTextKeyable_hex4, fun p hp => ?_, fun s t hinv hexec => ?_⟩
  · have hmem (c : Word) : encodeCrc p c ∈ quadsOver supportedChars := mem_quadsOver fun x hx => (hp c x hx).1
    have hlen : (quadsOver supportedChars).length = 42 ^ 4 := length_quadsOver supportedChars
    exact ⟨⟨_, hlen.le, hmem⟩, exists_encodeCrc_eq (by rw [hlen]; norm_num) hmem⟩
  · obtain ⟨_, _, _, rfl⟩ := execFrame_next.mp hexec
    refine ⟨length_toList _, fun x hx => ?_⟩
    obtain ⟨hsupported, hpattern⟩ := hinv.crcText _ x hx
    exact ⟨fun h => space_not_supported (h ▸ hsupported), hsupported, hpattern⟩

end Sys2Proof.Machine
end

section
/-! The decoder statements (`45_decode.md`): a `DECODE` as its three stages, the ends they come to, and what the result depends
on. -/

namespace Sys2Proof.Machine

/-! ## Silence and the empty text (R221, R283) -/

theorem mem_iff_exists_run {bits : List Bool} {b : Bool} : b ∈ bits ↔ ∃ r ∈ rle bits, r.on = b := by
  conv_lhs => rw [← rle_flatMap bits]
  rw [List.mem_flatMap]
  refine exists_congr fun r => and_congr_right fun hr => ?_
  rw [List.mem_replicate, eq_comm]
  exact and_iff_right (Nat.one_le_iff_ne_zero.mp (rle_length_pos hr))

/-- An ON run leaves a character, and an OFF run adds nothing to an empty text. -/
theorem demodText_eq_nil_iff (dd wg : ℕ) (rtab : List (Pattern × Byte)) (runs : List Run) :
    demodText dd wg rtab runs = [] ↔ ∀ r ∈ runs, r.on = false := by
  induction runs using List.reverseRecOn with
  | nil => simp
  | append_singleton runs run ih =>
    obtain ⟨on, n⟩ := run
    cases on with
    | true =>
      obtain ⟨t, c, htext, -⟩ := demodText_concat_on dd wg rtab runs n
      simp [htext]
    | false =>
      have hspace : demodText dd wg rtab (runs ++ [⟨false, n⟩]) = [] ↔ demodText dd wg rtab runs = [] := by
        rw [demodText_concat_off]
        by_cases hnil : demodText dd wg rtab runs = [] <;> simp [hnil]
      rw [hspace, ih]
      simp [or_imp, forall_and]

/-- Settles O41: the runs of the bits have the values of the bits. -/
theorem demodEmptyExactlyOnSilence : Obligations.DemodEmptyExactlyOnSilence := by
  intro dd wg rtab bits
  rw [demodText_eq_nil_iff]
  constructor
  · intro hruns b hb
    obtain ⟨r, hr, rfl⟩ := mem_iff_exists_run.mp hb
    exact hruns r hr
  · intro hbits r hr
    exact hbits r.on (mem_iff_exists_run.mpr ⟨r, hr, rfl⟩)

/-! ## Stage Goertzel (R281, R282) -/

/-- The end of a `DECODE` without a block. -/
abbrev endNoBlocks (s : State) : State := { noBlocksFound (atGoertzel s) with err := .noBlocks }

theorem detectBody_of_noBlocks {s : State} (h : noBlocks s) :
    detectBody s = refuseIf (decide (s.params.pcmMax < s.pcmLen)) .capacity (.next (noBlocksFound s)) := by
  unfold detectBody
  congr 1
  split
  case isTrue => rfl
  case isFalse hsome => rw [if_pos ((or_assoc.mpr h).resolve_left hsome)]

/-- The detection of a `DECODE` is refused as one alone would be. -/
theorem detectBody_atGoertzel_refused {s : State} {r : Refusal} (h : detectBody s = .refused r) :
    detectBody (atGoertzel s) = .refused r := by
  by_cases hblocks : noBlocks s
  · rw [detectBody_of_noBlocks hblocks, refuseIf_refused] at h
    rw [detectBody_of_noBlocks (s := atGoertzel s) hblocks, refuseIf_refused]
    exact h.imp_right fun hnext => absurd hnext.2 (by simp)
  · rw [detectBody_refused hblocks] at h
    exact (detectBody_refused (s := atGoertzel s) hblocks).mpr h

theorem execDecode_of_detect_refused {s : State} {r : Refusal} (h : execDetect s = .refused r) :
    execDecode s = .refused r := by
  rcases whenReady_refused.mp h with ⟨hready, rfl⟩ | ⟨hready, hbody⟩
  · exact whenReady_of_not_ready hready _
  · rw [execDecode, whenReady_of_ready hready, stageGoertzel, detectBody_atGoertzel_refused hbody, andThen_refused]

/-- What a completing `DETECT` leaves, by whether there is a block. -/
theorem execDetect_cases {s a : State} (h : execDetect s = .next a) :
    s.ready = true ∧ s.pcmLen ≤ s.params.pcmMax ∧
      ((noBlocks s ∧ a.bitsLen = 0 ∧ a = noBlocksFound s) ∨
        (¬noBlocks s ∧ a.bitsLen ≠ 0 ∧ a = detected s (blockPowers s) ∧
          detectBody (atGoertzel s) = .next (detected (atGoertzel s) (blockPowers s)))) := by
  obtain ⟨hready, hbody⟩ := execDetect_next.mp h
  obtain ⟨hpcm, ⟨hblocks, rfl⟩ | ⟨hblocks, hbits, hfinite, hband, rfl⟩⟩ := detectBody_next.mp hbody
  · exact ⟨hready, hpcm, .inl ⟨hblocks, rfl, rfl⟩⟩
  · exact ⟨hready, hpcm, .inr ⟨hblocks, fun hcount => hblocks (.inr (.inr hcount)), rfl,
      detectBody_next.mpr ⟨hpcm, .inr ⟨hblocks, hbits, hfinite, hband, rfl⟩⟩⟩⟩

theorem execDecode_of_noBlocks {s : State} (hready : s.ready = true) (hpcm : s.pcmLen ≤ s.params.pcmMax)
    (hblocks : noBlocks s) : execDecode s = .next (endNoBlocks s) := by
  have hbody : detectBody (atGoertzel s) = .next (noBlocksFound (atGoertzel s)) :=
    detectBody_next.mpr ⟨hpcm, .inl ⟨hblocks, rfl⟩⟩
  rw [execDecode, whenReady_of_ready hready, stageGoertzel, hbody, andThen_next_left]
  rfl

/-- Settles O52: the early end, and the spaces of the cleared lengths emptied. -/
theorem decodeOfEmptyCapture : Obligations.DecodeOfEmptyCapture := by
  intro s hready hpcm hempty
  exact ⟨endNoBlocks s, execDecode_of_noBlocks hready hpcm ((noBlocks_iff s).mpr hempty), rfl, fun i =>
    ⟨isOpen_forget _ i.zero_le, isOpen_forget _ i.zero_le, isOpen_forget _ i.zero_le, isOpen_forget _ i.zero_le⟩⟩

/-! ## Stage MorseDecode (R281, R283) -/

/-- The end of a `DECODE` without text. -/
abbrev endNoText (s : State) : State := { demodulated (atMorse s) with err := .noText }

/-- With blocks, a `DECODE` goes on with its demodulation. -/
theorem execDecode_of_blocks {s a : State} (h : execDetect s = .next a) (hbits : a.bitsLen ≠ 0) :
    execDecode s = stageMorse (detected (atGoertzel s) (blockPowers (atGoertzel s))) := by
  obtain ⟨hready, -, ⟨-, hzero, -⟩ | ⟨-, -, rfl, hbody⟩⟩ := execDetect_cases h
  · exact absurd hzero hbits
  · rw [execDecode, whenReady_of_ready hready, stageGoertzel, hbody, andThen_next_left]
    exact if_neg hbits

section
variable {a b : State}

theorem stageMorse_of_refused {r : Refusal} (h : demodBody (setStage .morseDecode a) = .refused r) :
    stageMorse a = .refused r := by
  rw [stageMorse, h, andThen_refused]

theorem stageMorse_of_noText (h : demodBody (setStage .morseDecode a) = .next b) (htext : b.txtLen = 0) :
    stageMorse a = .next { b with err := .noText } := by
  rw [stageMorse, h, andThen_next_left, if_pos htext, raise]

theorem stageMorse_of_text (h : demodBody (setStage .morseDecode a) = .next b) (htext : b.txtLen ≠ 0) :
    stageMorse a = stageDeframe b := by
  rw [stageMorse, h, andThen_next_left, if_neg htext]

end

/-- The bits that a detection leaves are those of the scan. -/
theorem bitsSeq_detected (s : State) : bitsSeq (detected s (blockPowers s)) = bitsFor s (blockPowers s) := by
  have hstored := contents_store s.bits (bitsFor s (blockPowers s))
  rwa [length_detected_bits] at hstored

theorem bitsSeq_atMorse (s : State) : bitsSeq (atMorse s) = bitsFor s (blockPowers s) := bitsSeq_detected (atGoertzel s)

theorem runsOf_atMorse (s : State) : runsOf (atMorse s) = rle (bitsFor s (blockPowers s)) :=
  congrArg rle (bitsSeq_atMorse s)

/-- The demodulation of a `DECODE` finds the text that one after a `DETECT` would find. -/
theorem runsOf_detected (s : State) : runsOf (detected s (blockPowers s)) = runsOf (atMorse s) := by
  rw [runsOf_atMorse, runsOf, bitsSeq_detected]

theorem textOf_detected (s : State) : textOf (detected s (blockPowers s)) = textOf (atMorse s) :=
  congrArg (demodText s.dotDash s.wordGap s.rtab) (runsOf_detected s)

/-- The demodulation of a `DECODE` completes where its two capacities suffice. -/
theorem demodBody_atMorse_of_fits {s : State} (hbits : blockCount s ≤ s.params.bitsMax)
    (htxt : (textOf (atMorse s)).length ≤ s.params.txtMax) : demodBody (atMorse s) = .next (demodulated (atMorse s)) :=
  demodBody_next.mpr ⟨hbits, htxt, rfl⟩

theorem length_textOf_atMorse_le (s : State) : (textOf (atMorse s)).length ≤ blockCount s := length_textOf_le (atMorse s)

theorem demodulated_txtLen_eq_zero {s : State} : (demodulated s).txtLen = 0 ↔ textOf s = [] := List.length_eq_zero_iff

/-! ## The ends of a DECODE (R281, R303, R304) -/

/-- A `DEFRAME` leaves the text, the bits and the stage; `VALID` says that there is no error. -/
theorem Deframed.verdict {s t : State} (h : Deframed s t) :
    (t.valid = true ↔ t.err = .none) ∧ t.stage = s.stage ∧ t.bitsLen = s.bitsLen ∧ t.txtLen = s.txtLen ∧
      (t.err = .none ∨ t.err = .crcMismatch ∨
        (t.err ∈ earlyErrors ∧ t.payLen = 0 ∧ t.crc = s.crc ∧ t.crc4 = s.crc4 ∧ t.got4 = s.got4)) := by
  cases h with
  | @early e he =>
    refine ⟨iff_of_false (by simp) ?_, rfl, rfl, rfl, .inr (.inr ⟨he, rfl, rfl, rfl, rfl⟩)⟩
    rintro rfl
    simp at he
  | mismatch => exact ⟨by simp, rfl, rfl, rfl, .inr (.inl rfl)⟩
  | valid => exact ⟨by simp, rfl, rfl, rfl, .inl rfl⟩

/-- A detection with blocks whose results fit is a `DECODE` that completes. -/
theorem execDecode_completes {s : State} (h : execDetect s = .next (detected s (blockPowers s)))
    (hcount : blockCount s ≠ 0) (hbits : blockCount s ≤ s.params.bitsMax) (htxt : blockCount s ≤ s.params.txtMax)
    (hpay : blockCount s ≤ s.params.payMax + 11) : ∃ t, execDecode s = .next t := by
  have hlen := length_textOf_atMorse_le s
  have hdemod := demodBody_atMorse_of_fits hbits (hlen.trans htxt)
  rw [execDecode_of_blocks h hcount]
  by_cases htext : (demodulated (atMorse s)).txtLen = 0
  · exact ⟨_, stageMorse_of_noText hdemod htext⟩
  · obtain ⟨t, ht⟩ := deframeChecks_isNext (txtSeq (atDeframe s)) (beginDeframe (atDeframe s))
    refine ⟨t, (stageMorse_of_text hdemod htext).trans ?_⟩
    exact deframeBody_next.mpr ⟨hlen.trans htxt, hlen.trans hpay, ht⟩

/-- Settles O51: the three ends of `execDecode_forms`; a `DECODE` without a block completes, and one with blocks has no more
characters than blocks. -/
theorem decodeEndsInOneStage : Obligations.DecodeEndsInOneStage := by
  refine ⟨fun s t h => ?ends, fun s hmem hready hpcm hblocks => ?completes⟩
  case ends =>
    obtain ⟨-, -, ⟨-, rfl⟩ | ⟨hblocks, htext, rfl⟩ | ⟨hblocks, htext, hchecks⟩⟩ := execDecode_forms h
    · exact ⟨by simp, .inl ⟨rfl, rfl, rfl, rfl, rfl, rfl⟩⟩
    · have hcount : blockCount s ≠ 0 := fun hzero => hblocks (.inr (.inr hzero))
      exact ⟨by simp, .inr (.inl ⟨rfl, rfl, hcount, demodulated_txtLen_eq_zero.mpr htext, rfl⟩)⟩
    · obtain ⟨hvalid, hstage, hbitsLen, htxtLen, herrors⟩ := (deframeChecks_deframed hchecks).verdict
      refine ⟨hvalid, .inr (.inr ⟨hstage, ?_, ?_, by simpa using herrors⟩)⟩
      · rw [hbitsLen]
        exact fun hcount => hblocks (.inr (.inr hcount))
      · rw [htxtLen]
        exact fun hlen => htext (demodulated_txtLen_eq_zero.mp hlen)
  case completes =>
    obtain ⟨_, hwf, _⟩ := memWf_iff.mp hmem
    by_cases hempty : noBlocks s
    · exact ⟨_, execDecode_of_noBlocks hready hpcm hempty⟩
    · obtain ⟨hn, hfits⟩ : s.n ≠ 0 ∧ s.n.toNat ≤ s.pcmLen := by
        rw [noBlocks_iff] at hempty
        push Not at hempty
        exact hempty.2
      obtain ⟨hbits, htxt, hpay, hfinite, hband⟩ := hblocks hn hfits
      have hdetect : execDetect s = .next (detected s (blockPowers s)) := by
        refine execDetect_of_blocks hready hn hfits hpcm hbits ((detectInput_finite_iff hwf).mpr hfinite) ?_
        rw [blockPowers_eq hwf]
        exact hband
      exact execDecode_completes hdetect (fun hcount => hempty (.inr (.inr hcount))) hbits (Nat.le_of_succ_le htxt)
        (Nat.le_of_succ_le hpay)

/-! ## A silent capture (R283) -/

/-- Powers below an explicit threshold give no tone bit. -/
theorem bitsFor_of_below {s : State} (htheta : 0 < s.theta.value) {ms : List RNum}
    (h : ∀ m ∈ ms, m.value < s.theta.value) : bitsFor s ms = List.replicate ms.length false := by
  rw [bitsFor, thresholdOn_of_pos htheta]
  exact scanBits_eq_replicate fun m hm => and_self_iff.mpr ((hysteresis_false_iff ..).mpr (.inr ⟨rfl, h m hm⟩))

/-- Settles O53: all bits are 0, so there is one OFF run and no text. -/
theorem decodeOfSilentCapture : Obligations.DecodeOfSilentCapture := by
  intro s hmem hready hn hfits hpcm nb hbits hfinite htheta power hbelow
  obtain ⟨_, hwf, _⟩ := memWf_iff.mp hmem
  have hpos : 0 < nb := Nat.div_pos hfits (word_toNat_pos hn)
  have hlen : (blockPowers s).length = nb := length_blockPowers s
  have hpower : ∀ b (hb : b < (blockPowers s).length), (blockPowers s)[b] = power b := fun b hb => getElem_blockPowers hwf hb
  have hsilent : bitsFor s (blockPowers s) = List.replicate nb false := by
    rw [bitsFor_of_below htheta, hlen]
    intro m hm
    obtain ⟨b, hb, rfl⟩ := List.getElem_of_mem hm
    rw [hpower]
    exact hbelow b (hlen ▸ hb)
  have hruns : runsOf (atMorse s) = [⟨false, nb⟩] := by
    obtain ⟨k, hk⟩ := Nat.exists_eq_succ_of_ne_zero hpos.ne'
    rw [runsOf_atMorse, hsilent, hk, rle_replicate]
  have htext : textOf (atMorse s) = [] := by
    rw [textOf, hruns, demodText_eq_nil_iff]
    simp
  have hdetect := execDetect_of_blocks hready hn hfits hpcm hbits ((detectInput_finite_iff hwf).mpr hfinite)
    (.inr (.inl htheta))
  have hdemod := demodBody_atMorse_of_fits (s := s) hbits (by simp [htext])
  refine ⟨endNoText s, ?completes, rfl, rfl, rfl, rfl, fun b hb => ⟨?bits, ?mags⟩, thresholdOn_of_pos htheta _ _, ?thoff, ?st,
    congrArg List.length hruns, ?run, congrArg List.length htext, rfl, fun i => ⟨?txt, isOpen_forget _ i.zero_le⟩⟩
  case completes =>
    exact (execDecode_of_blocks hdetect hpos.ne').trans
      (stageMorse_of_noText hdemod (demodulated_txtLen_eq_zero.mpr htext))
  case bits =>
    change readCell b (store _ (bitsFor s (blockPowers s))) = false
    simp [hsilent, readCell_store, hb]
  case mags => exact (readCell_mags_detected (s := atGoertzel s) (ms := blockPowers s) (by rwa [hlen])).trans (hpower b _)
  case thoff => exact congrArg (thresholdOff s.params) (thresholdOn_of_pos htheta _ _)
  case st =>
    change (bitsFor s (blockPowers s)).getLastD false = false
    rw [hsilent]
    cases nb <;> simp [List.getLastD_eq_getLast?, List.getLast?_replicate]
  case run =>
    change readCell 0 (store _ (runsOf (atMorse s))) = _
    rw [hruns, readCell_store]
    rfl
  case txt => exact isOpen_store _ (by simp [htext])

/-! ## The staged sequence (R290) -/

theorem forget_zero {α : Type} (m : Space α) : forget 0 m = ⟨[], nextSeed m.seed⟩ := by
  rw [forget]
  simp

/-- The demodulation of a `DECODE` is refused as one after a `DETECT` would be. -/
theorem demodBody_atMorse_refused {s : State} {r : Refusal}
    (h : demodBody (detected s (blockPowers s)) = .refused r) : demodBody (atMorse s) = .refused r := by
  rw [demodBody_refused, textOf_detected] at h
  exact demodBody_refused.mpr h

theorem deframeBody_refused {s : State} {r : Refusal} :
    deframeBody s = .refused r ↔
      (s.params.txtMax < s.txtLen ∧ r = .capacity) ∨
        (s.txtLen ≤ s.params.txtMax ∧ s.params.payMax + 11 < s.txtLen ∧ r = .capacity) := by
  obtain ⟨t, ht⟩ := deframeChecks_isNext (txtSeq s) (beginDeframe s)
  simp only [deframeBody, ht, refuseIf_refused, decide_eq_true_eq, decide_eq_false_iff_not, Nat.not_lt, reduceCtorEq,
    and_false, or_false]

/-- How two deframings of one text end, side by side: both early, or both with the frame split. -/
inductive SameEnd (text : List Byte) (x y : State) : State → State → Prop
  | early (e : Err) : SameEnd text x y { x with err := e } { y with err := e }
  | split (v : Bool) (e : Err) :
    SameEnd text x y { splitFrame text x with valid := v, err := e } { splitFrame text y with valid := v, err := e }

/-- The checks of `DEFRAME` depend on the text and the chip alone (R255). -/
theorem deframeChecks_sameEnd {text : List Byte} {x y c : State} (hparams : y.params = x.params)
    (h : deframeChecks text (beginDeframe x) = .next c) :
    ∃ d, deframeChecks text (beginDeframe y) = .next d ∧ SameEnd text (beginDeframe x) (beginDeframe y) c d := by
  have hbegin : (beginDeframe y).params = (beginDeframe x).params := hparams
  unfold deframeChecks at h ⊢
  rw [hbegin]
  split_ifs at h ⊢
  -- checks 1 to 4 end early, check 6 after the split
  iterate 4 exact ⟨_, rfl, raise_next.mp h ▸ .early _⟩
  · exact ⟨_, rfl, raise_next.mp h ▸ .split false .crcMismatch⟩
  · cases h
    exact ⟨_, rfl, .split true .none⟩

theorem txtSeq_demodulated (s : State) : txtSeq (demodulated s) = textOf s := contents_store s.txt (textOf s)

/-- The state that `DETECT` with blocks and `DEMOD` leave. -/
abbrev afterDemod (s : State) : State := demodulated (detected s (blockPowers s))

theorem txtLen_atDeframe (s : State) : (atDeframe s).txtLen = (afterDemod s).txtLen :=
  congrArg List.length (textOf_detected s).symm

theorem txtSeq_afterDemod (s : State) : txtSeq (afterDemod s) = txtSeq (atDeframe s) := by
  rw [txtSeq_demodulated, txtSeq_atDeframe, textOf_detected]

/-- After a detection, the demodulation of a `DECODE` leaves what `DEMOD` leaves, but for what R288 clears. -/
theorem sameButOpen_demodulated (s : State) :
    SameButOpen
      { afterDemod s with
        stage := .morseDecode, err := .none, valid := false, payLen := 0, pay := forget 0 (afterDemod s).pay }
      (demodulated (atMorse s)) := by
  simp only [SameButOpen, demodulated, runsOf_detected, textOf_detected]
  rfl

theorem SameButOpen.withErr {x y : State} (h : SameButOpen x y) (e : Err) :
    SameButOpen { x with err := e } { y with err := e } := by
  have herr := congrArg (fun z : State => { z with err := e }) h
  exact herr

/-- The deframer of a `DECODE` begins where `DEFRAME` begins. -/
theorem sameButOpen_beginDeframe (s : State) :
    SameButOpen { beginDeframe (afterDemod s) with stage := .deframe } (beginDeframe (atDeframe s)) := by
  have h := congrArg (fun x => beginDeframe (setStage .deframe x)) (sameButOpen_demodulated s)
  simpa [SameButOpen, beginDeframe, setStage, forget_zero] using h

/-- The same end of the checks, from states that agree but for the open elements. -/
theorem SameEnd.sameButOpen {text : List Byte} {x y c d : State} (h : SameEnd text x y c d)
    (hxy : SameButOpen { x with stage := .deframe } y) : SameButOpen { c with stage := .deframe } d := by
  cases h with
  | early e => exact hxy.withErr e
  | split v e => exact congrArg (fun z => { splitFrame text z with valid := v, err := e }) hxy

theorem deframeBody_atDeframe_refused {s : State} {r : Refusal} (h : deframeBody (afterDemod s) = .refused r) :
    deframeBody (atDeframe s) = .refused r := by
  rw [deframeBody_refused, ← txtLen_atDeframe] at h
  exact deframeBody_refused.mpr h

theorem deframeBody_atDeframe_next {s c : State} (h : deframeBody (afterDemod s) = .next c) :
    ∃ d, deframeBody (atDeframe s) = .next d ∧ SameButOpen { c with stage := .deframe } d := by
  obtain ⟨htxt, hpay, hchecks⟩ := deframeBody_next.mp h
  rw [← txtLen_atDeframe] at htxt hpay
  rw [txtSeq_afterDemod] at hchecks
  obtain ⟨d, hd, hsame⟩ := deframeChecks_sameEnd (y := atDeframe s) (by simp) hchecks
  exact ⟨d, deframeBody_next.mpr ⟨htxt, hpay, hd⟩, hsame.sameButOpen (sameButOpen_beginDeframe s)⟩

/-- Settles O54: each stage is refused and ends as its operation does on the state that the operations before it left. -/
theorem decodeIsTheStagedSequence : Obligations.DecodeIsTheStagedSequence := by
  intro s
  refine ⟨fun r => execDecode_of_detect_refused, fun a ha => ?_⟩
  obtain ⟨hready, hpcm, ⟨hblocks, hzero, rfl⟩ | ⟨-, hbits, rfl, -⟩⟩ := execDetect_cases ha
  · refine ⟨fun _ => ⟨endNoBlocks s, execDecode_of_noBlocks hready hpcm hblocks, ?_⟩, fun hsome => absurd hzero hsome⟩
    simp [SameButOpen, noBlocksFound, setStage, freshResult, forget_zero]
  -- from here on `DECODE` is its stage MorseDecode
  have hdecode {o : Result} (h : stageMorse (detected (atGoertzel s) (blockPowers (atGoertzel s))) = o) :
      exec .decode s = o := (execDecode_of_blocks ha hbits).trans h
  refine ⟨fun hnone => absurd hnone hbits, fun _ => ⟨fun r hr => ?demodRefused, fun b hb => ?demod⟩⟩
  case demodRefused =>
    have hbody : demodBody (detected s (blockPowers s)) = .refused r := (whenReady_of_ready hready _).symm.trans hr
    exact hdecode (stageMorse_of_refused (demodBody_atMorse_refused hbody))
  case demod =>
    obtain ⟨-, hbody⟩ := execDemod_next.mp hb
    obtain ⟨hfits, htxt, rfl⟩ := demodBody_next.mp hbody
    rw [textOf_detected] at htxt
    have hdemod := demodBody_atMorse_of_fits (s := s) hfits htxt
    refine ⟨fun hnone => ?noText, fun hsome => ⟨fun r hr => ?deframeRefused, fun c hc => ?deframe⟩⟩
    case noText =>
      exact ⟨endNoText s, hdecode (stageMorse_of_noText hdemod ((txtLen_atDeframe s).trans hnone)),
        (sameButOpen_demodulated s).withErr .noText⟩
    all_goals
      have htext : exec .decode s = deframeBody (atDeframe s) :=
        hdecode (stageMorse_of_text hdemod ((txtLen_atDeframe s).trans_ne hsome))
      rw [htext]
    case deframeRefused =>
      have hbody : deframeBody (afterDemod s) = .refused r := (whenReady_of_ready hready _).symm.trans hr
      exact deframeBody_atDeframe_refused hbody
    case deframe => exact deframeBody_atDeframe_next (execDeframe_next.mp hc).2

/-! ## What the result depends on (R289, R343) -/

/-- What a completing `DECODE` passes through when there are blocks. -/
theorem execDecode_stages {s t : State} (h : execDecode s = .next t) (hblocks : ¬noBlocks s) :
    detectBody s = .next (detected s (blockPowers s)) ∧ blockCount s ≤ s.params.bitsMax ∧
      (textOf (atMorse s)).length ≤ s.params.txtMax ∧
      ((textOf (atMorse s) = [] ∧ t = endNoText s) ∨
        (textOf (atMorse s) ≠ [] ∧ deframeBody (atDeframe s) = .next t)) := by
  obtain ⟨-, hstage⟩ := execDecode_next.mp h
  obtain ⟨a, ha, hstage⟩ := stageGoertzel_cases hstage
  obtain ⟨hpcm, ⟨hnone, -⟩ | ⟨-, hbits, hfinite, hband, rfl⟩⟩ := detectBody_next.mp ha
  · exact absurd hnone hblocks
  obtain ⟨hzero, -⟩ | ⟨-, b, hb, hend⟩ := hstage
  · exact absurd (.inr (.inr hzero)) hblocks
  obtain ⟨-, htxt, rfl⟩ := demodBody_next.mp hb
  refine ⟨detectBody_next.mpr ⟨hpcm, .inr ⟨hblocks, hbits, hfinite, hband, rfl⟩⟩, hbits, htxt, ?_⟩
  exact hend.imp (fun hnone => ⟨demodulated_txtLen_eq_zero.mp hnone.1, hnone.2⟩)
    fun hsome => ⟨mt demodulated_txtLen_eq_zero.mpr hsome.1, hsome.2⟩

/-- What the result of a `DECODE` depends on: the capture, the configuration, the derived registers and the chip. -/
structure SameInputs (s s' : State) : Prop where
  wf : spaceWf s.pcm = true
  wf' : spaceWf s'.pcm = true
  params : s'.params = s.params
  n : s'.n = s.n
  theta : s'.theta = s.theta
  c : s'.c = s.c
  dotDash : s'.dotDash = s.dotDash
  wordGap : s'.wordGap = s.wordGap
  rtab : s'.rtab = s.rtab
  pcmLen : s'.pcmLen = s.pcmLen
  pcm : ∀ i, i < s.pcmLen → readCell i s'.pcm = readCell i s.pcm

namespace SameInputs

variable {s s' : State} (h : SameInputs s s')
include h

theorem blockCount : blockCount s' = blockCount s := by rw [Machine.blockCount, h.pcmLen, h.n, Machine.blockCount]

theorem noBlocks_iff : noBlocks s' ↔ noBlocks s := by rw [noBlocks, h.pcmLen, h.n, h.blockCount]

/-- The detection reads within the capture. -/
theorem detectInput : detectInput s' = detectInput s := by
  have hwithin : Machine.blockCount s * s.n.toNat ≤ s.pcmLen := Nat.div_mul_le_self _ _
  rw [Machine.detectInput, Machine.detectInput, pcmSeq, pcmSeq, contents_eq_map _ h.wf, contents_eq_map _ h.wf', h.blockCount,
    h.n]
  exact List.map_congr_left fun i hi => h.pcm i ((List.mem_range.mp hi).trans_le hwithin)

theorem blockPowers : blockPowers s' = blockPowers s := by
  rw [Machine.blockPowers, Machine.blockPowers, h.blockCount, h.detectInput, h.n, h.params, h.c]

theorem bits : bitsFor s' (Machine.blockPowers s') = bitsFor s (Machine.blockPowers s) := by
  rw [bitsFor, h.blockPowers, h.params, h.theta]

theorem runsOf : runsOf (atMorse s') = runsOf (atMorse s) := by rw [runsOf_atMorse, runsOf_atMorse, h.bits]

theorem textOf : textOf (atMorse s') = textOf (atMorse s) := by
  rw [textOf_atMorse, textOf_atMorse, h.bits, h.dotDash, h.wordGap, h.rtab]

theorem detectBody (hnext : detectBody s = .next (detected s (Machine.blockPowers s))) (hblocks : ¬noBlocks s) :
    detectBody s' = .next (detected s' (Machine.blockPowers s')) := by
  obtain ⟨hpcm, ⟨hnone, -⟩ | ⟨-, hbits, hfinite, hband, -⟩⟩ := detectBody_next.mp hnext
  · exact absurd hnone hblocks
  rw [detectBody_next, h.noBlocks_iff, h.pcmLen, h.blockCount, h.detectInput, h.blockPowers, h.params, h.theta]
  exact ⟨hpcm, .inr ⟨hblocks, hbits, hfinite, hband, rfl⟩⟩

end SameInputs

/-- The two states show the same result of a `DECODE`. -/
structure SameResult (t t' : State) : Prop where
  stage : t'.stage = t.stage
  err : t'.err = t.err
  valid : t'.valid = t.valid
  bitsLen : t'.bitsLen = t.bitsLen
  bits : ∀ b, b < t.bitsLen → readCell b t'.bits = readCell b t.bits
  runsLen : t'.runsLen = t.runsLen
  runs : ∀ r, r < t.runsLen → readCell r t'.runs = readCell r t.runs
  txtLen : t'.txtLen = t.txtLen
  txt : ∀ j, j < t.txtLen → readCell j t'.txt = readCell j t.txt
  payLen : t'.payLen = t.payLen
  pay : ∀ i, i < t.payLen → readCell i t'.pay = readCell i t.pay

/-- What stood in a space before a sequence was stored is not seen within its length. -/
theorem readCell_store_congr {α : Type} [Inhabited α] {m m' : Space α} {xs ys : List α} (h : ys = xs) {i : ℕ}
    (hi : i < xs.length) : readCell i (store m' ys) = readCell i (store m xs) := by
  subst h
  rw [readCell_store, readCell_store, dif_pos hi, dif_pos hi]

namespace SameResult

variable {x y : State} (h : SameResult x y)
include h

theorem withErr (e : Err) : SameResult { x with err := e } { y with err := e } := { h with err := rfl }

theorem beginDeframe (g : Stage) :
    SameResult (beginDeframe (setStage g x)) (Machine.beginDeframe (setStage g y)) where
  stage := rfl
  err := rfl
  valid := rfl
  bitsLen := h.bitsLen
  bits := h.bits
  runsLen := h.runsLen
  runs := h.runs
  txtLen := h.txtLen
  txt := h.txt
  payLen := rfl
  pay i hi := absurd hi i.not_lt_zero

theorem splitFrame (text : List Byte) (v : Bool) (e : Err) :
    SameResult { splitFrame text x with valid := v, err := e } { Machine.splitFrame text y with valid := v, err := e } :=
  { h with err := rfl, valid := rfl, payLen := rfl, pay := fun _ => readCell_store_congr rfl }

end SameResult

/-- Without a block there is no artifact to compare. -/
theorem sameResult_endNoBlocks (s s' : State) : SameResult (endNoBlocks s) (endNoBlocks s') where
  stage := rfl
  err := rfl
  valid := rfl
  bitsLen := rfl
  bits i hi := absurd hi i.not_lt_zero
  runsLen := rfl
  runs i hi := absurd hi i.not_lt_zero
  txtLen := rfl
  txt i hi := absurd hi i.not_lt_zero
  payLen := rfl
  pay i hi := absurd hi i.not_lt_zero

/-- The same end of the checks, from states that show the same result. -/
theorem SameEnd.sameResult {text : List Byte} {x y c d : State} (h : SameEnd text x y c d) (hxy : SameResult x y) :
    SameResult c d := by
  cases h with
  | early e => exact hxy.withErr e
  | split v e => exact hxy.splitFrame text v e

namespace SameInputs

variable {s s' : State} (h : SameInputs s s')
include h

theorem demodulated : SameResult (demodulated (atMorse s)) (Machine.demodulated (atMorse s')) where
  stage := rfl
  err := rfl
  valid := rfl
  bitsLen := h.blockCount
  bits b hb := readCell_store_congr h.bits (by rwa [length_detected_bits])
  runsLen := congrArg List.length h.runsOf
  runs _ := readCell_store_congr h.runsOf
  txtLen := congrArg List.length h.textOf
  txt _ := readCell_store_congr h.textOf
  payLen := rfl
  pay i hi := absurd hi i.not_lt_zero

/-- The deframers of the two decodings end the same way. -/
theorem stageDeframe {t : State} (hdeframe : deframeBody (atDeframe s) = .next t) :
    ∃ t', deframeBody (atDeframe s') = .next t' ∧ SameResult t t' := by
  obtain ⟨htxt, hpay, hchecks⟩ := deframeBody_next.mp hdeframe
  have hparams : (atDeframe s').params = (atDeframe s).params := by rw [atDeframe_params, atDeframe_params, h.params]
  have htxtLen : (atDeframe s').txtLen = (atDeframe s).txtLen := h.demodulated.txtLen
  obtain ⟨t', ht', hsame⟩ := deframeChecks_sameEnd hparams hchecks
  refine ⟨t', ?_, hsame.sameResult (h.demodulated.beginDeframe .deframe)⟩
  rw [deframeBody_next, htxtLen, hparams, txtSeq_atDeframe, h.textOf, ← txtSeq_atDeframe]
  exact ⟨htxt, hpay, ht'⟩

/-- Two decodings with the same inputs go through the same stages. -/
theorem execDecode {t : State} (hready' : s'.ready = true) (hdecode : execDecode s = .next t) :
    ∃ t', Machine.execDecode s' = .next t' ∧ SameResult t t' := by
  by_cases hblocks : Machine.noBlocks s
  case pos =>
    obtain ⟨-, hpcm, ⟨-, rfl⟩ | ⟨hsome, -⟩ | ⟨hsome, -⟩⟩ := execDecode_forms hdecode
    · refine ⟨_, execDecode_of_noBlocks hready' ?_ (h.noBlocks_iff.mpr hblocks), sameResult_endNoBlocks s s'⟩
      rwa [h.pcmLen, h.params]
    · exact absurd hblocks hsome
    · exact absurd hblocks hsome
  case neg =>
    obtain ⟨hdetect, hbits, htxt, hend⟩ := execDecode_stages hdecode hblocks
    have hdetect' : execDetect s' = .next _ := execDetect_next.mpr ⟨hready', h.detectBody hdetect hblocks⟩
    have hcount : Machine.blockCount s' ≠ 0 := fun hcount => hblocks (h.noBlocks_iff.mp (.inr (.inr hcount)))
    have hdemod : demodBody (atMorse s') = .next (Machine.demodulated (atMorse s')) :=
      demodBody_atMorse_of_fits (by rwa [h.blockCount, h.params]) (by rwa [h.textOf, h.params])
    rw [execDecode_of_blocks hdetect' hcount]
    obtain ⟨htext, rfl⟩ | ⟨htext, hdeframe⟩ := hend
    · exact ⟨_, stageMorse_of_noText hdemod (demodulated_txtLen_eq_zero.mpr (h.textOf.trans htext)),
        h.demodulated.withErr .noText⟩
    · rw [stageMorse_of_text hdemod (mt demodulated_txtLen_eq_zero.mp (h.textOf.trans_ne htext))]
      exact h.stageDeframe hdeframe

end SameInputs

/-- Settles O55: the two decodings go through the same stages and store the same sequences. -/
theorem decodeIsStateless : Obligations.DecodeIsStateless := by
  intro s s' t hmem hmem' _ hready' hparams hn htheta hc hdotDash hwordGap hrtab hpcmLen hpcm hdecode
  obtain ⟨_, hwf, _⟩ := memWf_iff.mp hmem
  obtain ⟨_, hwf', _⟩ := memWf_iff.mp hmem'
  have h : SameInputs s s' := ⟨hwf, hwf', hparams.symm, hn.symm, htheta.symm, hc.symm, hdotDash.symm, hwordGap.symm,
    hrtab.symm, hpcmLen.symm, fun i hi => (hpcm i hi).symm⟩
  obtain ⟨t', ht', hstage, herr, hvalid, hbitsLen, hbits, hrunsLen, hruns, htxtLen, htxt, hpayLen, hpay⟩ :=
    h.execDecode hready' hdecode
  exact ⟨t', ht', hstage, herr, hvalid, hbitsLen, hbits, hrunsLen, hruns, htxtLen, htxt, hpayLen, hpay⟩

end Sys2Proof.Machine
end

section
/-! The exception statement (`60_exceptions.md`): every refusal of an operation has one of the listed reasons, and the
condition of the reason holds (R311). -/

namespace Sys2Proof.Machine

/-! ## Refusals for one reason -/

theorem refuseIf_next_refused {p : Prop} [Decidable p] {r r' : Refusal} {t : State} :
    refuseIf (decide p) r' (.next t) = .refused r ↔ p ∧ r = r' := by
  simp [refuseIf_refused]

/-- Two tests in a row for one reason, before a next state. -/
theorem refuseIf_refuseIf_next_refused {p q : Prop} [Decidable p] [Decidable q] {r r' : Refusal} {t : State} :
    refuseIf (decide p) r' (refuseIf (decide q) r' (.next t)) = .refused r ↔ (p ∨ q) ∧ r = r' := by
  rw [refuseIf_refused, refuseIf_next_refused, decide_eq_true_eq, decide_eq_false_iff_not]
  tauto

/-! ## The construction operations (R141, R143) -/

theorem execCfgw_refused {sel : BitVec 8} {imm : Word} {s : State} {r : Refusal} :
    execCfgw sel imm s = .refused r ↔
      (5 < sel.toNat ∧ r = .reservedSelector) ∨ (sel = 4 ∧ isFinite32 imm = false ∧ r = .nonFiniteThreshold) := by
  have htheta : sel.toNat = 4 ↔ sel = 4 := BitVec.toNat_inj (y := 4)
  simp only [execCfgw, refuseIf_refused, decide_eq_true_eq, decide_eq_false_iff_not, Nat.not_lt, Bool.and_eq_true,
    Bool.not_eq_true', htheta, reduceCtorEq, and_false, or_false, and_assoc]
  refine or_congr_right (and_iff_right_of_imp ?_)
  rintro ⟨rfl, -⟩
  decide

/-- A table that `INIT` refuses has two supported characters that share a pattern. -/
theorem injectiveTable_eq_false_iff {p : Params} :
    injectiveTable p = false ↔
      ∃ c ∈ supportedChars, ∃ d ∈ supportedChars, c ≠ d ∧ p.pattern c = p.pattern d ∧ p.pattern c ≠ none := by
  refine ⟨fun h => ?_, injectiveTable_false_of_shared⟩
  rw [← Bool.not_eq_true, injectiveTable_iff] at h
  push Not at h
  obtain ⟨c, hc, d, hd, hsame, hsome, hne⟩ := h
  exact ⟨c, hc, d, hd, hne, hsame, hsome⟩

/-- The capacity test of `INIT` fails where one of the three integers is too large. -/
theorem derivedFits_eq_false_iff {s : State} :
    derivedFits s = false ↔
      2 ^ s.params.idxW ≤ initK s ∨ 2 ^ s.params.idxW ≤ samplesPerUnit s.fs s.wpm ∨
        2 ^ s.params.idxW ≤ 5 * s.bpu.toNat := by
  simp only [derivedFits, Bool.and_eq_false_iff, decide_eq_false_iff_not, Nat.not_lt, or_assoc]
  rfl

/-! ## DETECT (R185, R195) -/

/-- The refusals of a detection, each with the condition of R311. -/
theorem detectBody_refused_cases {s : State} {r : Refusal} (hwf : spaceWf s.pcm = true)
    (h : detectBody s = .refused r) :
    ((s.params.pcmMax < s.pcmLen ∨ (s.n ≠ 0 ∧ s.params.bitsMax < blockCount s)) ∧ r = .capacity) ∨
      ((∃ j, j < blockCount s * s.n.toNat ∧ isFinite32 (readCell j s.pcm) = false) ∧ r = .nonFiniteSample) ∨
      ((s.params.autoZero = .refuse ∧ s.theta.value ≤ 0 ∧
          (medianOf s.params ((List.range (blockCount s)).map fun b =>
            blockPower s.params.ops s.c (samplesOf s b))).value = 0) ∧ r = .contested) := by
  by_cases hblocks : noBlocks s
  · rw [detectBody_of_noBlocks hblocks, refuseIf_next_refused] at h
    exact .inl ⟨.inl h.1, h.2⟩
  obtain ⟨-, hn, -⟩ : ¬s.pcmLen = 0 ∧ s.n ≠ 0 ∧ ¬blockCount s = 0 := by simpa only [not_or] using hblocks
  obtain ⟨hpcm, rfl⟩ | ⟨-, hbits, rfl⟩ | ⟨-, -, hbad, rfl⟩ | ⟨-, -, -, ⟨hrefuse, hband⟩, rfl⟩ :=
    (detectBody_refused hblocks).mp h
  · exact .inl ⟨.inl hpcm, rfl⟩
  · exact .inl ⟨.inr ⟨hn, hbits⟩, rfl⟩
  · exact .inr (.inl ⟨(detectInput_not_finite_iff hwf).mp hbad, rfl⟩)
  · rw [inContestedBand_iff, blockPowers_eq hwf] at hband
    exact .inr (.inr ⟨⟨hrefuse, hband⟩, rfl⟩)

/-! ## DEMOD, DEFRAME and DECODE (R213, R255, R281) -/

/-- The text in `BITS` as the statements write it out. -/
theorem textOf_eq {s : State} (hwf : spaceWf s.bits = true) :
    textOf s = demodText s.dotDash s.wordGap s.rtab (rle ((List.range s.bitsLen).map fun b => readCell b s.bits)) := by
  rw [textOf, runsOf, bitsSeq, contents_eq_map _ hwf]

/-- A demodulation whose bits fit, and the stage after it, are refused for the length of the text alone. -/
theorem stageMorse_refused {a : State} {r : Refusal} (hfits : a.bitsLen ≤ a.params.bitsMax)
    (h : stageMorse a = .refused r) :
    (a.params.txtMax < (textOf (setStage .morseDecode a)).length ∨
      a.params.payMax + 11 < (textOf (setStage .morseDecode a)).length) ∧ r = .capacity := by
  obtain hdemod | ⟨b, hb, hnext⟩ := andThen_refused_iff.mp h
  · obtain ⟨hbits, -⟩ | ⟨-, htxt, rfl⟩ := demodBody_refused.mp hdemod
    · exact absurd hfits hbits.not_ge
    · exact ⟨.inl htxt, rfl⟩
  · obtain ⟨-, -, rfl⟩ := demodBody_next.mp hb
    split at hnext
    · exact absurd hnext raise_not_refused
    · obtain ⟨htxt, rfl⟩ | ⟨-, hpay, rfl⟩ := deframeBody_refused.mp hnext
      · exact ⟨.inl htxt, rfl⟩
      · exact ⟨.inr hpay, rfl⟩

/-- A `DECODE` is refused as its detection is, or because the text of a detection with blocks is too long. -/
theorem execDecode_refused_cases {s : State} {r : Refusal} (h : execDecode s = .refused r) :
    execDetect s = .refused r ∨
      ∃ a, execDetect s = .next a ∧ a.bitsLen ≠ 0 ∧ spaceWf a.bits = true ∧
        (s.params.txtMax < (textOf a).length ∨ s.params.payMax + 11 < (textOf a).length) ∧ r = .capacity := by
  match hdetect : execDetect s with
  | .refused _ => exact .inl ((execDecode_of_detect_refused hdetect).symm.trans h)
  | .next a =>
    obtain ⟨hready, hpcm, ⟨hblocks, -, -⟩ | ⟨hblocks, hbits, rfl, hbody⟩⟩ := execDetect_cases hdetect
    · rw [execDecode_of_noBlocks hready hpcm hblocks] at h
      cases h
    · obtain ⟨-, ⟨hnone, -⟩ | ⟨-, hfits, -⟩⟩ := detectBody_next.mp hbody
      · exact absurd hnone hblocks
      rw [execDecode_of_blocks hdetect hbits] at h
      obtain ⟨hlong, rfl⟩ := stageMorse_refused hfits h
      rw [← textOf_detected] at hlong
      exact .inr ⟨_, rfl, hbits, store_wf s.bits _, hlong, rfl⟩

/-! ## Every operation (R311) -/

/-- Settles O12: before an `INIT` every other operation is refused for that; otherwise each operation by the lemma that
lists its refusals. -/
theorem refusedOnlyForListedReasons : Obligations.RefusedOnlyForListedReasons := by
  intro i s r hmem h
  obtain ⟨_, hpcmWf, _, hbitsWf, _⟩ := memWf_iff.mp hmem
  by_cases hconstructs : (∃ sel imm, i = .cfgw sel imm) ∨ i = .init
  case pos =>
    obtain ⟨sel, imm, rfl⟩ | rfl := hconstructs
    · obtain ⟨hsel, rfl⟩ | ⟨rfl, himm, rfl⟩ := execCfgw_refused.mp h
      · exact ⟨sel, imm, rfl, hsel⟩
      · exact ⟨imm, rfl, himm⟩
    · obtain ⟨hfs, rfl⟩ | ⟨-, hwpm, rfl⟩ | ⟨-, -, htable, rfl⟩ | ⟨-, -, -, hlarge, rfl⟩ := execInit_refused.mp h
      · exact ⟨rfl, hfs⟩
      · exact ⟨rfl, hwpm⟩
      · exact ⟨rfl, injectiveTable_eq_false_iff.mp htable⟩
      · exact derivedFits_eq_false_iff.mp hlarge
  case neg =>
    push Not at hconstructs
    obtain ⟨hcfgw, hinit⟩ := hconstructs
    by_cases hready : s.ready = true
    case neg =>
      rw [Bool.not_eq_true] at hready
      rw [exec_of_not_ready hready hcfgw hinit] at h
      cases h
      exact ⟨hready, hinit, hcfgw⟩
    case pos =>
      cases i with
      | cfgw sel imm => exact absurd rfl (hcfgw sel imm)
      | init => exact absurd rfl hinit
      | render =>
        rw [exec, execRender, whenReady_of_ready hready, refuseIf_refuseIf_next_refused] at h
        obtain ⟨hlong, rfl⟩ := h
        exact hlong
      | gzmag b =>
        obtain ⟨hnot, -⟩ | ⟨-, hpcm, rfl⟩ | ⟨-, -, hn, rfl⟩ | ⟨-, -, -, hout, rfl⟩ | ⟨-, -, -, -, hbad, rfl⟩ :=
          execGzmag_refused.mp h
        · simp [hready] at hnot
        · exact hpcm
        · exact ⟨⟨b, rfl⟩, hn⟩
        · exact ⟨b, rfl, hout⟩
        · exact .inl ⟨b, rfl, (blockAt_not_finite_iff hpcmWf _).mp hbad⟩
      | detect =>
        rw [exec, execDetect, whenReady_of_ready hready] at h
        obtain ⟨hlong, rfl⟩ | ⟨hbad, rfl⟩ | ⟨hband, rfl⟩ := detectBody_refused_cases hpcmWf h
        · exact hlong
        · exact .inr ⟨.inl rfl, hbad⟩
        · exact ⟨.inl rfl, hband⟩
      | demod =>
        rw [exec, execDemod, whenReady_of_ready hready, demodBody_refused, textOf_eq hbitsWf] at h
        obtain ⟨hbits, rfl⟩ | ⟨-, htxt, rfl⟩ := h
        · exact .inl hbits
        · exact .inr htxt
      | crc32 =>
        rw [exec, execCrc32, whenReady_of_ready hready, refuseIf_next_refused] at h
        obtain ⟨hlong, rfl⟩ := h
        exact hlong
      | enccrc =>
        rw [exec, execEnccrc, whenReady_of_ready hready] at h
        cases h
      | frame =>
        rw [exec, execFrame, whenReady_of_ready hready, refuseIf_refuseIf_next_refused] at h
        obtain ⟨hlong, rfl⟩ := h
        exact hlong
      | deframe =>
        rw [exec, execDeframe, whenReady_of_ready hready, deframeBody_refused] at h
        obtain ⟨htxt, rfl⟩ | ⟨-, hpay, rfl⟩ := h
        · exact .inl htxt
        · exact .inr hpay
      | decode =>
        obtain hdetect | ⟨a, ha, hbits, hwf, hlong, rfl⟩ := execDecode_refused_cases h
        · rw [execDetect, whenReady_of_ready hready] at hdetect
          obtain ⟨hlong, rfl⟩ | ⟨hbad, rfl⟩ | ⟨hband, rfl⟩ := detectBody_refused_cases hpcmWf hdetect
          · exact hlong.imp_right .inl
          · exact .inr ⟨.inr rfl, hbad⟩
          · exact ⟨.inr rfl, hband⟩
        · rw [textOf_eq hwf] at hlong
          exact .inr (.inr ⟨a, ha, hbits, hlong⟩)

end Sys2Proof.Machine
end

section
/-! The reset and invariant statements (`70_reset_and_hazards.md`): what reset gives every register, and the invariant of the
machine, which reset meets and every step keeps. -/

namespace Sys2Proof.Machine

/-! ## Reset (R340, R341) -/

/-- Reset is taken whether or not an operation is in progress. -/
theorem step_reset {s : State} {rest : List HostMove} (hhost : s.host = .reset :: rest) :
    step s = .next (State.resetOn s.params s.free (nextRound s) rest) := by
  simp [step, hostStep, hhost, moveAllowed, hostMove, nextRound]

/-- Settles O8: the step is `State.resetOn`, whose fields are the values of the table and whose spaces list nothing. -/
theorem resetGivesTableValues : Obligations.ResetGivesTableValues := by
  intro s rest hhost
  refine ⟨_, step_reset hhost, ?_⟩
  simp [State.resetOn, isOpen]

/-! ## The invariant at reset -/

theorem inv_resetOn {p : Params} (hchip : p.wf = true) (hcrc : CrcTextKeyable p) (free round : Nat) (host : List HostMove) :
    Inv (State.resetOn p free round host) where
  memory := rfl
  chip := hchip
  crcText := hcrc
  idle := rfl
  pattern := rfl
  indices := by simp [indexRegisters, State.resetOn]
  stage := List.mem_cons_self
  err := List.mem_cons_self
  valid := nofun
  ready := nofun

/-- Settles O9: the reset state of the default chip, whose CRC text is four hexadecimal digits. -/
theorem invariantHoldsAtReset : Obligations.InvariantHoldsAtReset :=
  inv_resetOn (by decide +kernel) (crcTextKeyable_hex4 rfl rfl) 0 0 []

/-! ## What the invariant gives -/

theorem capacities_fit {p : Params} (h : p.wf = true) :
    32 ≤ p.idxW ∧ p.pcmMax < 2 ^ p.idxW ∧ p.txtMax < 2 ^ p.idxW := by
  simp only [Params.wf, Bool.and_eq_true, decide_eq_true_eq] at h
  omega

/-- The value of a 32-bit word is an index (R11). -/
theorem toNat_lt_two_pow_idxW {p : Params} (h : p.wf = true) (w : Word) : w.toNat < 2 ^ p.idxW :=
  w.isLt.trans_le (Nat.pow_le_pow_right two_pos (capacities_fit h).1)

theorem forall_indexRegisters_lt {s : State} {b : Nat} :
    (∀ v ∈ indexRegisters s, v < b) ↔
      s.k < b ∧ s.gb < b ∧ s.gi < b ∧ s.nidx < b ∧ s.ru < b ∧ s.rj < b ∧ s.timLen < b ∧ s.pcmLen < b ∧ s.bitsLen < b ∧
        s.runsLen < b ∧ s.txtLen < b ∧ s.payLen < b := by
  simp [indexRegisters]

theorem blockCount_le_pcmLen (s : State) : blockCount s ≤ s.pcmLen := Nat.div_le_self _ _

theorem length_runsOf_le (s : State) : (runsOf s).length ≤ s.bitsLen :=
  (length_rle_le _).trans_eq (length_contents s.bits s.bitsLen)

theorem length_payloadOf_txtSeq_le (s : State) : (payloadOf (txtSeq s)).length ≤ s.txtLen := by
  rw [length_payloadOf, length_txtSeq]
  exact Nat.sub_le _ _

theorem earlyErrors_subset_blockErrors : earlyErrors ⊆ blockErrors := by decide

/-- What `INIT` writes where it completes is what `Constructed` asks (R344). -/
theorem constructed_isConstructed {s : State} (hrate : s.fs ≠ 0) (hspeed : s.wpm ≠ 0)
    (htable : injectiveTable s.params = true) : Constructed (constructed s) where
  rate := hrate
  speed := hspeed
  table := htable
  omega := rfl
  spu := rfl
  dotDash := rfl
  wordGap := rfl
  k := rfl
  c := initC_of_n_ne_zero (s := s)
  rtab := rfl

/-! ## Every named update keeps the invariant

An update that writes no register of `Constructed` keeps it field by field: `{ h.ready hr with }`. -/

namespace Inv

variable {s : State} (h : Inv s)

include h

theorem clearReady_writeConfig (sel : BitVec 8) (imm : Word) : Inv (clearReady (writeConfig sel imm s)) where
  memory := by simpa [memWf] using h.memory
  chip := by simpa using h.chip
  crcText := by simpa using h.crcText
  idle := by simpa using h.idle
  pattern := by simpa using h.pattern
  indices := by simpa [indexRegisters] using h.indices
  stage := by simpa using h.stage
  err := by simpa using h.err
  valid := by simpa using h.valid
  ready := nofun

theorem constructed (hrate : s.fs ≠ 0) (hspeed : s.wpm ≠ 0) (htable : injectiveTable s.params = true)
    (hfits : derivedFits s = true) : Inv (constructed s) :=
  { h with
    indices := by
      simp only [derivedFits, Bool.and_eq_true, decide_eq_true_eq] at hfits
      exact forall_indexRegisters_lt.mpr (by simp [hfits, forall_indexRegisters_lt.mp h.indices])
    ready := fun _ => constructed_isConstructed hrate hspeed htable }

theorem rendered (hfits : s.timLen * s.spu ≤ s.params.pcmMax) : Inv (rendered s) :=
  { h with
    memory := memWf_iff.mpr (by simp [store_wf, memWf_iff.mp h.memory])
    indices := by
      have hlen := hfits.trans_lt (capacities_fit h.chip).2.1
      exact forall_indexRegisters_lt.mpr (by simp [hlen, freeIndexOf_lt, forall_indexRegisters_lt.mp h.indices])
    ready := fun hr => { h.ready hr with } }

theorem measured (b : Word) : Inv (measured b.toNat s) :=
  { h with
    indices := by
      have hblock := toNat_lt_two_pow_idxW h.chip b
      exact forall_indexRegisters_lt.mpr (by simp [hblock, freeIndexOf_lt, forall_indexRegisters_lt.mp h.indices])
    ready := fun hr => { h.ready hr with } }

theorem noBlocksFound : Inv (noBlocksFound s) :=
  { h with
    memory := memWf_iff.mpr (by simp [forget_wf, memWf_iff.mp h.memory])
    indices := forall_indexRegisters_lt.mpr (by simp [forall_indexRegisters_lt.mp h.indices])
    ready := fun hr => { h.ready hr with } }

theorem detected (ms : List RNum) : Inv (detected s ms) :=
  { h with
    memory := memWf_iff.mpr (by simp [store_wf, memWf_iff.mp h.memory])
    indices := by
      have hindices := forall_indexRegisters_lt.mp h.indices
      have hcount : blockCount s < 2 ^ s.params.idxW := (blockCount_le_pcmLen s).trans_lt (by simp [hindices])
      exact forall_indexRegisters_lt.mpr (by simp [hcount, freeIndexOf_lt, hindices])
    ready := fun hr => { h.ready hr with } }

theorem demodulated : Inv (demodulated s) :=
  { h with
    memory := memWf_iff.mpr (by simp [store_wf, memWf_iff.mp h.memory])
    pattern := rfl
    indices := by
      have hindices := forall_indexRegisters_lt.mp h.indices
      have hbits : s.bitsLen < 2 ^ s.params.idxW := by simp [hindices]
      have hruns := (length_runsOf_le s).trans_lt hbits
      have htext := (length_textOf_le s).trans_lt hbits
      exact forall_indexRegisters_lt.mpr (by simp [hruns, htext, hindices])
    ready := fun hr => { h.ready hr with } }

theorem withCrc (crc : Word) (crc4 : Quad) : Inv { s with crc := crc, crc4 := crc4 } :=
  { h with ready := fun hr => { h.ready hr with } }

theorem framed (hfits : s.payLen + 11 ≤ s.params.txtMax) : Inv (framed s) :=
  { h with
    memory := memWf_iff.mpr (by simp [store_wf, memWf_iff.mp h.memory])
    indices := by
      have hlen := hfits.trans_lt (capacities_fit h.chip).2.2
      exact forall_indexRegisters_lt.mpr (by simp [hlen, forall_indexRegisters_lt.mp h.indices])
    ready := fun hr => { h.ready hr with } }

theorem beginDeframe : Inv (beginDeframe s) :=
  { h with
    memory := memWf_iff.mpr (by simp [forget_wf, memWf_iff.mp h.memory])
    indices := forall_indexRegisters_lt.mpr (by simp [forall_indexRegisters_lt.mp h.indices])
    err := List.mem_cons_self
    valid := nofun
    ready := fun hr => { h.ready hr with } }

theorem splitFrame {text : List Byte} (hfits : (payloadOf text).length < 2 ^ s.params.idxW) : Inv (splitFrame text s) :=
  { h with
    memory := memWf_iff.mpr (by simp [store_wf, memWf_iff.mp h.memory])
    indices := forall_indexRegisters_lt.mpr (by simp [hfits, forall_indexRegisters_lt.mp h.indices])
    ready := fun hr => { h.ready hr with } }

theorem freshResult : Inv (freshResult s) :=
  { h with
    memory := memWf_iff.mpr (by simp [forget_wf, memWf_iff.mp h.memory])
    indices := forall_indexRegisters_lt.mpr (by simp [forall_indexRegisters_lt.mp h.indices])
    err := List.mem_cons_self
    valid := nofun
    ready := fun hr => { h.ready hr with } }

theorem setStage {g : Stage} (hg : g ∈ blockStages) : Inv (setStage g s) :=
  { h with stage := hg, ready := fun hr => { h.ready hr with } }

theorem withErr {e : Err} (he : e ∈ blockErrors) (hvalid : s.valid = false) : Inv { s with err := e } :=
  { h with
    err := he
    valid := fun hv => absurd hv (Bool.eq_false_iff.mp hvalid)
    ready := fun hr => { h.ready hr with } }

theorem withValid (herr : s.err = .none) : Inv { s with valid := true } :=
  { h with valid := fun _ => herr, ready := fun hr => { h.ready hr with } }

theorem deframed {t : State} (ht : Deframed s t) : Inv t := by
  have hsplit : Inv (Machine.splitFrame (txtSeq s) (Machine.beginDeframe s)) :=
    h.beginDeframe.splitFrame
      ((length_payloadOf_txtSeq_le s).trans_lt (by simp [forall_indexRegisters_lt.mp h.indices]))
  cases ht with
  | early he => exact h.beginDeframe.withErr (earlyErrors_subset_blockErrors he) rfl
  | mismatch => exact hsplit.withErr (by decide) rfl
  | valid => exact hsplit.withValid rfl

/-! ## The three stages of a DECODE (R281) -/

theorem atGoertzel : Inv (atGoertzel s) := h.freshResult.setStage (by decide)

theorem atMorse : Inv (atMorse s) := (h.atGoertzel.detected _).setStage (by decide)

theorem atDeframe : Inv (atDeframe s) := h.atMorse.demodulated.setStage (by decide)

/-! ## The host's moves (R71) -/

theorem withHost (moves : List HostMove) : Inv { s with host := moves } :=
  { h with ready := fun hr => { h.ready hr with } }

/-- Only the spaces are written, and they are canonical again. -/
theorem withSpaces {tim pay txt : Space Byte} {pcm : Space Word} {bits : Space Bool}
    (hmem : memWf { s with tim := tim, pcm := pcm, bits := bits, txt := txt, pay := pay } = true) :
    Inv { s with tim := tim, pcm := pcm, bits := bits, txt := txt, pay := pay } :=
  { h with memory := hmem, ready := fun hr => { h.ready hr with } }

theorem writeLength {len : Nat} (hlen : len < 2 ^ s.params.idxW) (space : HostSpace) : Inv (writeLength space len s) := by
  have hmem := memWf_iff.mp h.memory
  have hindices := forall_indexRegisters_lt.mp h.indices
  have hmem' : memWf (Machine.writeLength space len s) = true := by
    cases space <;> simp [Machine.writeLength, memWf_iff, forget_wf, hmem]
  have hindices' : ∀ v ∈ indexRegisters (Machine.writeLength space len s), v < 2 ^ s.params.idxW := by
    cases space <;> simp [Machine.writeLength, forall_indexRegisters_lt, hlen, hindices]
  cases space <;> exact { h with memory := hmem', indices := hindices', ready := fun hr => { h.ready hr with } }

end Inv

/-! ## Every step keeps the invariant -/

/-- The guards of `INIT`, `RENDER` and `FRAME` bound the indices that they write; every other operation keeps the invariant
in each state of `Leaves`. -/
theorem exec_keeps_inv {i : Instr} {s t : State} (hs : Inv s) (h : exec i s = .next t) : Inv t := by
  cases exec_leaves h with
  | cfgw sel imm => exact hs.clearReady_writeConfig sel imm
  | init =>
    obtain ⟨hrate, hspeed, htable, hfits, _⟩ := execInit_next.mp h
    exact hs.constructed hrate hspeed htable hfits
  | render =>
    obtain ⟨_, _, hfits, _⟩ := execRender_next.mp h
    exact hs.rendered hfits
  | gzmag b => exact hs.measured b
  | detectNoBlocks => exact hs.noBlocksFound
  | detect => exact hs.detected _
  | demod => exact hs.demodulated
  | crc32 => exact hs.withCrc _ _
  | enccrc => exact hs.withCrc _ _
  | frame =>
    obtain ⟨_, _, hfits, _⟩ := execFrame_next.mp h
    exact hs.framed hfits
  | deframe ht => exact hs.deframed ht
  | decodeNoBlocks => exact hs.atGoertzel.noBlocksFound.withErr (by decide) rfl
  | decodeNoText => exact hs.atMorse.demodulated.withErr (by decide) rfl
  | decode ht => exact hs.atDeframe.deframed ht

theorem hostMove_keeps_inv {m : HostMove} {s t : State} (hs : Inv s) (h : hostMove m s = .next t) : Inv t := by
  have hmem := memWf_iff.mp hs.memory
  cases m with
  | command w =>
    obtain ⟨_, _, hexec⟩ := runCommand_next h
    exact exec_keeps_inv hs hexec
  | writeTim | writePcm | writeBits | writeTxt | writePay =>
    cases refuseIf_next_state h
    exact hs.withSpaces (memWf_iff.mpr (by simp [writeCell_wf, hmem]))
  | writeLen space len =>
    obtain ⟨hlen, h⟩ := refuseIf_next.mp h
    cases h
    exact hs.writeLength (by simpa using hlen) space
  | read =>
    cases h
    exact hs
  | reset =>
    cases h
    exact inv_resetOn hs.chip hs.crcText _ _ _

/-- Settles O10: a step is one move of the host, taken from the list of moves. -/
theorem everyStepKeepsInvariant : Obligations.EveryStepKeepsInvariant := by
  intro s t hs h
  obtain ⟨_, rfl⟩ | ⟨m, rest, _, _, hmove⟩ := step_next h
  · exact hs
  · exact hostMove_keeps_inv (hs.withHost rest) hmove

end Sys2Proof.Machine
end
